-- ==== Sys2Proof/Word.lean ====
section
/-! DEFINITION. The words of the SQW core: a `NUM` lane, a command frame, a response frame
(spec 00_scope.md R8, R9; 30_encoding.md R65, R67, R68). -/

namespace Sys2Proof

/-- A `NUM` as it stands in a lane or a register: one IEEE 754 binary64 bit pattern, `W = 64` (R8, R67). -/
abbrev Bin64 := BitVec 64

/-- A command frame of `8 + 4*W = 264` bits (R65). -/
abbrev Frame := BitVec 264

/-- A response frame of `8 + W = 72` bits (R68). -/
abbrev RspFrame := BitVec 72

end Sys2Proof
end

