-- ==== Sys2Proof/Syntax.lean ====
section
/-! DEFINITION. The command set: one constructor for each row of spec/opcode_table.json, with the operands of
30_encoding.md R66 in lane order (`f0`, `f1`, `f2`, `f3`, `t`). A lane a command does not read is no operand (R73). -/

namespace Sys2Proof

/-- One decoded command (30_encoding.md R66, R70). -/
inductive Instr where
  /-- `NOP`, op 0 (R102). -/
  | nop
  /-- `CONFIG`, op 1 (R90): `f0`, `f1`, `f3`. -/
  | config (minSweep sampleRate initPhase : Bin64)
  /-- `SETPHASE`, op 2 (R165): `f0`, `f1`, `f2`, `f3`. -/
  | setphase (freq clip skew phaseIn : Bin64)
  /-- `STEP`, op 3 (R110): `f0`, `f1`, `f2`, `t`. -/
  | step (freq clip skew : Bin64) (syncTrigger : Bool)
  /-- `GETMS`, op 4 (R101). -/
  | getms
  /-- Reserved opcode 5 (R71). -/
  | reserved5
  /-- Reserved opcode 6 (R71). -/
  | reserved6
  /-- Reserved opcode 7 (R71). -/
  | reserved7
  deriving DecidableEq, Repr

end Sys2Proof
end

