-- ==== Sys2Proof/Decode.lean ====
section
/-! DEFINITION. The command encoding of spec 30_encoding.md: the fields of a frame (R65), the decoder (R66, R70 to R73),
and after it the encoder written from the same tables. -/

namespace Sys2Proof

/-! ### Fields of a command frame (R65) -/

/-- `op = frame[2:0]`. -/
def opField (w : Frame) : BitVec 3 := w.extractLsb' 0 3

/-- `t = frame[3]`; 1 is true (R69). -/
def tField (w : Frame) : Bool := w.getLsbD 3

/-- `rsv = frame[7:4]`. -/
def rsvField (w : Frame) : BitVec 4 := w.extractLsb' 4 4

/-- `f0 = frame[71:8]`. -/
def lane0 (w : Frame) : Bin64 := w.extractLsb' 8 64

/-- `f1 = frame[135:72]`. -/
def lane1 (w : Frame) : Bin64 := w.extractLsb' 72 64

/-- `f2 = frame[199:136]`. -/
def lane2 (w : Frame) : Bin64 := w.extractLsb' 136 64

/-- `f3 = frame[263:200]`. -/
def lane3 (w : Frame) : Bin64 := w.extractLsb' 200 64

/-! ### Decoder -/

/-- Why a frame is no command of the table. -/
inductive DecodeError where
  /-- `frame[7:4]` is not 0 (R72). Raised by `decode`; the machine's step answers it with `ERR_RESERVED`. -/
  | reservedBits
  deriving DecidableEq, Repr

/-- The decoder (R70): total on frames. Reserved bits are looked at before the opcode (R72); lanes a command does not
read are dropped (R73). The last line is opcode 7. -/
def decode (w : Frame) : Except DecodeError Instr :=
  if rsvField w = 0 then
    match (opField w).toNat with
    | 0 => .ok .nop
    | 1 => .ok (.config (lane0 w) (lane1 w) (lane3 w))
    | 2 => .ok (.setphase (lane0 w) (lane1 w) (lane2 w) (lane3 w))
    | 3 => .ok (.step (lane0 w) (lane1 w) (lane2 w) (tField w))
    | 4 => .ok .getms
    | 5 => .ok .reserved5
    | 6 => .ok .reserved6
    | _ => .ok .reserved7
  else .error .reservedBits

/-- The frame whose lowest `nbits` bits are those of `w` and whose other bits are 0. A frame is one word of 264 bits, so
bit 0 of the table is bit 0 of the frame (R9). -/
def tableFrame (nbits w : Nat) : Frame := BitVec.ofNat 264 (w % 2 ^ nbits)

/-- The instruction the decoder reads from a row of spec/opcode_table.json whose bits are `w`. -/
def decodeTableWord (nbits w : Nat) : Option Instr :=
  match decode (tableFrame nbits w) with
  | .ok i => some i
  | .error _ => none

/-! ### Encoder -/

/-- `frame = f3 ++ f2 ++ f1 ++ f0 ++ rsv ++ t ++ op` (R65). -/
def mkFrame (f3 f2 f1 f0 : Bin64) (rsv : BitVec 4) (t : Bool) (op : BitVec 3) : Frame :=
  f3 ++ f2 ++ f1 ++ f0 ++ rsv ++ BitVec.ofBool t ++ op

/-- The opcode of a command (R66). -/
def opcode : Instr → BitVec 3
  | .nop => 0
  | .config _ _ _ => 1
  | .setphase _ _ _ _ => 2
  | .step _ _ _ _ => 3
  | .getms => 4
  | .reserved5 => 5
  | .reserved6 => 6
  | .reserved7 => 7

/-- The encoder (R66). Lanes and the trigger bit that a command does not read are zeros, as the assembler writes them
(R77). -/
def encode (i : Instr) : Frame :=
  match i with
  | .nop => mkFrame 0 0 0 0 0 false (opcode i)
  | .config ms sr ph => mkFrame ph 0 sr ms 0 false (opcode i)
  | .setphase f c s p => mkFrame p s c f 0 false (opcode i)
  | .step f c s t => mkFrame 0 s c f 0 t (opcode i)
  | .getms => mkFrame 0 0 0 0 0 false (opcode i)
  | .reserved5 => mkFrame 0 0 0 0 0 false (opcode i)
  | .reserved6 => mkFrame 0 0 0 0 0 false (opcode i)
  | .reserved7 => mkFrame 0 0 0 0 0 false (opcode i)

end Sys2Proof
end

