-- ==== Sys2Proof/Config.lean ====
section
/-! DEFINITION. What the model takes as an argument (spec 00_scope.md R8): a number system `NUM` (R12) and a build of the
core over it. The functions the spec leaves OPEN are constants without a body: no proof can see a value of theirs. The
builds of this hardware are in Machine/Build.lean. -/

namespace Sys2Proof.Config

/-- A number type `NUM` (00_scope.md R8, R12): its literals, its four operations, its comparisons (R18), and the two
functions of the through-zero extension (`floor` R183, `abs` R185). `belowInf x` is the test `x < +Infinity` of R92. -/
structure NumSys (α : Type) where
  negOne : α
  zero : α
  half : α
  one : α
  oneQuarter : α
  two : α
  three : α
  four : α
  hundred : α
  pi : α
  add : α → α → α
  sub : α → α → α
  mul : α → α → α
  div : α → α → α
  lt : α → α → Bool
  le : α → α → Bool
  eq : α → α → Bool
  belowInf : α → Bool
  floor : α → α
  abs : α → α

/-- A build of the core: the implementation parameters of 00_scope.md R8 beside the number system. `cos` is `COS`
(R16), `freqMax` is `FREQ_MAX` (R95), `maxSyncFreq` is `MAX_SYNC_FREQ` of `min_sweep` and `sample_rate` (R96),
`syncPhaseInc` is `SYNC_PHASE_INC` (R97), `tz` is `TZ` (R6). -/
structure Build (α : Type) extends NumSys α where
  cos : α → α
  freqMax : α → α
  maxSyncFreq : α → α → α
  syncPhaseInc : α → α
  tz : Bool

/-- The free part of `COS` on binary64 (R16, parameter OPEN; log 3). Machine/Build.lean gives it the named properties. -/
opaque cosFree : Bin64 → Bin64

/-- The free part of `MAX_SYNC_FREQ` (R96, parameter OPEN; log 4). -/
opaque maxSyncFreqFree : Bin64 → Bin64 → Bin64

/-- The free part of `SYNC_PHASE_INC` (R97, parameter OPEN; log 5). -/
opaque syncPhaseIncFree : Bin64 → Bin64

/-- The bit pattern of a NaN that an operation produces, which no rule gives: a function of the operation (0 `+`, 1 `-`,
2 `*`, 3 `/`, 4 `floor`) and its operands (log 2). -/
opaque nanFree : Nat → Bin64 → Bin64 → Bin64

end Sys2Proof.Config
end

