-- ==== Sys2Proof/Machine/Binary64.lean ====
section
/-! DEFINITION. IEEE 754 binary64 on bit patterns, round to nearest even, one rounding for each operation (spec
00_scope.md R12, R18; 30_encoding.md R67). A finite value is a whole number of units of `2^-1074`, so each operation
is exact arithmetic on whole numbers followed by one rounding. What the spec takes from IEEE 754 by name (signed zeros,
subnormals, overflow to infinity) is log 1. -/

namespace Sys2Proof.Machine.B64

/-! ### Fields and classes (R67) -/

/-- Lane bit 63. -/
def signBit (x : Bin64) : Bool := x.getLsbD 63

/-- Lane bits `[62:52]`. -/
def expField (x : Bin64) : Nat := x.toNat / 2 ^ 52 % 2 ^ 11

/-- Lane bits `[51:0]`. -/
def fracField (x : Bin64) : Nat := x.toNat % 2 ^ 52

/-- A NaN: exponent all ones, fraction not 0. -/
def isNaN (x : Bin64) : Bool := expField x == 2047 && fracField x != 0

/-- An infinity of either sign. -/
def isInf (x : Bin64) : Bool := expField x == 2047 && fracField x == 0

/-- Neither NaN nor infinity. -/
def isFinite (x : Bin64) : Bool := expField x != 2047

/-- A zero of either sign. -/
def isZero (x : Bin64) : Bool := x.toNat % 2 ^ 63 == 0

/-! ### Values -/

/-- The significand of a finite value: subnormals (exponent field 0) have no hidden bit. -/
def significand (x : Bin64) : Nat :=
  if expField x = 0 then fracField x else 2 ^ 52 + fracField x

/-- `|x|` of a finite value in units of `2^-1074`. -/
def magnitude (x : Bin64) : Nat := significand x * 2 ^ (expField x - 1)

/-- A finite value in units of `2^-1074`. -/
def units (x : Bin64) : Int := if signBit x then -(magnitude x : Int) else (magnitude x : Int)

/-- The bits of `+Infinity`. -/
def infBits : Nat := 0x7FF0000000000000

/-- The bits (sign apart) of the binary64 nearest to `n / d` units of `2^-1074`, ties to even, for `d > 0`. `q` is the
exponent of the last place kept; a significand that rounds up to `2^53` carries into the exponent by the sum, and a
result past the largest finite value is infinity. -/
def roundMag (n d : Nat) : Nat :=
  let q := Nat.log2 (n / d) - 52
  let place := d * 2 ^ q
  let low := n / place
  let rest := n % place
  let up := decide (place < 2 * rest) || (decide (place = 2 * rest) && low % 2 == 1)
  min (q * 2 ^ 52 + (if up then low + 1 else low)) infBits

/-- Sign and magnitude bits put together. -/
def pack (negative : Bool) (bits : Nat) : Bin64 :=
  BitVec.ofNat 64 (if negative then 2 ^ 63 + bits else bits)

/-- A NaN result of operation `op`: some NaN, which one no rule says (log 2). -/
def nan (op : Nat) (x y : Bin64) : Bin64 :=
  if isNaN (Config.nanFree op x y) then Config.nanFree op x y else 0x7FF8000000000000

/-! ### The four operations (R12) -/

/-- `-x`: the sign bit turned. -/
def neg (x : Bin64) : Bin64 := x ^^^ 0x8000000000000000

/-- The sum of two values, for operation number `op` (`+` or, with the second operand negated, `-`). An exact zero sum is
`+0` unless both operands are negative zeros. -/
def sum (op : Nat) (x y : Bin64) : Bin64 :=
  if isNaN x || isNaN y then nan op x y
  else if isInf x then (if isInf y && signBit x != signBit y then nan op x y else x)
  else if isInf y then y
  else if units x + units y = 0 then pack (signBit x && signBit y) 0
  else pack (decide (units x + units y < 0)) (roundMag (units x + units y).natAbs 1)

/-- `x + y`. -/
def add (x y : Bin64) : Bin64 := sum 0 x y

/-- `x - y`. -/
def sub (x y : Bin64) : Bin64 := sum 1 x (neg y)

/-- `x * y`. -/
def mul (x y : Bin64) : Bin64 :=
  if isNaN x || isNaN y then nan 2 x y
  else if isInf x || isInf y then
    if isZero x || isZero y then nan 2 x y else pack (signBit x != signBit y) infBits
  else pack (signBit x != signBit y) (roundMag (magnitude x * magnitude y) (2 ^ 1074))

/-- `x / y`. -/
def div (x y : Bin64) : Bin64 :=
  if isNaN x || isNaN y then nan 3 x y
  else if isInf x then (if isInf y then nan 3 x y else pack (signBit x != signBit y) infBits)
  else if isInf y then pack (signBit x != signBit y) 0
  else if isZero y then (if isZero x then nan 3 x y else pack (signBit x != signBit y) infBits)
  else pack (signBit x != signBit y) (roundMag (magnitude x * 2 ^ 1074) (magnitude y))

/-! ### Comparisons (R18): both zeros are equal, a NaN is neither below, above nor equal to anything -/

/-- The place of a value that is no NaN in the order of values; both zeros have place 0. -/
def key (x : Bin64) : Int :=
  if signBit x then -((x.toNat % 2 ^ 63 : Nat) : Int) else ((x.toNat % 2 ^ 63 : Nat) : Int)

/-- `x < y`. -/
def lt (x y : Bin64) : Bool := !isNaN x && !isNaN y && decide (key x < key y)

/-- `x <= y`. -/
def le (x y : Bin64) : Bool := !isNaN x && !isNaN y && decide (key x ≤ key y)

/-- `x == y`. -/
def eq (x y : Bin64) : Bool := !isNaN x && !isNaN y && decide (key x = key y)

/-! ### The functions of the through-zero extension (44_through_zero.md R183, R185) -/

/-- `|x|` clears the sign (R185). -/
def abs (x : Bin64) : Bin64 := x &&& 0x7FFFFFFFFFFFFFFF

/-- `floor x`, the whole number next below or equal (R183); the sign of a zero result is that of `x` (log 1). -/
def floor (x : Bin64) : Bin64 :=
  if isNaN x then nan 4 x x
  else if isInf x then x
  else if signBit x then pack true (roundMag ((magnitude x + (2 ^ 1074 - 1)) / 2 ^ 1074 * 2 ^ 1074) 1)
  else pack false (roundMag (magnitude x / 2 ^ 1074 * 2 ^ 1074) 1)

/-- The binary64 number system of this hardware (R8, D1). `PI` is the value R8 gives. -/
def sys : Config.NumSys Bin64 where
  negOne := 0xBFF0000000000000
  zero := 0x0000000000000000
  half := 0x3FE0000000000000
  one := 0x3FF0000000000000
  oneQuarter := 0x3FF4000000000000
  two := 0x4000000000000000
  three := 0x4008000000000000
  four := 0x4010000000000000
  hundred := 0x4059000000000000
  pi := 0x400921FB54442D18
  add := add
  sub := sub
  mul := mul
  div := div
  lt := lt
  le := le
  eq := eq
  belowInf := fun x => lt x 0x7FF0000000000000
  floor := floor
  abs := abs

end Sys2Proof.Machine.B64
end

