-- ==== Sys2Proof/Machine/Build.lean ====
section
/-! DEFINITION. The builds of the core over binary64 (spec 00_scope.md R6, R8): `build` is this hardware, `throughZero`
the build with the optional extension. The open parameters range over EVERY function that meets the constraint the spec
gives: each wrapper passes the free function's value where the constraint holds and an allowed value where it does not, so
what can be proved of the wrapper is the constraint and nothing more. -/

namespace Sys2Proof.Machine

/-- `COS` (R16): a free function of its argument with `COS(0) = 1` (both zeros, log 3) and, on finite arguments, values in
`[-1, 1]`. -/
def cos (x : Bin64) : Bin64 :=
  if B64.isFinite x then
    if B64.isZero x then B64.sys.one
    else if B64.le B64.sys.negOne (Config.cosFree x) && B64.le (Config.cosFree x) B64.sys.one then Config.cosFree x
    else B64.sys.one
  else Config.cosFree x

/-- `FREQ_MAX(sample_rate)`, for this hardware `sample_rate / 2` (R95). -/
def freqMax (sampleRate : Bin64) : Bin64 := B64.div sampleRate B64.sys.two

/-- `MAX_SYNC_FREQ(min_sweep, sample_rate)` (R96): a free function whose values are positive and finite (log 4). -/
def maxSyncFreq (minSweep sampleRate : Bin64) : Bin64 :=
  if B64.lt B64.sys.zero (Config.maxSyncFreqFree minSweep sampleRate)
      && B64.sys.belowInf (Config.maxSyncFreqFree minSweep sampleRate) then
    Config.maxSyncFreqFree minSweep sampleRate
  else B64.sys.one

/-- `SYNC_PHASE_INC(min_sweep)` (R97): a free function with `0 < value <= PI` (log 5). -/
def syncPhaseInc (minSweep : Bin64) : Bin64 :=
  if B64.lt B64.sys.zero (Config.syncPhaseIncFree minSweep)
      && B64.le (Config.syncPhaseIncFree minSweep) B64.sys.pi then
    Config.syncPhaseIncFree minSweep
  else B64.sys.pi

/-- The default of `MAX_SYNC_FREQ`: `sample_rate / (2 * min_sweep)`, that is `max_sweep_freq` (R96). -/
def maxSyncFreqDefault (minSweep sampleRate : Bin64) : Bin64 :=
  B64.div sampleRate (B64.mul B64.sys.two minSweep)

/-- The default of `SYNC_PHASE_INC` for a natural logarithm `ln`: `(PI * LN100) / (20 * ln(min_sweep))` (R97), with
`LN100` the binary64 nearest to the natural logarithm of 100. -/
def syncPhaseIncDefault (ln : Bin64 → Bin64) (minSweep : Bin64) : Bin64 :=
  B64.div (B64.mul B64.sys.pi 0x40126BB1BBB55516) (B64.mul 0x4034000000000000 (ln minSweep))

/-- The build that is this hardware: binary64, `TZ = 0` (R6, R8). -/
def build : Config.Build Bin64 where
  toNumSys := B64.sys
  cos := cos
  freqMax := freqMax
  maxSyncFreq := maxSyncFreq
  syncPhaseInc := syncPhaseInc
  tz := false

/-- The same core built with the through-zero extension, `TZ = 1` (44_through_zero.md). -/
def throughZero : Config.Build Bin64 where
  toNumSys := B64.sys
  cos := cos
  freqMax := freqMax
  maxSyncFreq := maxSyncFreq
  syncPhaseInc := syncPhaseInc
  tz := true

/-- The build the spec's test vectors use: the defaults of the open parameters (R8), for a cosine and a logarithm
given from outside. -/
def vectorBuild (cosine ln : Bin64 → Bin64) (tz : Bool) : Config.Build Bin64 where
  toNumSys := B64.sys
  cos := cosine
  freqMax := freqMax
  maxSyncFreq := maxSyncFreqDefault
  syncPhaseInc := syncPhaseIncDefault ln
  tz := tz

end Sys2Proof.Machine
end

