-- ==== Sys2Proof/Machine/Numeric.lean ====
section
/-! DEFINITION. The numeric helpers every rule is written with, over any number system (spec 00_scope.md R13, R14, R17). -/

namespace Sys2Proof.Machine

open Config

variable {α : Type}

/-- `clamp(x, lo, hi)` (R13): a NaN yields `hi`. -/
def clamp (N : NumSys α) (x lo hi : α) : α :=
  if N.le lo x && N.le x hi then x else if N.lt x lo then lo else hi

/-- `min(a, b)` (R14). -/
def nmin (N : NumSys α) (a b : α) : α := if N.lt a b then a else b

/-- `max(a, b)` (R14). -/
def nmax (N : NumSys α) (a b : α) : α := if N.lt b a then a else b

/-- `wdiv(a, b)`, the guarded division (R17). -/
def wdiv (N : NumSys α) (a b : α) : α := if N.eq b N.zero then N.zero else N.div a b

/-- `COS(PI * w)` (R15): one multiplication, then `COS`. -/
def cosPi (B : Build α) (w : α) : α := B.cos (B.mul B.pi w)

end Sys2Proof.Machine
end

