-- ==== Sys2Proof/Machine/State.lean ====
section
/-! DEFINITION. The state of one core and of its ports (spec 10_state.md R20, 30_encoding.md R75), as plain data; the
reasons a step could stop, and the state after reset (70_reset_and_hazards.md R216). -/

namespace Sys2Proof.Machine

/-- The fourteen items of 10_state.md R20, over a number type `α` (`Bin64` in `State`). -/
structure Regs (α : Type) where
  /-- Linear clock (R21). -/
  phase : α
  /-- Shape clock (R22). -/
  warpedPhase : α
  /-- Progress of a hard-sync ramp; 0 is inactive (R23). -/
  hardsyncPhase : α
  /-- Increment of `hardsyncPhase` (R24). -/
  hardsyncIncrement : α
  /-- `min_sweep`, stored clamped (R32). -/
  minSweep : α
  /-- `sample_rate` (R33). -/
  sampleRate : α
  /-- `max_warp_inc` (R34). -/
  maxWarpInc : α
  /-- `phase_inc_per_hz` (R34). -/
  phaseIncPerHz : α
  /-- `max_sweep_freq` (R34). -/
  maxSweepFreq : α
  /-- `max_sync_freq` (R34). -/
  maxSyncFreq : α
  /-- `sync_phase_increment` (R34). -/
  syncPhaseIncrement : α
  /-- `freq_max` (R34). -/
  freqMax : α
  /-- `configured` (R28). -/
  configured : Bool
  /-- `neg` of the through-zero extension (R36); the baseline neither reads nor writes it (log 12). -/
  neg : Bool
  deriving DecidableEq, Repr

/-- What the host drives on the input ports at one instant (30_encoding.md R75, 70_reset_and_hazards.md R215). -/
structure HostInput where
  rst : Bool
  cmdValid : Bool
  cmdFrame : Frame
  deriving DecidableEq, Repr

/-- The whole state: the registers of R20, the output ports of R75, and what the host will drive. -/
structure State where
  /-- The registers (R20). -/
  regs : Regs Bin64
  /-- Output port `cmd_ready`, as it stood at the last instant (R76, R215). -/
  cmdReady : Bool
  /-- Output port `rsp_valid`: the last instant produced a response (R76, log 10). -/
  rspValid : Bool
  /-- Output port `rsp_frame`: the last response, held until the next (R56, R76). -/
  rspFrame : RspFrame
  /-- The model's own: what the host drives at the coming instants, the next one first (log 8). -/
  host : List HostInput
  deriving DecidableEq, Repr

/-- Why the machine could stop with a fault: it never does. Every failure of this hardware is a status in a response
(60_exceptions.md R190 to R193), so there is nothing to raise and no constructor (log 14). Safe. -/
inductive Fault where
  deriving DecidableEq, Repr

/-- Why a step could be refused. -/
inductive Refusal where
  /-- An instruction of the table that has no meaning yet. Raised by no arm of `exec`: every row has its meaning
  (log 14). Safe. -/
  | notModelled (mnemonic : String)
  deriving DecidableEq, Repr

/-- The value that stands for "unspecified" after `rst` in every NUM register: a quiet NaN, never zero (R39; DESIGN
CHOICE, unsafe, log 7). -/
def unspecified : Bin64 := 0x7FF8000000000000

/-- The registers after `rst` (R39, R216): `configured = 0`, everything else unspecified. `neg` does not exist in this
hardware (`TZ = 0`) and stands at 0 (DESIGN CHOICE, log 7). -/
def Regs.reset : Regs Bin64 where
  phase := unspecified
  warpedPhase := unspecified
  hardsyncPhase := unspecified
  hardsyncIncrement := unspecified
  minSweep := unspecified
  sampleRate := unspecified
  maxWarpInc := unspecified
  phaseIncPerHz := unspecified
  maxSweepFreq := unspecified
  maxSyncFreq := unspecified
  syncPhaseIncrement := unspecified
  freqMax := unspecified
  configured := false
  neg := false

/-- The state right after reset: the response port holds `OK`, `sync_out = 0`, `+0` with `rsp_valid = 0`, the core is
ready for a command (R215, R216), and the host has presented nothing (log 8). -/
def State.reset : State where
  regs := Regs.reset
  cmdReady := true
  rspValid := false
  rspFrame := 0
  host := []

end Sys2Proof.Machine
end

