-- ==== Sys2Proof/Machine/Operands.lean ====
section
/-! DEFINITION. Every operand form: what a command uses of a lane it reads (spec 30_encoding.md R69), the internal forms
(41_step_phase_shaping.md R112), and the segment geometry computed from them (R114, R117), with the through-zero changes
of 44_through_zero.md R184, R185, R187 where `TZ = 1`. -/

namespace Sys2Proof.Machine

open Config

variable {α : Type}

/-- `clamp(f0, 4, 100)`, the `min_sweep` operand of CONFIG (R69, R91). -/
def minSweepOperand (B : Build α) (ms : α) : α := clamp B.toNumSys ms B.four B.hundred

/-- The target of `init_phase` and `phase_in`: any negative value is the sentinel `1.25`, otherwise `clamp(x, 0, 2)`
(R69, R166). -/
def seedTarget (B : Build α) (x : α) : α :=
  if B.lt x B.zero then B.oneQuarter else clamp B.toNumSys x B.zero B.two

/-- The frequency operand before its clamp: with `TZ = 1` its magnitude (R185, R187). -/
def freqMagnitude (B : Build α) (freqIn : α) : α := if B.tz then B.abs freqIn else freqIn

/-- `f = clamp(freq_in, 0, freq_max)` (R111, R167). -/
def freqOperand (B : Build α) (r : Regs α) (freqIn : α) : α :=
  clamp B.toNumSys (freqMagnitude B freqIn) B.zero r.freqMax

/-- `c = clamp(clip_in, 0, 1)` (R111). -/
def clipOperand (B : Build α) (clipIn : α) : α := clamp B.toNumSys clipIn B.zero B.one

/-- `s = clamp(skew_in, -1, 1)` (R111). -/
def skewOperand (B : Build α) (skewIn : α) : α := clamp B.toNumSys skewIn B.negOne B.one

/-- `clip_internal = 1 - c` (R112). -/
def clipInternal (B : Build α) (clipIn : α) : α := B.sub B.one (clipOperand B clipIn)

/-- `skew_internal = 1 - s` (R112); with `TZ = 1` and `neg = 1` it is inverted, `clamp(2 - si, 0, 2)` (R184). -/
def skewInternal (B : Build α) (r : Regs α) (skewIn : α) : α :=
  if B.tz && r.neg then
    clamp B.toNumSys (B.sub B.two (B.sub B.one (skewOperand B skewIn))) B.zero B.two
  else B.sub B.one (skewOperand B skewIn)

/-- `inc = phase_inc_per_hz * f`, the phase increment (R114). -/
def phaseIncrement (B : Build α) (r : Regs α) (f : α) : α := B.mul r.phaseIncPerHz f

/-- The segment geometry of one cycle (R117). -/
structure Geometry (α : Type) where
  /-- `min_sweep_frac`. -/
  msf : α
  /-- `midpoint`. -/
  mid : α
  /-- Sweep-down length. -/
  dlen : α
  /-- Sweep-up length. -/
  ulen : α
  deriving DecidableEq, Repr

/-- The geometry of R117 and R168 from the increment and the two internal forms. -/
def geometry (B : Build α) (r : Regs α) (inc ci si : α) : Geometry α :=
  let msf := B.mul inc r.minSweep
  let mid := clamp B.toNumSys si msf (B.sub B.two msf)
  { msf := msf
    mid := mid
    dlen := nmax B.toNumSys (B.mul ci mid) msf
    ulen := nmax B.toNumSys (B.mul ci (B.sub B.two mid)) msf }

/-- The path test `f >= max_sweep_freq` (R115, R132, R167). -/
def onFastPath (B : Build α) (r : Regs α) (f : α) : Bool := B.le r.maxSweepFreq f

end Sys2Proof.Machine
end

