-- ==== Sys2Proof/Machine/Flags.lean ====
section
/-! DEFINITION. The derived flags and the response: the sync-active predicate (spec 10_state.md R31), the wrap condition
that is `sync_out` (41_step_phase_shaping.md R130), the status codes (60_exceptions.md R191), the response frame
(30_encoding.md R68) and the ready output (30_encoding.md R76). -/

namespace Sys2Proof.Machine

open Config

variable {α : Type}

/-- A sync is active exactly when `hardsync_phase != 0` (R31). -/
def syncActive (B : Build α) (r : Regs α) : Bool := !B.eq r.hardsyncPhase B.zero

/-- The cycle is complete: `warped_phase >= 2 and phase >= 2` (R130). In a STEP this is `sync_out`. -/
def wrapDue (B : Build α) (r : Regs α) : Bool := B.le B.two r.warpedPhase && B.le B.two r.phase

/-- The status codes the core produces (R191). -/
inductive Status where
  | ok
  | errUnconfigured
  | errBadConfig
  | errReserved
  deriving DecidableEq, Repr

/-- The 3-bit code of a status (R68, R191). -/
def Status.code : Status → BitVec 3
  | .ok => 0
  | .errUnconfigured => 1
  | .errBadConfig => 2
  | .errReserved => 3

/-- The response frame: `value ++ 0000 ++ sync_out ++ status` (R68). -/
def rspFrameOf (st : Status) (syncOut : Bool) (value : Bin64) : RspFrame :=
  value ++ (0 : BitVec 4) ++ BitVec.ofBool syncOut ++ st.code

/-- `cmd_ready` at an instant: 0 while `rst` is asserted (R215), else 1, since a command's response is part of the
transition that accepts it (R55, log 9). -/
def readyAt (i : HostInput) : Bool := !i.rst

/-- A command is accepted at an instant when `cmd_valid` and `cmd_ready` are both 1 (R76). -/
def acceptedAt (i : HostInput) : Bool := i.cmdValid && readyAt i

end Sys2Proof.Machine
end

