-- ==== Sys2Proof/Machine/Ops.lean ====
section
/-! DEFINITION. The shared operations over the state: producing a response (spec 30_encoding.md R68, R76), raising a
status, which is all this hardware has for an exception (60_exceptions.md R193; there is no return from it), and what an
instant without a command does to the ports. -/

namespace Sys2Proof.Machine

/-- Produce a response: `rsp_frame` takes the new value and `rsp_valid` pulses (R68, R76). -/
def State.respond (st : Status) (syncOut : Bool) (value : Bin64) (s : State) : State :=
  { s with rspValid := true, rspFrame := rspFrameOf st syncOut value }

/-- Put new register values (R20) in place, all at once (R55). -/
def State.setRegs (r : Regs Bin64) (s : State) : State := { s with regs := r }

/-- `raise st` (R193): the command ends with that status, `sync_out = 0`, `value = +0`, and no register is written. -/
def raise (st : Status) (s : State) : Host.Outcome State Fault Refusal :=
  .next (s.respond st false 0)

/-- The end of a command that is performed: status `OK`, with its registers, `sync_out` and `value` (R68). -/
def complete (r : Regs Bin64) (syncOut : Bool) (value : Bin64) (s : State) : Host.Outcome State Fault Refusal :=
  .next ((s.setRegs r).respond .ok syncOut value)

/-- Read one instant of the host's inputs: the remaining ones stay, and `cmd_ready` shows what it was (R75, R76). -/
def State.takeInput (i : HostInput) (rest : List HostInput) (s : State) : State :=
  { s with cmdReady := readyAt i, host := rest }

/-- An instant with `rst` asserted (R215, R216): the reset state, with `cmd_ready = 0`, and the host's later inputs kept
(log 11). -/
def State.assertRst (s : State) : State := { State.reset with cmdReady := false, host := s.host }

/-- An instant in which no command is accepted: no response is produced, so `rsp_valid` is 0, and `rsp_frame` holds
(R56, R76, log 10). -/
def State.idle (s : State) : State := { s with rspValid := false }

end Sys2Proof.Machine
end

