-- ==== Sys2Proof/Machine/Seeding.lean ====
section
/-! DEFINITION. Phase seeding and the SETPHASE command (spec 43_phase_seeding.md R165 to R171). -/

namespace Sys2Proof.Machine

open Config

variable {α : Type}

/-- The four cases of the inversion (R169), by the first line that matches: `p` is the target on the shape clock. -/
def seedAt (B : Build α) (p : α) (g : Geometry α) (r : Regs α) : Regs α :=
  if B.lt p B.one then { r with warpedPhase := p, phase := B.mul p g.dlen }
  else if B.eq p B.one then { r with warpedPhase := B.one, phase := g.dlen }
  else if B.lt p B.two then
    { r with warpedPhase := p, phase := B.add g.mid (B.mul (B.sub p B.one) g.ulen) }
  else { r with warpedPhase := B.two, phase := B.add g.mid g.ulen }

/-- `seed(phase_in, freq_in, clip_in, skew_in)` (R171): on the fast path both clocks take the target (R167), else the
segment model is inverted (R168, R169). With `TZ = 1` the magnitude of the frequency and the inverted skew are used (R187). -/
def seed (B : Build α) (phaseIn freqIn clipIn skewIn : α) (r : Regs α) : Regs α :=
  let p := seedTarget B phaseIn
  let f := freqOperand B r freqIn
  if onFastPath B r f then { r with warpedPhase := p, phase := p }
  else
    seedAt B p
      (geometry B r (phaseIncrement B r f) (clipInternal B clipIn) (skewInternal B r skewIn)) r

/-- SETPHASE in a build: `ERR_UNCONFIGURED` while `configured = 0`, else the seeding, responding `OK` and `+0` (R171). -/
def setphaseIn (B : Build Bin64) (freqIn clipIn skewIn phaseIn : Bin64) (s : State) :
    Host.Outcome State Fault Refusal :=
  if s.regs.configured then complete (seed B phaseIn freqIn clipIn skewIn s.regs) false 0 s
  else raise .errUnconfigured s

/-- The SETPHASE command of this hardware (R171). -/
def execSetphase (freq clip skew phaseIn : Bin64) (s : State) : Host.Outcome State Fault Refusal :=
  setphaseIn build freq clip skew phaseIn s

end Sys2Proof.Machine
end

