-- ==== Sys2Proof/Machine/Configuring.lean ====
section
/-! DEFINITION. The configuration commands CONFIG, GETMS and NOP (spec 40_config_commands.md R90 to R103). -/

namespace Sys2Proof.Machine

open Config

variable {α : Type}

/-- The legality of a sample rate (R92): positive, finite, and with `2 / sr` finite. -/
def sampleRateLegal (B : Build α) (sr : α) : Bool :=
  B.lt B.zero sr && B.belowInf sr && B.belowInf (B.div B.two sr)

/-- The writes of a legal CONFIG before the seeding (R91, R93 to R98). `neg` is cleared only where it exists. -/
def constants (B : Build α) (ms sr : α) (r : Regs α) : Regs α :=
  { r with
    minSweep := minSweepOperand B ms
    sampleRate := sr
    maxWarpInc := B.div B.one (minSweepOperand B ms)
    phaseIncPerHz := B.div B.two sr
    maxSweepFreq := B.div sr (B.mul B.two (minSweepOperand B ms))
    freqMax := B.freqMax sr
    maxSyncFreq := B.maxSyncFreq (minSweepOperand B ms) sr
    syncPhaseIncrement := B.syncPhaseInc (minSweepOperand B ms)
    hardsyncPhase := B.zero
    hardsyncIncrement := B.zero
    configured := true
    neg := if B.tz then false else r.neg }

/-- The registers after a legal CONFIG (R100): the constants, then `seed(ph, 0, 0, 0)` (R99). -/
def configure (B : Build α) (ms sr ph : α) (r : Regs α) : Regs α :=
  seed B ph B.zero B.zero B.zero (constants B ms sr r)

/-- CONFIG in a build (R100): `ERR_BAD_CONFIG` for an illegal sample rate, else a new oscillator, whether or not the core
is configured (R90, R103). -/
def configIn (B : Build Bin64) (ms sr ph : Bin64) (s : State) : Host.Outcome State Fault Refusal :=
  if sampleRateLegal B sr then complete (configure B ms sr ph s.regs) false 0 s
  else raise .errBadConfig s

/-- The CONFIG command of this hardware (R100). -/
def execConfig (minSweep sampleRate initPhase : Bin64) (s : State) : Host.Outcome State Fault Refusal :=
  configIn build minSweep sampleRate initPhase s

/-- The GETMS command (R101): the effective `min_sweep`, or `ERR_UNCONFIGURED`. -/
def execGetms (s : State) : Host.Outcome State Fault Refusal :=
  if s.regs.configured then complete s.regs false s.regs.minSweep s else raise .errUnconfigured s

/-- The NOP command (R102): responds `OK` and `+0`, configured or not. -/
def execNop (s : State) : Host.Outcome State Fault Refusal := complete s.regs false 0 s

end Sys2Proof.Machine
end

