-- ==== Sys2Proof/Machine/Reserved.lean ====
section
/-! DEFINITION. The reserved opcodes and reserved bits (spec 30_encoding.md R71, R72): the frame is accepted, writes no
state and responds `ERR_RESERVED`, configured or not. -/

namespace Sys2Proof.Machine

/-- Reserved opcode 5 (R71). -/
def execReserved5 (s : State) : Host.Outcome State Fault Refusal := raise .errReserved s

/-- Reserved opcode 6 (R71). -/
def execReserved6 (s : State) : Host.Outcome State Fault Refusal := raise .errReserved s

/-- Reserved opcode 7 (R71). -/
def execReserved7 (s : State) : Host.Outcome State Fault Refusal := raise .errReserved s

/-- A frame with reserved bits set is treated exactly as a reserved opcode (R72). -/
def reservedBits (s : State) : Host.Outcome State Fault Refusal := raise .errReserved s

end Sys2Proof.Machine
end

