-- ==== Sys2Proof/Machine/HardSync.lean ====
section
/-! DEFINITION. The hard-sync subsystem of STEP (spec 42_hardsync.md R150 to R154): arming, the frequency ramp, its
advance and hold. Its end at the wrap is in Machine/Wrap.lean. -/

namespace Sys2Proof.Machine

open Config

variable {α : Type}

/-- Arming (R151): with `t = 1`, the first of the four lines whose test holds. `f` is the clamped frequency operand. -/
def arm (B : Build α) (t : Bool) (f : α) (r : Regs α) : Regs α :=
  if t then
    if syncActive B r then r
    else if B.eq r.warpedPhase B.two then { r with phase := B.two }
    else if B.lt r.maxSyncFreq f then r
    else
      { r with
        hardsyncIncrement := r.syncPhaseIncrement
        hardsyncPhase := B.div r.syncPhaseIncrement B.two }
  else r

/-- The ramp weight `k = 0.5 * (1 - COS(hardsync_phase))` (R152). -/
def rampWeight (B : Build α) (r : Regs α) : α := B.mul B.half (B.sub B.one (B.cos r.hardsyncPhase))

/-- The effective frequency (R113, R152): while a sync is active, `f + k * (max_sync_freq - f)`. -/
def rampFreq (B : Build α) (f : α) (r : Regs α) : α :=
  if syncActive B r then B.add f (B.mul (rampWeight B r) (B.sub r.maxSyncFreq f)) else f

/-- Ramp advance and hold (R153): while a sync is active `hardsync_phase` advances, and at `PI` it is held with the
increment zeroed. -/
def rampAdvance (B : Build α) (r : Regs α) : Regs α :=
  if syncActive B r then
    if B.le B.pi (B.add r.hardsyncPhase r.hardsyncIncrement) then
      { r with hardsyncPhase := B.pi, hardsyncIncrement := B.zero }
    else { r with hardsyncPhase := B.add r.hardsyncPhase r.hardsyncIncrement }
  else r

end Sys2Proof.Machine
end

