-- ==== Sys2Proof/Machine/ThroughZero.lean ====
section
/-! DEFINITION. The through-zero extension's part of STEP (spec 44_through_zero.md R181 to R183, R186). It acts only in a
build with `TZ = 1`; this hardware has `TZ = 0` (R6, R180). -/

namespace Sys2Proof.Machine

open Config

variable {α : Type}

/-- `m` reduced into `[0, 2)`: `m - 2 * floor(m / 2)` (R183). -/
def reduceMod2 (B : Build α) (m : α) : α := B.sub m (B.mul B.two (B.floor (B.div m B.two)))

/-- The flip (R183): `phase` mirrored about 1.5, `warped_phase` about 1. -/
def flip (B : Build α) (r : Regs α) : Regs α :=
  { r with
    phase := reduceMod2 B (B.sub B.three r.phase)
    warpedPhase := B.sub B.two r.warpedPhase }

/-- The sign test at the start of STEP (R182, R186): on a sign flip with no sync active, flip and remember the sign;
while a sync is active the flip is deferred. Nothing with `TZ = 0` (R180). -/
def signTest (B : Build α) (freqIn : α) (r : Regs α) : Regs α :=
  if B.tz then
    if B.lt freqIn B.zero != r.neg && !syncActive B r then
      { flip B r with neg := B.lt freqIn B.zero }
    else r
  else r

end Sys2Proof.Machine
end

