-- ==== Sys2Proof/Machine/Wrap.lean ====
section
/-! DEFINITION. The end of a STEP: the unconditional phase advance and the wraparound (spec 41_step_phase_shaping.md R129
to R133, 42_hardsync.md R154). -/

namespace Sys2Proof.Machine

open Config

variable {α : Type}

/-- `phase <- phase + inc`, in every STEP (R129). -/
def advancePhase (B : Build α) (inc : α) (r : Regs α) : Regs α := { r with phase := B.add r.phase inc }

/-- The linear clock after a wrap without sync (R131): `phase - 2`, or `inc / 2` where that remainder is larger than
one increment. -/
def wrapRemainder (B : Build α) (inc phase : α) : α :=
  if B.lt inc (B.sub phase B.two) then B.div inc B.two else B.sub phase B.two

/-- The wrap body without a sync (R131, R132): the remainder on the linear clock, mapped into the new sweep-down on the
shape clock, or taken over as it is on the fast path. -/
def wrapPlain (B : Build α) (f inc : α) (g : Geometry α) (r : Regs α) : Regs α :=
  { r with
    phase := wrapRemainder B inc r.phase
    warpedPhase :=
      if onFastPath B r f then wrapRemainder B inc r.phase
      else wdiv B.toNumSys (wrapRemainder B inc r.phase) g.dlen }

/-- The wrap body with a sync active (R133, R154): both clocks to 0 and the sync over. -/
def wrapSync (B : Build α) (r : Regs α) : Regs α :=
  { r with phase := B.zero, warpedPhase := B.zero, hardsyncPhase := B.zero, hardsyncIncrement := B.zero }

/-- The wraparound check (R130): the registers after it; `sync_out` is `wrapDue` before it. -/
def wrap (B : Build α) (f inc : α) (g : Geometry α) (r : Regs α) : Regs α :=
  if wrapDue B r then
    if syncActive B r then wrapSync B r else wrapPlain B f inc g r
  else r

end Sys2Proof.Machine
end

