-- ==== Sys2Proof/Machine/Shaping.lean ====
section
/-! DEFINITION. The STEP command: one audio sample (spec 41_step_phase_shaping.md R110 to R135). The paths and segments
are one definition each; `oscStep` composes them in the order of R110 and R135. -/

namespace Sys2Proof.Machine

open Config

variable {α : Type}

/-- What a path of STEP gives: the registers it leaves and the sample it emits. -/
structure Emitted (α : Type) where
  regs : Regs α
  sample : α
  deriving DecidableEq, Repr

/-- The fast path (R116): a pure cosine; `phase` is pulled to `warped_phase`, which then advances. -/
def fastPath (B : Build α) (inc : α) (r : Regs α) : Emitted α :=
  { sample := cosPi B r.warpedPhase
    regs := { r with phase := r.warpedPhase, warpedPhase := B.add r.warpedPhase inc } }

/-- The four segments of a cycle (R118). -/
inductive Segment where
  | sweepDown
  | flatLow
  | sweepUp
  | flatHigh
  deriving DecidableEq, Repr

/-- Segment classification, by the first line of R118 that matches. -/
def classify (B : Build α) (g : Geometry α) (r : Regs α) : Segment :=
  if B.lt r.warpedPhase B.one then .sweepDown
  else if B.eq r.warpedPhase B.one && B.lt r.phase g.mid then .flatLow
  else if B.lt r.warpedPhase B.two then .sweepUp
  else .flatHigh

/-- The warp advance of a sweep of length `len`: `w + min(wdiv(inc, len), max_warp_inc)` (R119, R124). -/
def warpAdvance (B : Build α) (inc len : α) (r : Regs α) (w : α) : α :=
  B.add w (nmin B.toNumSys (wdiv B.toNumSys inc len) r.maxWarpInc)

/-- The reconciliation of a sweep whose advance to `w` has passed its `boundary` (R120, R121, R125, R126): the sweep has
length `len` and ends at `sweepEnd` in phase space, the flat after it has length `flat`, the next sweep `nextLen`.
`excess` is the overshoot in phase-space units. -/
def reconcile (B : Build α) (inc boundary len sweepEnd flat nextLen w : α) (r : Regs α) : Regs α :=
  let excess := B.mul (B.sub w boundary) len
  { r with
    phase := B.sub (B.add sweepEnd excess) inc
    warpedPhase :=
      if B.le excess flat then boundary
      else B.add boundary (wdiv B.toNumSys (B.sub excess flat) nextLen) }

/-- Sweep-down (R119 to R121). -/
def sweepDown (B : Build α) (inc : α) (g : Geometry α) (r : Regs α) : Emitted α :=
  let w := warpAdvance B inc g.dlen r r.warpedPhase
  { sample := cosPi B r.warpedPhase
    regs :=
      if B.lt B.one w then reconcile B inc B.one g.dlen g.dlen (B.sub g.mid g.dlen) g.ulen w r
      else { r with warpedPhase := w } }

/-- Flat-low (R122): `-1`, neither clock written. -/
def flatLow (B : Build α) (r : Regs α) : Emitted α := { sample := B.negOne, regs := r }

/-- The entry of the sweep-up from flat-low (R123): where `warped_phase == 1`, the fraction of a sample by which `phase`
has passed `mid` is carried. -/
def sweepUpEntry (B : Build α) (inc : α) (g : Geometry α) (r : Regs α) : α :=
  if B.eq r.warpedPhase B.one then
    B.add B.one (wdiv B.toNumSys (nmin B.toNumSys (B.sub r.phase g.mid) inc) g.ulen)
  else r.warpedPhase

/-- Sweep-up (R123 to R126). -/
def sweepUp (B : Build α) (inc : α) (g : Geometry α) (r : Regs α) : Emitted α :=
  let w := warpAdvance B inc g.ulen r (sweepUpEntry B inc g r)
  { sample := cosPi B (sweepUpEntry B inc g r)
    regs :=
      if B.lt B.two w then
        reconcile B inc B.two g.ulen (B.add g.mid g.ulen) (B.sub B.two (B.add g.mid g.ulen)) g.dlen w r
      else { r with warpedPhase := w } }

/-- Flat-high (R128): `+1`, neither clock written. -/
def flatHigh (B : Build α) (r : Regs α) : Emitted α := { sample := B.one, regs := r }

/-- The normal path (R118 to R128). -/
def normalPath (B : Build α) (inc : α) (g : Geometry α) (r : Regs α) : Emitted α :=
  match classify B g r with
  | .sweepDown => sweepDown B inc g r
  | .flatLow => flatLow B r
  | .sweepUp => sweepUp B inc g r
  | .flatHigh => flatHigh B r

/-- What one STEP gives: the registers, `sync_out` and `sample` (R134). -/
structure Stepped (α : Type) where
  regs : Regs α
  syncOut : Bool
  sample : α
  deriving DecidableEq, Repr

/-- Path, phase advance and wrap with effective frequency `f` and internal forms `ci`, `si` (R114 to R133): items 5 to 8
of R110. -/
def advance (B : Build α) (f ci si : α) (r : Regs α) : Stepped α :=
  let inc := phaseIncrement B r f
  let g := geometry B r inc ci si
  let e := if onFastPath B r f then fastPath B inc r else normalPath B inc g r
  let r' := advancePhase B inc e.regs
  { regs := wrap B f inc g r', syncOut := wrapDue B r', sample := e.sample }

/-- STEP on a configured core, assembled (R110, R135). -/
def oscStep (B : Build α) (freqIn clipIn skewIn : α) (t : Bool) (r : Regs α) : Stepped α :=
  let r0 := signTest B freqIn r
  let f := freqOperand B r0 freqIn
  let r1 := arm B t f r0
  advance B (rampFreq B f r1) (clipInternal B clipIn) (skewInternal B r0 skewIn) (rampAdvance B r1)

/-- STEP in a build: `ERR_UNCONFIGURED` while `configured = 0` (R110, R192), else one sample (R134). -/
def stepIn (B : Build Bin64) (freqIn clipIn skewIn : Bin64) (t : Bool) (s : State) :
    Host.Outcome State Fault Refusal :=
  if s.regs.configured then
    let o := oscStep B freqIn clipIn skewIn t s.regs
    complete o.regs o.syncOut o.sample s
  else raise .errUnconfigured s

/-- The STEP command of this hardware (R135). -/
def execStep (freq clip skew : Bin64) (syncTrigger : Bool) (s : State) : Host.Outcome State Fault Refusal :=
  stepIn build freq clip skew syncTrigger s

end Sys2Proof.Machine
end

