-- ==== Sys2Proof/Machine/Dispatch.lean ====
section
/-! DEFINITION. The meaning of each command, one arm for each row of spec/opcode_table.json. -/

namespace Sys2Proof.Machine

def exec (i : Instr) (s : State) : Host.Outcome State Fault Refusal :=
  match i with
  | .nop => Sys2Proof.Machine.execNop s
  | .config ms sr ph => Sys2Proof.Machine.execConfig ms sr ph s
  | .setphase freq clip skew ph => Sys2Proof.Machine.execSetphase freq clip skew ph s
  | .step freq clip skew t => Sys2Proof.Machine.execStep freq clip skew t s
  | .getms => Sys2Proof.Machine.execGetms s
  | .reserved5 => Sys2Proof.Machine.execReserved5 s
  | .reserved6 => Sys2Proof.Machine.execReserved6 s
  | .reserved7 => Sys2Proof.Machine.execReserved7 s

end Sys2Proof.Machine
end

