-- ==== Sys2Proof/Machine/Fetch.lean ====
section
/-! DEFINITION. What one instant does (spec 30_encoding.md R75, R76; 70_reset_and_hazards.md R215). A command is not
fetched: the host presents it (10_state.md R27). -/

namespace Sys2Proof.Machine

/-- Perform an accepted frame (R70, R72): the decoded command, or the response to reserved bits. -/
def perform (w : Frame) (s : State) : Host.Outcome State Fault Refusal :=
  match decode w with
  | .ok i => exec i s
  | .error .reservedBits => reservedBits s

/-- One instant in which the host drives `i` and then `rest` (R75, R76, R215): reset, a command, or nothing. -/
def instant (i : HostInput) (rest : List HostInput) (s : State) : Host.Outcome State Fault Refusal :=
  if i.rst then .next (s.takeInput i rest).assertRst
  else if acceptedAt i then perform i.cmdFrame (s.takeInput i rest)
  else .next (s.takeInput i rest).idle

/-- The host input that presents frame `w`. -/
def presenting (w : Frame) : HostInput := { rst := false, cmdValid := true, cmdFrame := w }

/-- The state in which the host presents frame `w` next, before all it was about to drive. -/
def State.present (w : Frame) (s : State) : State := { s with host := presenting w :: s.host }

/-- One instant of the machine: the next of the host's inputs; where the host drives nothing the core is idle (R203). -/
def nextInstant (s : State) : Host.Outcome State Fault Refusal :=
  match s.host with
  | [] => .next { s.idle with cmdReady := true }
  | i :: rest => instant i rest s

/-- The responses to a sequence of frames, in order (R76): each frame is presented at the instant after the one before
it, and an instant responds where its `rsp_valid` is 1. -/
def transcript (s : State) : List Frame → List RspFrame
  | [] => []
  | w :: ws =>
    match nextInstant (s.present w) with
    | .next s' => if s'.rspValid then s'.rspFrame :: transcript s' ws else transcript s' ws
    | .fault _ => []
    | .refused _ => []

end Sys2Proof.Machine
end

