-- ==== Sys2Proof/Machine/Step.lean ====
section
/-! DEFINITION. One step of the machine, and the placing of a command where the next step takes it (log 8). -/

namespace Sys2Proof.Machine

/-- One step: one instant of the ports (30_encoding.md R76). -/
def step (s : State) : Host.Outcome State Fault Refusal := nextInstant s

/-- `s` with the row `w` of the opcode table presented on the command port at the next instant. -/
def State.withFetchWord (s : State) (nbits w : Nat) : State := s.present (tableFrame nbits w)

end Sys2Proof.Machine
end

