-- ==== Sys2Proof/Machine/Assembler.lean ====
section
/-! DEFINITION. The assembler notation of the spec: numeric literals and command lines (30_encoding.md R77), and the
pseudo-commands with their expansions (R78). It is not part of the machine: it says which frames a text stands for. What
R77 leaves to the reader (white space, the exponent notation its vectors use) is log 15. -/

namespace Sys2Proof.Machine

/-! ### Pseudo-commands (R78) -/

/-- One line of a program: a command, or a pseudo-command. -/
inductive AsmLine where
  | plain (i : Instr)
  /-- `NEW ms, sr, ph`. -/
  | new (ms sr ph : Bin64)
  /-- `SYNC f, c, s`. -/
  | sync (f c s : Bin64)
  /-- `STEPN n, f, c, s`. -/
  | stepn (n : Nat) (f c s : Bin64)
  /-- `RESEED p` after a STEP. -/
  | reseed (p : Bin64)
  deriving DecidableEq, Repr

/-- The operands `f, c, s` of the STEP that precedes a line. -/
structure StepOperands where
  f : Bin64
  c : Bin64
  s : Bin64
  deriving DecidableEq, Repr

/-- The expansion of a line after a STEP with operands `last` (R78). `RESEED` with no STEP before it has none. -/
def AsmLine.expand (last : Option StepOperands) : AsmLine → Option (List Instr)
  | .plain i => some [i]
  | .new ms sr ph => some [.config ms sr ph]
  | .sync f c s => some [.step f c s true]
  | .stepn n f c s => some (List.replicate n (.step f c s false))
  | .reseed p =>
    match last with
    | some o => some [.setphase o.f o.c o.s p]
    | none => none

/-- The operands of the last STEP once command `i` stands in the program. -/
def lastStep (last : Option StepOperands) (i : Instr) : Option StepOperands :=
  match i with
  | .step f c s _ => some { f := f, c := c, s := s }
  | .nop => last
  | .config _ _ _ => last
  | .setphase _ _ _ _ => last
  | .getms => last
  | .reserved5 => last
  | .reserved6 => last
  | .reserved7 => last

/-- The commands of a program, the pseudo-commands expanded in order. -/
def expandProgram (last : Option StepOperands) : List AsmLine → Option (List Instr)
  | [] => some []
  | l :: ls =>
    match l.expand last with
    | none => none
    | some is => (expandProgram (is.foldl lastStep last) ls).map (is ++ ·)

/-- The frames of a program. -/
def assemble (ls : List AsmLine) : Option (List Frame) := (expandProgram none ls).map (List.map encode)

/-! ### Numeric literals (R77) -/

/-- The value of a digit. -/
def digitValue (c : Char) : Option Nat :=
  if '0' ≤ c ∧ c ≤ '9' then some (c.toNat - '0'.toNat)
  else if 'a' ≤ c ∧ c ≤ 'f' then some (c.toNat - 'a'.toNat + 10)
  else if 'A' ≤ c ∧ c ≤ 'F' then some (c.toNat - 'A'.toNat + 10)
  else none

/-- A run of digits of a base, read onto `acc`. -/
def readDigits (base acc : Nat) : List Char → Option Nat
  | [] => some acc
  | c :: cs =>
    match digitValue c with
    | some d => if d < base then readDigits base (acc * base + d) cs else none
    | none => none

/-- A non-empty run of decimal digits. -/
def readNat (cs : List Char) : Option Nat := if cs.isEmpty then none else readDigits 10 0 cs

/-- The part before the first `c`, and the part after it where there is one. -/
def cutAt (c : Char) : List Char → List Char × Option (List Char)
  | [] => ([], none)
  | x :: xs => if x = c then ([], some xs) else (x :: (cutAt c xs).1, (cutAt c xs).2)

/-- A decimal exponent, with its sign. -/
def readExponent : List Char → Option Int
  | '-' :: cs => (readNat cs).map fun n => -(n : Int)
  | '+' :: cs => (readNat cs).map fun n => (n : Int)
  | cs => (readNat cs).map fun n => (n : Int)

/-- The binary64 nearest to `m * 10^e`, ties to even (R77, D1). -/
def nearest (negative : Bool) (m : Nat) (e : Int) : Bin64 :=
  B64.pack negative (B64.roundMag (m * 10 ^ e.toNat * 2 ^ 1074) (10 ^ (-e).toNat))

/-- An unsigned decimal literal, such as `440`, `0.5`, `1e-308`. -/
def readDecimal (negative : Bool) (cs : List Char) : Option Bin64 :=
  match readExponent ((cutAt 'e' cs).2.getD ['0']) with
  | none => none
  | some e =>
    match readNat (cutAt '.' (cutAt 'e' cs).1).1, (cutAt '.' (cutAt 'e' cs).1).2 with
    | some m, none => some (nearest negative m e)
    | some m, some frac =>
      if frac.isEmpty then none
      else (readDigits 10 m frac).map fun n => nearest negative n (e - (frac.length : Int))
    | none, _ => none

/-- A numeric operand: `inf`, `-inf`, `nan`, `0x` and 16 hexadecimal digits, or a decimal literal (R77). -/
def readNumber (cs : List Char) : Option Bin64 :=
  match cs with
  | ['i', 'n', 'f'] => some 0x7FF0000000000000
  | ['-', 'i', 'n', 'f'] => some 0xFFF0000000000000
  | ['n', 'a', 'n'] => some 0x7FF8000000000000
  | '0' :: 'x' :: ds =>
    if ds.length = 16 then (readDigits 16 0 ds).map (BitVec.ofNat 64) else none
  | '-' :: ds => readDecimal true ds
  | ds => readDecimal false ds

/-! ### Command lines (R77) -/

/-- White space between the words of a line. -/
def isBlank (c : Char) : Bool := c == ' ' || c == '\t'

/-- A word without the white space around it. -/
def trim (cs : List Char) : List Char := ((cs.dropWhile isBlank).reverse.dropWhile isBlank).reverse

/-- The operands of a line, split at commas; no operands where nothing stands. -/
def operands (cs : List Char) : List (List Char) :=
  if (trim cs).isEmpty then []
  else (cs.foldr (fun c acc =>
    match acc with
    | [] => [[c]]
    | w :: ws => if c = ',' then [] :: w :: ws else (c :: w) :: ws) [[]]).map trim

/-- The trigger operand, `0` or `1`. -/
def readTrigger : List Char → Option Bool
  | ['0'] => some false
  | ['1'] => some true
  | _ => none

/-- A mnemonic and its operands, as one of the forms of R77 and R78. -/
def readForm (mnemonic : List Char) (ops : List (List Char)) : Option AsmLine :=
  match String.ofList mnemonic, ops with
  | "NOP", [] => some (.plain .nop)
  | "GETMS", [] => some (.plain .getms)
  | "CONFIG", [a, b, c] => do return .plain (.config (← readNumber a) (← readNumber b) (← readNumber c))
  | "SETPHASE", [a, b, c, d] => do
    return .plain (.setphase (← readNumber a) (← readNumber b) (← readNumber c) (← readNumber d))
  | "STEP", [a, b, c, d] => do
    return .plain (.step (← readNumber a) (← readNumber b) (← readNumber c) (← readTrigger d))
  | "NEW", [a, b, c] => do return .new (← readNumber a) (← readNumber b) (← readNumber c)
  | "SYNC", [a, b, c] => do return .sync (← readNumber a) (← readNumber b) (← readNumber c)
  | "STEPN", [a, b, c, d] => do
    return .stepn (← readNat a) (← readNumber b) (← readNumber c) (← readNumber d)
  | "RESEED", [a] => do return .reseed (← readNumber a)
  | _, _ => none

/-- One line of text, its comment dropped (R77). -/
def readLine (text : List Char) : Option AsmLine :=
  readForm ((trim (cutAt ';' text).1).takeWhile fun c => !isBlank c)
    (operands ((trim (cutAt ';' text).1).dropWhile fun c => !isBlank c))

end Sys2Proof.Machine
end

