-- ==== Sys2Proof/Machine/Ideal.lean ====
section
/-! DEFINITION. The ideal number systems (spec 00_scope.md R12: "A model may also instantiate NUM with the real numbers to
state ideal properties"): any ordered field, with a `PI` and the open parameters given from outside (log 16). The commands
are the same definitions as those of the hardware. -/

namespace Sys2Proof.Machine

open Config

/-- Exact arithmetic over an ordered field `K`: no infinity, so every element is below it. -/
def idealSys (K : Type) [Field K] [LinearOrder K] [FloorRing K] (pi : K) : NumSys K where
  negOne := -1
  zero := 0
  half := 1 / 2
  one := 1
  oneQuarter := 5 / 4
  two := 2
  three := 3
  four := 4
  hundred := 100
  pi := pi
  add := fun x y => x + y
  sub := fun x y => x - y
  mul := fun x y => x * y
  div := fun x y => x / y
  lt := fun x y => decide (x < y)
  le := fun x y => decide (x ≤ y)
  eq := fun x y => decide (x = y)
  belowInf := fun _ => true
  floor := fun x => (⌊x⌋ : K)
  abs := fun x => |x|

/-- The build of this hardware's rules in exact arithmetic, `TZ = 0`, for open parameters `cos`, `maxSyncFreq`,
`syncPhaseInc` (R8). -/
def idealBuild (K : Type) [Field K] [LinearOrder K] [FloorRing K] (pi : K) (cos : K → K)
    (maxSyncFreq : K → K → K) (syncPhaseInc : K → K) : Build K where
  toNumSys := idealSys K pi
  cos := cos
  freqMax := fun sr => sr / 2
  maxSyncFreq := maxSyncFreq
  syncPhaseInc := syncPhaseInc
  tz := false

end Sys2Proof.Machine
end

