-- ==== Sys2Proof/WellFormed.lean ====
section
/-! DEFINITION. Well-formed terms: commands, command frames and response frames. Every operand is a whole NUM lane and
every bit pattern of a lane is accepted (spec 30_encoding.md R67, R69), so no command is ill-formed; a frame is, when its
reserved bits are set (R72), and a response frame is, when it is none of those R68 allows. -/

namespace Sys2Proof

/-- Every command with any operands is well-formed: clamps belong to the command that reads an operand, never to its form
(R67, R69). -/
def Instr.wellFormed : Instr → Bool
  | .nop => true
  | .config _ _ _ => true
  | .setphase _ _ _ _ => true
  | .step _ _ _ _ => true
  | .getms => true
  | .reserved5 => true
  | .reserved6 => true
  | .reserved7 => true

/-- A command frame is well-formed when its reserved bits are 0 (R65, R72). -/
def frameWellFormed (w : Frame) : Bool := rsvField w == 0

/-- `status = rsp[2:0]` (R68). -/
def rspStatus (w : RspFrame) : BitVec 3 := w.extractLsb' 0 3

/-- `sync_out = rsp[3]` (R68). -/
def rspSyncOut (w : RspFrame) : Bool := w.getLsbD 3

/-- `rsp[7:4]` (R68). -/
def rspZeros (w : RspFrame) : BitVec 4 := w.extractLsb' 4 4

/-- `value = rsp[71:8]` (R68). -/
def rspValue (w : RspFrame) : Bin64 := w.extractLsb' 8 64

/-- A response frame the core may produce (R68): status codes 4 to 7 never appear, bits `[7:4]` are 0, and a status other
than `OK` comes with `sync_out = 0` and `value = +0`. -/
def rspWellFormed (w : RspFrame) : Bool :=
  decide ((rspStatus w).toNat ≤ 3) && (rspZeros w == 0)
    && ((rspStatus w == 0) || (!rspSyncOut w && (rspValue w == 0)))

end Sys2Proof
end

