-- ==== Sys2Proof/Safety.lean ====
section
/-! DEFINITION. What the claims are stated with: the invariants of the registers (spec 10_state.md R23 to R25, R34, R35;
41_step_phase_shaping.md R137), what a command leaves alone (R26), runs of STEP commands, and what a `COS` must be (R16). -/

namespace Sys2Proof.Safety

open Sys2Proof.Machine Sys2Proof.Config

variable {α : Type}

/-! ### What a command leaves alone -/

/-- The configuration, the derived constants, `configured` and `neg` are the same in both (R26, R35). -/
def SameConfig (r r' : Regs α) : Prop :=
  r'.minSweep = r.minSweep ∧ r'.sampleRate = r.sampleRate ∧ r'.maxWarpInc = r.maxWarpInc ∧
  r'.phaseIncPerHz = r.phaseIncPerHz ∧ r'.maxSweepFreq = r.maxSweepFreq ∧ r'.maxSyncFreq = r.maxSyncFreq ∧
  r'.syncPhaseIncrement = r.syncPhaseIncrement ∧ r'.freqMax = r.freqMax ∧ r'.configured = r.configured ∧
  r'.neg = r.neg

/-- The registers are the same but for the two clocks (R170). -/
def SameButClocks (r r' : Regs α) : Prop :=
  SameConfig r r' ∧ r'.hardsyncPhase = r.hardsyncPhase ∧ r'.hardsyncIncrement = r.hardsyncIncrement

/-- The registers are the same but for `neg`, which does not exist where `TZ = 0` (R36). -/
def SameButNeg (r r' : Regs α) : Prop := r' = { r with neg := r'.neg }

/-- The state after command response `w` with registers `r`: nothing else of `s` changes. -/
def responded (s : State) (r : Regs Bin64) (w : RspFrame) : State :=
  { s with regs := r, rspValid := true, rspFrame := w }

/-! ### Invariants -/

/-- The configuration registers hold legal values and the derived constants are the functions of them that R34 gives
(R32, R33, R35, R91 to R97). -/
def ConstantsAgree (B : Build α) (r : Regs α) : Prop :=
  B.le B.four r.minSweep = true ∧ B.le r.minSweep B.hundred = true ∧
  sampleRateLegal B r.sampleRate = true ∧
  r.maxWarpInc = B.div B.one r.minSweep ∧
  r.phaseIncPerHz = B.div B.two r.sampleRate ∧
  r.maxSweepFreq = B.div r.sampleRate (B.mul B.two r.minSweep) ∧
  r.freqMax = B.freqMax r.sampleRate ∧
  r.maxSyncFreq = B.maxSyncFreq r.minSweep r.sampleRate ∧
  r.syncPhaseIncrement = B.syncPhaseInc r.minSweep

/-- The hard-sync registers (R23, R24): `hardsync_phase` in `[0, PI]`, `hardsync_increment` zero or
`sync_phase_increment`, zero once the ramp has reached `PI`, and zero when no sync is active, but for the corner of log 5:
an increment whose half rounds to 0, with which arming starts no sync. -/
def SyncRange (B : Build α) (r : Regs α) : Prop :=
  B.le B.zero r.hardsyncPhase = true ∧ B.le r.hardsyncPhase B.pi = true ∧
  (r.hardsyncIncrement = B.zero ∨ r.hardsyncIncrement = r.syncPhaseIncrement) ∧
  (B.eq r.hardsyncPhase B.pi = true → r.hardsyncIncrement = B.zero) ∧
  (B.eq r.hardsyncPhase B.zero = true →
    r.hardsyncIncrement = B.zero ∨ B.eq (B.div r.syncPhaseIncrement B.two) B.zero = true)

/-- The range of the two clocks in exact arithmetic (R137): `0 <= warped_phase <= 2` and `0 <= phase`. -/
def ShapeRange (B : Build α) (r : Regs α) : Prop :=
  B.le B.zero r.warpedPhase = true ∧ B.le r.warpedPhase B.two = true ∧ B.le B.zero r.phase = true

/-- The two clocks in binary64: no NaN and no infinity (R14, R138 (g)), not below 0, `warped_phase` at most 8 and `phase`
at most `2^53`. The bounds are the model's, and loose: rounding can carry `warped_phase` past 2 (R126), and modulation
can make `phase` lag by any amount (R137), until its increments round away. -/
def ClockRange (r : Regs Bin64) : Prop :=
  B64.le 0 r.warpedPhase = true ∧ B64.le r.warpedPhase 0x4020000000000000 = true ∧
  B64.le 0 r.phase = true ∧ B64.le r.phase 0x4340000000000000 = true

/-- What every step of the machine keeps: the response port holds a response R68 allows, and a configured core has
agreeing constants, hard-sync registers in range and finite clocks. -/
def MachineInv (s : State) : Prop :=
  rspWellFormed s.rspFrame = true ∧
  (s.regs.configured = true → ConstantsAgree build s.regs ∧ SyncRange build s.regs ∧ ClockRange s.regs)

/-! ### A STEP with no sync: no sync is active and the trigger bit is 0, so the effective frequency is the operand (R113) -/

/-- The clamped frequency operand (R111). -/
def plainFreq (s : State) (freq : Bin64) : Bin64 := clamp B64.sys freq B64.sys.zero s.regs.freqMax

/-- The phase increment (R114). -/
def plainInc (s : State) (freq : Bin64) : Bin64 := B64.mul s.regs.phaseIncPerHz (plainFreq s freq)

/-- The geometry (R112, R117). -/
def plainGeometry (s : State) (freq clip skew : Bin64) : Geometry Bin64 :=
  geometry build s.regs (plainInc s freq)
    (B64.sub B64.sys.one (clamp B64.sys clip B64.sys.zero B64.sys.one))
    (B64.sub B64.sys.one (clamp B64.sys skew B64.sys.negOne B64.sys.one))

/-- A configured core with no sync active (R28, R31). -/
def Ready (s : State) : Prop := s.regs.configured = true ∧ B64.eq s.regs.hardsyncPhase B64.sys.zero = true

/-- The frequency operand selects the normal path (R115). -/
def Normal (s : State) (freq : Bin64) : Prop := B64.le s.regs.maxSweepFreq (plainFreq s freq) = false

/-- `warped_phase >= 2 and phase >= 2` of two clock values (R130). -/
def bothPastTwo (wp phase : Bin64) : Bool := B64.le B64.sys.two wp && B64.le B64.sys.two phase

/-- The linear clock after a wrap without a sync (R131): `phase - 2`, or `inc / 2` where that exceeds one increment. -/
def remainder (inc phase : Bin64) : Bin64 :=
  if B64.lt inc (B64.sub phase B64.sys.two) then B64.div inc B64.sys.two else B64.sub phase B64.sys.two

/-! ### Exact arithmetic -/

/-- The open parameters over an ordered field meet the constraints of R8: `PI` is positive, `COS` has the named
properties (R16), `MAX_SYNC_FREQ` is positive (R96), `SYNC_PHASE_INC` is in `(0, PI]` (R97). -/
def IdealParams (K : Type) [Field K] [LinearOrder K] (pi : K) (cos : K → K) (maxSync : K → K → K)
    (syncInc : K → K) : Prop :=
  0 < pi ∧ cos 0 = 1 ∧ (∀ x, -1 ≤ cos x ∧ cos x ≤ 1) ∧ (∀ ms sr, 0 < maxSync ms sr) ∧
  (∀ ms, 0 < syncInc ms ∧ syncInc ms ≤ pi)

/-- What every command keeps in exact arithmetic (R24, R137): here `hardsync_increment` is zero whenever no sync is
active, without a corner. -/
def IdealInv (B : Build α) (r : Regs α) : Prop :=
  r.configured = true ∧ ConstantsAgree B r ∧ SyncRange B r ∧ ShapeRange B r ∧
  (B.eq r.hardsyncPhase B.zero = true → r.hardsyncIncrement = B.zero)

/-! ### Runs of STEP -/

/-- The operands of one STEP. -/
structure StepOps (α : Type) where
  freq : α
  clip : α
  skew : α
  trigger : Bool

/-- The effective frequency of a STEP (R113): the clamped operand, ramped while a sync is active. -/
def effFreq (B : Build α) (o : StepOps α) (r : Regs α) : α :=
  rampFreq B (freqOperand B (signTest B o.freq r) o.freq)
    (arm B o.trigger (freqOperand B (signTest B o.freq r) o.freq) (signTest B o.freq r))

/-- The effective increment of a STEP: `phase_inc_per_hz` times the effective frequency (R114). -/
def effInc (B : Build α) (o : StepOps α) (r : Regs α) : α := B.mul r.phaseIncPerHz (effFreq B o r)

/-- The geometry of a STEP at its effective frequency (R112, R117). -/
def effGeometry (B : Build α) (o : StepOps α) (r : Regs α) : Geometry α :=
  geometry B r (effInc B o r) (clipInternal B o.clip) (skewInternal B (signTest B o.freq r) o.skew)

/-- The registers after one STEP. -/
def stepRegs (B : Build α) (r : Regs α) (o : StepOps α) : Regs α :=
  (oscStep B o.freq o.clip o.skew o.trigger r).regs

/-- The registers after a run of STEPs. -/
def runRegs (B : Build α) (r : Regs α) (os : List (StepOps α)) : Regs α := os.foldl (stepRegs B) r

/-- Every STEP of the run takes the normal path (R115). -/
def AllNormal (B : Build α) (r : Regs α) : List (StepOps α) → Prop
  | [] => True
  | o :: os => onFastPath B r (effFreq B o r) = false ∧ AllNormal B (stepRegs B r o) os

end Sys2Proof.Safety
end

