-- ==== Sys2Proof/Certificates/Slice0/Obligations.lean ====
section
/-! DEFINITION. The statements for the provers. Each docstring names the rules of the spec it formalises. -/

open Sys2Proof Sys2Proof.Machine Sys2Proof.Config Sys2Proof.Safety

/-! ## Encoding (spec 30_encoding.md) -/

/-- R65, R66, R70: decoding what the encoder writes gives the command back, every operand at every value of its lane. -/
def Obligations.DecodeEncodeGivesCommandBack : Prop :=
  ∀ i : Instr, i.wellFormed = true → decode (encode i) = .ok i

/-- R66, R73: each opcode reads exactly its lanes, whatever stands in the others and in an unread `t`. -/
def Obligations.DecodeReadsExactlyItsLanes : Prop :=
  ∀ (f3 f2 f1 f0 : Bin64) (t : Bool),
    decode (mkFrame f3 f2 f1 f0 0 t 0) = .ok .nop ∧
    decode (mkFrame f3 f2 f1 f0 0 t 1) = .ok (.config f0 f1 f3) ∧
    decode (mkFrame f3 f2 f1 f0 0 t 2) = .ok (.setphase f0 f1 f2 f3) ∧
    decode (mkFrame f3 f2 f1 f0 0 t 3) = .ok (.step f0 f1 f2 t) ∧
    decode (mkFrame f3 f2 f1 f0 0 t 4) = .ok .getms ∧
    decode (mkFrame f3 f2 f1 f0 0 t 5) = .ok .reserved5 ∧
    decode (mkFrame f3 f2 f1 f0 0 t 6) = .ok .reserved6 ∧
    decode (mkFrame f3 f2 f1 f0 0 t 7) = .ok .reserved7

/-- R70, R72: the decoder is total, and says which: a frame with reserved bits is rejected by name, every other frame is
the command of its opcode field. -/
def Obligations.DecoderIsTotal : Prop :=
  ∀ w : Frame,
    (rsvField w ≠ 0 → decode w = .error .reservedBits) ∧
    (rsvField w = 0 → ∃ i, decode w = .ok i ∧ opcode i = opField w)

/-- 30_encoding.md section 9 and 95_test_vectors.md T-ENC: some worked frames. -/
def Obligations.WorkedFramesDecode : Prop :=
  decode 0x0000000000000000_0000000000000000_4090000000000000_4010000000000000_01
      = .ok (.config 0x4010000000000000 0x4090000000000000 0) ∧
    decode 0x0000000000000000_0000000000000000_3FF0000000000000_4030000000000000_0B
      = .ok (.step 0x4030000000000000 0x3FF0000000000000 0 true) ∧
    decode 0x3FC0000000000000_0000000000000000_3FF0000000000000_4030000000000000_02
      = .ok (.setphase 0x4030000000000000 0x3FF0000000000000 0 0x3FC0000000000000) ∧
    decode 0x0C = .ok .getms ∧ decode 0x08 = .ok .nop ∧ decode 0x06 = .ok .reserved6 ∧
    decode 0x13 = .error .reservedBits

/-- R68, R191: the fields of a response frame read back, and the frame is one that R68 allows. -/
def Obligations.ResponseFieldsReadBack : Prop :=
  ∀ (st : Status) (so : Bool) (v : Bin64),
    rspStatus (rspFrameOf st so v) = st.code ∧ rspSyncOut (rspFrameOf st so v) = so ∧
    rspZeros (rspFrameOf st so v) = 0 ∧ rspValue (rspFrameOf st so v) = v ∧
    (st = .ok ∨ (so = false ∧ v = 0) → rspWellFormed (rspFrameOf st so v) = true)

/-- R78: the four pseudo-commands and their expansions. -/
def Obligations.PseudoCommandsExpand : Prop :=
  ∀ (a b c d : Bin64) (t : Bool) (n : Nat),
    expandProgram none [.new a b c] = some [.config a b c] ∧
    expandProgram none [.sync a b c] = some [.step a b c true] ∧
    expandProgram none [.stepn n a b c] = some (List.replicate n (.step a b c false)) ∧
    expandProgram none [.plain (.step a b c t), .reseed d] = some [.step a b c t, .setphase a b c d]

/-! ## The ports and the step (30_encoding.md R75, R76; 70_reset_and_hazards.md R215 to R218) -/

/-- R76: where the host presents a frame that decodes to a command, one step is the meaning of that command, in the state
whose `cmd_ready` shows 1 and whose remaining inputs are the later ones. -/
def Obligations.StepRunsTheAcceptedCommand : Prop :=
  ∀ (s : State) (i : HostInput) (rest : List HostInput) (c : Instr),
    s.host = i :: rest → i.rst = false → i.cmdValid = true → decode i.cmdFrame = .ok c →
    Machine.step s = exec c { s with cmdReady := true, host := rest }

/-- R72: a frame with reserved bits is answered exactly as a reserved opcode, whatever its opcode, configured or not. -/
def Obligations.ReservedBitsAnswerAsReservedOpcode : Prop :=
  ∀ (s : State) (w : Frame), rsvField w ≠ 0 →
    Machine.step (s.present w) = Machine.step (s.present (encode .reserved5)) ∧
    Machine.step (s.present w) = .next (responded { s with cmdReady := true } s.regs 3)

/-- R215, R216, with the model's reading that `rst` acts within its own instant (log 11): an instant with `rst` asserted
accepts nothing, produces no response and leaves the core unconfigured, with `OK`, 0, `+0` on the response port. -/
def Obligations.RstUnconfigures : Prop :=
  ∀ (s : State) (i : HostInput) (rest : List HostInput), s.host = i :: rest → i.rst = true →
    ∃ s', Machine.step s = .next s' ∧ s'.regs.configured = false ∧ s'.cmdReady = false ∧ s'.rspValid = false ∧
      s'.rspFrame = 0 ∧ s'.host = rest

/-- R56, R76, R203, with the model's reading of the pulse (log 10): an instant without a command changes no register and
holds the last response frame, with `rsp_valid` at 0. -/
def Obligations.IdleInstantHoldsTheResponse : Prop :=
  ∀ s : State,
    (s.host = [] → Machine.step s = .next { s with cmdReady := true, rspValid := false }) ∧
    (∀ (i : HostInput) (rest : List HostInput), s.host = i :: rest → i.rst = false → i.cmdValid = false →
      Machine.step s = .next { s with cmdReady := true, rspValid := false, host := rest })

/-- R28, R216: what the spec gives of the state after reset. -/
def Obligations.ResetStateAsTheSpecGivesIt : Prop :=
  State.reset.regs.configured = false ∧ rspStatus State.reset.rspFrame = Status.ok.code ∧
    rspSyncOut State.reset.rspFrame = false ∧ rspValue State.reset.rspFrame = 0 ∧ State.reset.rspValid = false ∧
    State.reset.cmdReady = true

/-- R190, R193: every step answers a next state; nothing stops the machine. -/
def Obligations.EveryStepAnswers : Prop := ∀ s : State, ∃ s', Machine.step s = .next s'

/-- R68, R76: every presented frame is answered at its own instant, with `rsp_valid` at 1, by a response that R68 allows,
and the host's later inputs stay; so a sequence of frames has as many responses as frames. That the answer comes within
one step is the model's choice (log 9). -/
def Obligations.OneResponseForEachFrame : Prop :=
  (∀ (s : State) (w : Frame), ∃ s', Machine.step (s.present w) = .next s' ∧ s'.rspValid = true ∧
    rspWellFormed s'.rspFrame = true ∧ s'.cmdReady = true ∧ s'.host = s.host) ∧
  ∀ (ws : List Frame) (s : State), (transcript s ws).length = ws.length

/-- R216: what the unspecified registers hold after reset cannot be observed: two unconfigured cores that agree on their
ports answer every sequence of frames alike, whatever their registers hold. -/
def Obligations.UnspecifiedRegistersAreUnobservable : Prop :=
  ∀ (ws : List Frame) (s : State) (r : Regs Bin64), s.regs.configured = false → r.configured = false →
    transcript (s.setRegs r) ws = transcript s ws

/-! ## Statuses (60_exceptions.md R190 to R195) -/

/-- R218: before CONFIG, SETPHASE, STEP and GETMS answer `ERR_UNCONFIGURED` (1), NOP `OK` (0), reserved frames
`ERR_RESERVED` (3), and nothing else changes. -/
def Obligations.UnconfiguredCoreAnswers : Prop :=
  ∀ s : State, s.regs.configured = false →
    (∀ f c k p, exec (.setphase f c k p) s = .next (responded s s.regs 1)) ∧
    (∀ f c k t, exec (.step f c k t) s = .next (responded s s.regs 1)) ∧
    exec .getms s = .next (responded s s.regs 1) ∧
    exec .nop s = .next (responded s s.regs 0) ∧
    exec .reserved5 s = .next (responded s s.regs 3) ∧
    exec .reserved6 s = .next (responded s s.regs 3) ∧
    exec .reserved7 s = .next (responded s s.regs 3) ∧
    (∀ w, rsvField w ≠ 0 → perform w s = .next (responded s s.regs 3))

/-- R193, R195: a command that answers a status other than `OK` writes no register, has `sync_out = 0` and value `+0`, and
does not touch what the host will drive. -/
def Obligations.FailedCommandWritesNothing : Prop :=
  ∀ (i : Instr) (s s' : State), exec i s = .next s' → rspStatus s'.rspFrame ≠ 0 →
    s'.regs = s.regs ∧ rspSyncOut s'.rspFrame = false ∧ rspValue s'.rspFrame = 0 ∧ s'.host = s.host ∧
      s'.cmdReady = s.cmdReady

/-- R29: `sync_out` is 0 in the response of every command but STEP. -/
def Obligations.OnlyStepSetsSyncOut : Prop :=
  ∀ (i : Instr) (s s' : State), (∀ f c k t, i ≠ .step f c k t) → exec i s = .next s' →
    rspSyncOut s'.rspFrame = false

/-! ## NOP, GETMS, reserved opcodes, CONFIG (40_config_commands.md) -/

/-- R102: NOP, in every state and for every content of its lanes, writes no register and answers the all-zero frame. -/
def Obligations.NopOnlyAnswersOk : Prop :=
  (∀ s : State, exec .nop s = .next (responded s s.regs 0)) ∧
    (∀ f3 f2 f1 f0 t, decode (mkFrame f3 f2 f1 f0 0 t 0) = .ok .nop)

/-- R71: a frame with a reserved opcode is accepted, writes nothing and is answered `ERR_RESERVED`, configured or not. -/
def Obligations.ReservedOpcodesAnswerErrReserved : Prop :=
  (∀ s : State, exec .reserved5 s = .next (responded s s.regs 3) ∧
    exec .reserved6 s = .next (responded s s.regs 3) ∧ exec .reserved7 s = .next (responded s s.regs 3)) ∧
  (∀ (s : State) (f3 f2 f1 f0 : Bin64) (t : Bool) (op : BitVec 3), 5 ≤ op.toNat →
    Machine.step (s.present (mkFrame f3 f2 f1 f0 0 t op)) = .next (responded { s with cmdReady := true } s.regs 3))

/-- R101: GETMS on a configured core answers the stored `min_sweep`, on an unconfigured one `ERR_UNCONFIGURED`; it writes
no register, whatever its lanes hold; and what a legal CONFIG has stored is the clamped value. -/
def Obligations.GetmsAnswersMinSweep : Prop :=
  (∀ s : State,
    (s.regs.configured = true →
      exec .getms s = .next (responded s s.regs (rspFrameOf .ok false s.regs.minSweep))) ∧
    (s.regs.configured = false → exec .getms s = .next (responded s s.regs 1))) ∧
  (∀ f3 f2 f1 f0 t, decode (mkFrame f3 f2 f1 f0 0 t 4) = .ok .getms) ∧
  (∀ (s s' : State) (ms sr ph : Bin64), sampleRateLegal build sr = true → exec (.config ms sr ph) s = .next s' →
    exec .getms s' = .next (responded s' s'.regs
      (rspFrameOf .ok false (clamp B64.sys ms 0x4010000000000000 0x4059000000000000))))

/-- R92: CONFIG is performed where its sample rate is legal; an illegal one is answered `ERR_BAD_CONFIG` (2) and changes
nothing. -/
def Obligations.IllegalSampleRateIsRefused : Prop :=
  ∀ (s : State) (ms sr ph : Bin64),
    ((B64.lt 0 sr = false ∨ B64.lt sr 0x7FF0000000000000 = false ∨
        B64.lt (B64.div 0x4000000000000000 sr) 0x7FF0000000000000 = false) →
      exec (.config ms sr ph) s = .next (responded s s.regs 2)) ∧
    ((B64.lt 0 sr = true ∧ B64.lt sr 0x7FF0000000000000 = true ∧
        B64.lt (B64.div 0x4000000000000000 sr) 0x7FF0000000000000 = true) →
      ∃ r : Regs Bin64, exec (.config ms sr ph) s = .next (responded s r 0) ∧ r.configured = true)

/-- R90 to R98: CONFIG with a legal sample rate completes in every state, with the constants as functions of the clamped
`min_sweep` and the sample rate, no sync in flight, and `configured` set. The clause on `neg` is the model's choice
(log 12): this build has no such bit, and the field of the model is left as it is. -/
def Obligations.LegalConfigConstructs : Prop :=
  ∀ (s : State) (ms sr ph : Bin64),
    B64.lt 0 sr = true → B64.lt sr 0x7FF0000000000000 = true →
    B64.lt (B64.div 0x4000000000000000 sr) 0x7FF0000000000000 = true →
    ∃ r : Regs Bin64, exec (.config ms sr ph) s = .next (responded s r 0) ∧
      r.configured = true ∧ r.hardsyncPhase = 0 ∧ r.hardsyncIncrement = 0 ∧ r.neg = s.regs.neg ∧
      r.minSweep = clamp B64.sys ms 0x4010000000000000 0x4059000000000000 ∧ r.sampleRate = sr ∧
      r.maxWarpInc = B64.div 0x3FF0000000000000 r.minSweep ∧ r.phaseIncPerHz = B64.div 0x4000000000000000 sr ∧
      r.maxSweepFreq = B64.div sr (B64.mul 0x4000000000000000 r.minSweep) ∧
      r.freqMax = B64.div sr 0x4000000000000000 ∧ r.maxSyncFreq = maxSyncFreq r.minSweep sr ∧
      r.syncPhaseIncrement = syncPhaseInc r.minSweep

/-- R99: the seeding that CONFIG does with the neutral parameters puts both clocks at the target, bit for bit:
`seed(ph, 0, 0, 0)` reduces to `p`. -/
def Obligations.ConfigSeedsBothClocksAtTarget : Prop :=
  ∀ (s s' : State) (ms sr ph : Bin64), sampleRateLegal build sr = true → exec (.config ms sr ph) s = .next s' →
    s'.regs.warpedPhase = (if B64.lt ph 0 then 0x3FF4000000000000 else clamp B64.sys ph 0 0x4000000000000000) ∧
    s'.regs.phase = (if B64.lt ph 0 then 0x3FF4000000000000 else clamp B64.sys ph 0 0x4000000000000000)

/-- R103: only CONFIG writes the configuration; a legal CONFIG leaves nothing of the old oscillator (of `neg` it leaves
the bit that this hardware does not have, log 12); an illegal one changes no register. -/
def Obligations.ReconfigurationIsConstruction : Prop :=
  (∀ (i : Instr) (s s' : State), (∀ a b c, i ≠ .config a b c) → exec i s = .next s' → SameConfig s.regs s'.regs) ∧
    (∀ (s t s' t' : State) (ms sr ph : Bin64), sampleRateLegal build sr = true →
      exec (.config ms sr ph) s = .next s' → exec (.config ms sr ph) t = .next t' → SameButNeg s'.regs t'.regs) ∧
    (∀ (s s' : State) (ms sr ph : Bin64), sampleRateLegal build sr = false →
      exec (.config ms sr ph) s = .next s' → s'.regs = s.regs)

/-! ## SETPHASE (43_phase_seeding.md) -/

/-- R166: the target. Negative values are the sentinel 1.25; values in `[0, 2]` stand (`-0` too); a NaN and every value of
2 or more give 2. -/
def Obligations.SeedTargetIsSentinelOrClamp : Prop :=
  ∀ x : Bin64,
    (B64.lt x 0 = true → seedTarget build x = 0x3FF4000000000000) ∧
    (B64.le 0 x = true → B64.le x 0x4000000000000000 = true → seedTarget build x = x) ∧
    (B64.isNaN x = true ∨ B64.le 0x4000000000000000 x = true → seedTarget build x = 0x4000000000000000)

/-- R167: on the fast path SETPHASE puts both clocks at the target, and changes no other register. -/
def Obligations.SetphaseOnFastPath : Prop :=
  ∀ (s : State) (freq clip skew ph : Bin64), s.regs.configured = true →
    B64.le s.regs.maxSweepFreq (plainFreq s freq) = true →
    exec (.setphase freq clip skew ph) s = .next (responded s
      { s.regs with warpedPhase := seedTarget build ph, phase := seedTarget build ph } 0)

/-- R111, R112, R114, R117, R168, R169: below `max_sweep_freq` SETPHASE inverts the segment model, by the first line that
matches, and changes no other register. The geometry is spelled out, each of its formulas with the one rounding per
operation that it writes; it is the geometry the statements about STEP use. -/
def Obligations.SetphaseInvertsTheSegments : Prop :=
  ∀ (s : State) (freq clip skew ph p f inc ci si msf mid dlen ulen : Bin64),
    s.regs.configured = true → Normal s freq → p = seedTarget build ph →
    f = clamp B64.sys freq 0 s.regs.freqMax → inc = B64.mul s.regs.phaseIncPerHz f →
    ci = B64.sub 0x3FF0000000000000 (clamp B64.sys clip 0 0x3FF0000000000000) →
    si = B64.sub 0x3FF0000000000000 (clamp B64.sys skew 0xBFF0000000000000 0x3FF0000000000000) →
    msf = B64.mul inc s.regs.minSweep →
    mid = clamp B64.sys si msf (B64.sub 0x4000000000000000 msf) →
    dlen = (if B64.lt msf (B64.mul ci mid) then B64.mul ci mid else msf) →
    ulen = (if B64.lt msf (B64.mul ci (B64.sub 0x4000000000000000 mid))
      then B64.mul ci (B64.sub 0x4000000000000000 mid) else msf) →
    plainGeometry s freq clip skew = { msf := msf, mid := mid, dlen := dlen, ulen := ulen } ∧
    (B64.lt p 0x3FF0000000000000 = true →
      exec (.setphase freq clip skew ph) s = .next (responded s
        { s.regs with warpedPhase := p, phase := B64.mul p dlen } 0)) ∧
    (B64.eq p 0x3FF0000000000000 = true →
      exec (.setphase freq clip skew ph) s = .next (responded s
        { s.regs with warpedPhase := 0x3FF0000000000000, phase := dlen } 0)) ∧
    (B64.lt 0x3FF0000000000000 p = true → B64.lt p 0x4000000000000000 = true →
      exec (.setphase freq clip skew ph) s = .next (responded s
        { s.regs with
          warpedPhase := p
          phase := B64.add mid (B64.mul (B64.sub p 0x3FF0000000000000) ulen) } 0)) ∧
    (B64.eq p 0x4000000000000000 = true →
      exec (.setphase freq clip skew ph) s = .next (responded s
        { s.regs with warpedPhase := 0x4000000000000000, phase := B64.add mid ulen } 0))

/-- R170: SETPHASE, in every state, writes `phase` and `warped_phase` and no other register. -/
def Obligations.SetphaseWritesOnlyTheClocks : Prop :=
  ∀ (s s' : State) (freq clip skew ph : Bin64), exec (.setphase freq clip skew ph) s = .next s' →
    SameButClocks s.regs s'.regs ∧ s'.host = s.host ∧ s'.cmdReady = s.cmdReady

/-- R172 (a): SETPHASE twice is SETPHASE once. -/
def Obligations.SetphaseIsIdempotent : Prop :=
  ∀ (s s1 s2 : State) (freq clip skew ph : Bin64), exec (.setphase freq clip skew ph) s = .next s1 →
    exec (.setphase freq clip skew ph) s1 = .next s2 → s2 = s1

/-- R172 (b): a STEP right after a SETPHASE with the same operands, no sync active and `t = 0`, emits the target's sample:
`COS(PI * p)` inside a sweep and on the fast path, `-1` at the start of a flat-low that is not empty, `+1` at the start of
flat-high; and `COS(PI * 1)` where flat-low is empty, stated for constants that agree with the configuration. -/
def Obligations.SeedThenStepEmitsTheTarget : Prop :=
  ∀ (s s1 s2 : State) (freq clip skew ph p : Bin64) (g : Geometry Bin64), Ready s →
    p = seedTarget build ph → g = plainGeometry s freq clip skew →
    exec (.setphase freq clip skew ph) s = .next s1 → exec (.step freq clip skew false) s1 = .next s2 →
    (B64.le s.regs.maxSweepFreq (plainFreq s freq) = true → rspValue s2.rspFrame = cosPi build p) ∧
    (Normal s freq →
      (B64.lt p 0x3FF0000000000000 = true → rspValue s2.rspFrame = cosPi build p) ∧
      (B64.eq p 0x3FF0000000000000 = true → B64.lt g.dlen g.mid = true →
        rspValue s2.rspFrame = 0xBFF0000000000000) ∧
      (B64.eq p 0x3FF0000000000000 = true → B64.eq g.dlen g.mid = true → ConstantsAgree build s.regs →
        rspValue s2.rspFrame = cosPi build 0x3FF0000000000000) ∧
      (B64.lt 0x3FF0000000000000 p = true → B64.lt p 0x4000000000000000 = true →
        rspValue s2.rspFrame = cosPi build p) ∧
      (B64.eq p 0x4000000000000000 = true → rspValue s2.rspFrame = 0x3FF0000000000000))

/-! ## STEP (41_step_phase_shaping.md) -/

/-- R26, R110, R134, R136 (a): STEP on a configured core completes for all operands, writes no configuration register
(and, with no sync and no trigger, no hard-sync register), and emits `-1`, `+1`, `COS(PI * warped_phase)`, or, where
`warped_phase` is 1, `COS(PI * w0)` of the entry `w0` of the sweep-up (R123). From a state that keeps `MachineInv` the
sample is in `[-1, 1]`. -/
def Obligations.StepEmitsOneBoundedSample : Prop :=
  ∀ (s : State) (freq clip skew inc : Bin64) (t : Bool) (g : Geometry Bin64), s.regs.configured = true →
    inc = effInc build ⟨freq, clip, skew, t⟩ s.regs → g = effGeometry build ⟨freq, clip, skew, t⟩ s.regs →
    ∃ (r : Regs Bin64) (so : Bool) (v : Bin64),
      exec (.step freq clip skew t) s = .next (responded s r (rspFrameOf .ok so v)) ∧ SameConfig s.regs r ∧
      (Ready s → t = false →
        r.hardsyncPhase = s.regs.hardsyncPhase ∧ r.hardsyncIncrement = s.regs.hardsyncIncrement) ∧
      (v = 0xBFF0000000000000 ∨ v = 0x3FF0000000000000 ∨ v = cos (B64.mul 0x400921FB54442D18 s.regs.warpedPhase) ∨
        (B64.eq s.regs.warpedPhase 0x3FF0000000000000 = true ∧
          v = cos (B64.mul 0x400921FB54442D18 (B64.add 0x3FF0000000000000
            (wdiv B64.sys (nmin B64.sys (B64.sub s.regs.phase g.mid) inc) g.ulen))))) ∧
      (MachineInv s → B64.le 0xBFF0000000000000 v = true ∧ B64.le v 0x3FF0000000000000 = true)

/-- R115, R116, R129 to R132: the fast path, without and with the wrap. -/
def Obligations.StepOnFastPath : Prop :=
  ∀ (s : State) (freq clip skew inc wp rem : Bin64), Ready s →
    B64.le s.regs.maxSweepFreq (plainFreq s freq) = true → inc = plainInc s freq →
    wp = B64.add s.regs.warpedPhase inc → rem = remainder inc wp →
    (bothPastTwo wp wp = false →
      exec (.step freq clip skew false) s = .next (responded s { s.regs with phase := wp, warpedPhase := wp }
        (rspFrameOf .ok false (cos (B64.mul 0x400921FB54442D18 s.regs.warpedPhase))))) ∧
    (bothPastTwo wp wp = true →
      exec (.step freq clip skew false) s = .next (responded s { s.regs with phase := rem, warpedPhase := rem }
        (rspFrameOf .ok true (cos (B64.mul 0x400921FB54442D18 s.regs.warpedPhase)))))

/-- R116, R131 to R133, R136 (c): a STEP on the fast path, with or without a sync, wrapping or not, leaves the two clocks
equal bit for bit, so that the next fast-path STEP emits `COS(PI * phase)`. -/
def Obligations.FastPathLeavesClocksEqual : Prop :=
  ∀ (s s' : State) (freq clip skew : Bin64) (t : Bool), s.regs.configured = true →
    onFastPath build s.regs (effFreq build ⟨freq, clip, skew, t⟩ s.regs) = true →
    exec (.step freq clip skew t) s = .next s' → s'.regs.phase = s'.regs.warpedPhase

/-- R119, R129, R130: a STEP in the sweep-down whose advance stays within the sweep. -/
def Obligations.StepInsideSweepDown : Prop :=
  ∀ (s : State) (freq clip skew inc w : Bin64) (g : Geometry Bin64), Ready s → Normal s freq →
    inc = plainInc s freq → g = plainGeometry s freq clip skew →
    B64.lt s.regs.warpedPhase 0x3FF0000000000000 = true →
    w = B64.add s.regs.warpedPhase (nmin B64.sys (wdiv B64.sys inc g.dlen) s.regs.maxWarpInc) →
    B64.lt 0x3FF0000000000000 w = false →
    exec (.step freq clip skew false) s = .next (responded s
      { s.regs with phase := B64.add s.regs.phase inc, warpedPhase := w }
      (rspFrameOf .ok false (cos (B64.mul 0x400921FB54442D18 s.regs.warpedPhase))))

/-- R120, R121, R129: a STEP in the sweep-down whose advance passes 1, where the wrap is not due: `phase` is reconciled,
and `warped_phase` is clamped to 1 or carried into the sweep-up. -/
def Obligations.StepPastSweepDown : Prop :=
  ∀ (s : State) (freq clip skew inc w flat excess phase wp : Bin64) (g : Geometry Bin64), Ready s → Normal s freq →
    inc = plainInc s freq → g = plainGeometry s freq clip skew →
    B64.lt s.regs.warpedPhase 0x3FF0000000000000 = true →
    w = B64.add s.regs.warpedPhase (nmin B64.sys (wdiv B64.sys inc g.dlen) s.regs.maxWarpInc) →
    B64.lt 0x3FF0000000000000 w = true →
    flat = B64.sub g.mid g.dlen → excess = B64.mul (B64.sub w 0x3FF0000000000000) g.dlen →
    phase = B64.add (B64.sub (B64.add g.dlen excess) inc) inc →
    wp = (if B64.le excess flat then 0x3FF0000000000000
      else B64.add 0x3FF0000000000000 (wdiv B64.sys (B64.sub excess flat) g.ulen)) →
    bothPastTwo wp phase = false →
    exec (.step freq clip skew false) s = .next (responded s { s.regs with phase := phase, warpedPhase := wp }
      (rspFrameOf .ok false (cos (B64.mul 0x400921FB54442D18 s.regs.warpedPhase))))

/-- R118, R122, R129: a STEP in flat-low emits `-1` exactly, pins `warped_phase` and advances `phase`. -/
def Obligations.StepInFlatLow : Prop :=
  ∀ (s : State) (freq clip skew : Bin64), Ready s → Normal s freq →
    B64.eq s.regs.warpedPhase 0x3FF0000000000000 = true →
    B64.lt s.regs.phase (plainGeometry s freq clip skew).mid = true →
    exec (.step freq clip skew false) s = .next (responded s
      { s.regs with phase := B64.add s.regs.phase (plainInc s freq) } (rspFrameOf .ok false 0xBFF0000000000000))

/-- R118, R123, R124, R129 to R132: a STEP in the sweep-up whose advance stays within the sweep, with the carry on entry
from flat-low, without and with the wrap. -/
def Obligations.StepInsideSweepUp : Prop :=
  ∀ (s : State) (freq clip skew inc w0 w phase rem : Bin64) (g : Geometry Bin64), Ready s → Normal s freq →
    inc = plainInc s freq → g = plainGeometry s freq clip skew → phase = B64.add s.regs.phase inc →
    rem = remainder inc phase →
    B64.le 0x3FF0000000000000 s.regs.warpedPhase = true → B64.lt s.regs.warpedPhase 0x4000000000000000 = true →
    (B64.eq s.regs.warpedPhase 0x3FF0000000000000 = true → B64.lt s.regs.phase g.mid = false) →
    w0 = (if B64.eq s.regs.warpedPhase 0x3FF0000000000000 then
        B64.add 0x3FF0000000000000 (wdiv B64.sys (nmin B64.sys (B64.sub s.regs.phase g.mid) inc) g.ulen)
      else s.regs.warpedPhase) →
    w = B64.add w0 (nmin B64.sys (wdiv B64.sys inc g.ulen) s.regs.maxWarpInc) →
    B64.lt 0x4000000000000000 w = false →
    (bothPastTwo w phase = false →
      exec (.step freq clip skew false) s = .next (responded s { s.regs with phase := phase, warpedPhase := w }
        (rspFrameOf .ok false (cos (B64.mul 0x400921FB54442D18 w0))))) ∧
    (bothPastTwo w phase = true →
      exec (.step freq clip skew false) s = .next (responded s
        { s.regs with phase := rem, warpedPhase := wdiv B64.sys rem g.dlen }
        (rspFrameOf .ok true (cos (B64.mul 0x400921FB54442D18 w0)))))

/-- R118, R123, R125, R126, R129 to R132: a STEP in the sweep-up whose advance passes 2, with the carry on entry from
flat-low, without and with the wrap. -/
def Obligations.StepPastSweepUp : Prop :=
  ∀ (s : State) (freq clip skew inc w0 w flat excess phase wp rem : Bin64) (g : Geometry Bin64), Ready s → Normal s freq →
    inc = plainInc s freq → g = plainGeometry s freq clip skew →
    B64.le 0x3FF0000000000000 s.regs.warpedPhase = true → B64.lt s.regs.warpedPhase 0x4000000000000000 = true →
    (B64.eq s.regs.warpedPhase 0x3FF0000000000000 = true → B64.lt s.regs.phase g.mid = false) →
    w0 = (if B64.eq s.regs.warpedPhase 0x3FF0000000000000 then
        B64.add 0x3FF0000000000000 (wdiv B64.sys (nmin B64.sys (B64.sub s.regs.phase g.mid) inc) g.ulen)
      else s.regs.warpedPhase) →
    w = B64.add w0 (nmin B64.sys (wdiv B64.sys inc g.ulen) s.regs.maxWarpInc) →
    B64.lt 0x4000000000000000 w = true →
    flat = B64.sub 0x4000000000000000 (B64.add g.mid g.ulen) →
    excess = B64.mul (B64.sub w 0x4000000000000000) g.ulen →
    phase = B64.add (B64.sub (B64.add (B64.add g.mid g.ulen) excess) inc) inc →
    wp = (if B64.le excess flat then 0x4000000000000000
      else B64.add 0x4000000000000000 (wdiv B64.sys (B64.sub excess flat) g.dlen)) →
    rem = remainder inc phase →
    (bothPastTwo wp phase = false →
      exec (.step freq clip skew false) s = .next (responded s { s.regs with phase := phase, warpedPhase := wp }
        (rspFrameOf .ok false (cos (B64.mul 0x400921FB54442D18 w0))))) ∧
    (bothPastTwo wp phase = true →
      exec (.step freq clip skew false) s = .next (responded s
        { s.regs with phase := rem, warpedPhase := wdiv B64.sys rem g.dlen }
        (rspFrameOf .ok true (cos (B64.mul 0x400921FB54442D18 w0)))))

/-- R118, R128 to R132: a STEP in flat-high emits `+1` exactly; the cycle ends in the first STEP at whose end
`phase >= 2`, with the remainder carried into the new sweep-down, or `inc / 2` where it exceeds one increment. -/
def Obligations.StepInFlatHigh : Prop :=
  ∀ (s : State) (freq clip skew inc phase rem : Bin64), Ready s → Normal s freq → inc = plainInc s freq →
    B64.le 0x4000000000000000 s.regs.warpedPhase = true → phase = B64.add s.regs.phase inc →
    rem = remainder inc phase →
    (B64.le 0x4000000000000000 phase = false →
      exec (.step freq clip skew false) s = .next (responded s { s.regs with phase := phase }
        (rspFrameOf .ok false 0x3FF0000000000000))) ∧
    (B64.le 0x4000000000000000 phase = true →
      exec (.step freq clip skew false) s = .next (responded s
        { s.regs with phase := rem, warpedPhase := wdiv B64.sys rem (plainGeometry s freq clip skew).dlen }
        (rspFrameOf .ok true 0x3FF0000000000000)))

/-- R130: after a STEP that did not signal `sync_out` the two clocks are not both at or past 2; no wrap is missed. -/
def Obligations.NoWrapIsMissed : Prop :=
  ∀ (s s' : State) (freq clip skew : Bin64) (t : Bool), s.regs.configured = true →
    exec (.step freq clip skew t) s = .next s' → rspSyncOut s'.rspFrame = false →
    bothPastTwo s'.regs.warpedPhase s'.regs.phase = false

/-- R111, R180: with `TZ = 0` a negative frequency, `-Infinity` included, is a frequency of 0. -/
def Obligations.NegativeFrequencyIsZero : Prop :=
  ∀ (s : State) (freq clip skew : Bin64) (t : Bool), B64.lt freq 0 = true → B64.le 0 s.regs.freqMax = true →
    exec (.step freq clip skew t) s = exec (.step 0 clip skew t) s

/-! ## Hard sync (42_hardsync.md) -/

/-- R151: the four lines of arming, and nothing without a trigger; they come first: a STEP with `t = 1` is the STEP with
`t = 0` from the armed registers. -/
def Obligations.ArmingFollowsItsFourLines : Prop :=
  (∀ (s : State) (freq clip skew : Bin64), s.regs.configured = true →
    exec (.step freq clip skew true) s =
      exec (.step freq clip skew false) (s.setRegs (arm build true (plainFreq s freq) s.regs))) ∧
  ∀ (r : Regs Bin64) (f : Bin64),
    arm build false f r = r ∧
    (B64.eq r.hardsyncPhase 0 = false → arm build true f r = r) ∧
    (B64.eq r.hardsyncPhase 0 = true →
      (B64.eq r.warpedPhase 0x4000000000000000 = true →
        arm build true f r = { r with phase := 0x4000000000000000 }) ∧
      (B64.eq r.warpedPhase 0x4000000000000000 = false →
        (B64.lt r.maxSyncFreq f = true → arm build true f r = r) ∧
        (B64.lt r.maxSyncFreq f = false → arm build true f r =
          { r with
            hardsyncIncrement := r.syncPhaseIncrement
            hardsyncPhase := B64.div r.syncPhaseIncrement 0x4000000000000000 })))

/-- R152, R153: in every STEP in which a sync is active after arming (`r`), the rest of the STEP runs at the frequency
`f + k * (max_sync_freq - f)`, `k = 0.5 * (1 - COS(hardsync_phase))`, and `hardsync_phase` advances, or is held at `PI`
with the increment zeroed. -/
def Obligations.SyncRampsTheFrequency : Prop :=
  ∀ (s : State) (freq clip skew f k : Bin64) (t : Bool) (r r' : Regs Bin64) (o : Stepped Bin64),
    s.regs.configured = true → f = plainFreq s freq → r = arm build t f s.regs →
    B64.eq r.hardsyncPhase 0 = false →
    k = B64.mul 0x3FE0000000000000 (B64.sub 0x3FF0000000000000 (cos r.hardsyncPhase)) →
    r' = (if B64.le 0x400921FB54442D18 (B64.add r.hardsyncPhase r.hardsyncIncrement) then
        { r with hardsyncPhase := 0x400921FB54442D18, hardsyncIncrement := 0 }
      else { r with hardsyncPhase := B64.add r.hardsyncPhase r.hardsyncIncrement }) →
    o = advance build (B64.add f (B64.mul k (B64.sub s.regs.maxSyncFreq f)))
      (B64.sub 0x3FF0000000000000 (clamp B64.sys clip 0 0x3FF0000000000000))
      (B64.sub 0x3FF0000000000000 (clamp B64.sys skew 0xBFF0000000000000 0x3FF0000000000000)) r' →
    exec (.step freq clip skew t) s = .next (responded s o.regs (rspFrameOf .ok o.syncOut o.sample))

/-- R156: while a sync is active the trigger bit makes no difference. -/
def Obligations.TriggerIgnoredWhileSyncActive : Prop :=
  ∀ (s : State) (freq clip skew : Bin64), B64.eq s.regs.hardsyncPhase 0 = false →
    exec (.step freq clip skew true) s = exec (.step freq clip skew false) s

/-- R153, R154: in a STEP with a sync active the sync either ends, at a wrap, with both clocks and both hard-sync registers
at 0 and `sync_out = 1`, or goes on: `hardsync_phase` advances by the increment, or is held at `PI` with the increment
zeroed. Stated for a core whose registers are in the ranges of `MachineInv`. -/
def Obligations.SyncEndsOnlyAtTheWrap : Prop :=
  ∀ (s s' : State) (freq clip skew : Bin64) (t : Bool), MachineInv s → s.regs.configured = true →
    B64.eq s.regs.hardsyncPhase 0 = false → exec (.step freq clip skew t) s = .next s' →
    (rspSyncOut s'.rspFrame = true ∧ s'.regs.phase = 0 ∧ s'.regs.warpedPhase = 0 ∧ s'.regs.hardsyncPhase = 0 ∧
      s'.regs.hardsyncIncrement = 0) ∨
    (rspSyncOut s'.rspFrame = false ∧
      (if B64.le 0x400921FB54442D18 (B64.add s.regs.hardsyncPhase s.regs.hardsyncIncrement) then
        s'.regs.hardsyncPhase = 0x400921FB54442D18 ∧ s'.regs.hardsyncIncrement = 0
      else
        s'.regs.hardsyncPhase = B64.add s.regs.hardsyncPhase s.regs.hardsyncIncrement ∧
        s'.regs.hardsyncIncrement = s.regs.hardsyncIncrement))

/-! ## Invariants of the hardware -/

/-- The invariant holds at reset. -/
def Obligations.MachineInvAtReset : Prop := MachineInv State.reset

/-- R14, R23, R24, R34, R35, R68, R138 (g): every step keeps the invariant, from every state that has it: the response port
holds a response R68 allows; the derived constants of a configured core are the functions of its configuration; the
hard-sync registers are in range, the increment zero when no sync is active but for the corner of log 5; and neither clock
is a NaN or an infinity. The bounds 8 and `2^53` of the clocks are the model's own, wide enough for every rounding. -/
def Obligations.EveryStepKeepsMachineInv : Prop :=
  ∀ s s' : State, MachineInv s → Machine.step s = .next s' → MachineInv s'

/-! ## Numbers (00_scope.md) -/

/-- R13: `clamp`, and what it gives between two bounds that are no NaN and no infinity. -/
def Obligations.ClampGivesNearestBound : Prop :=
  (∀ x lo hi : Bin64, clamp B64.sys x lo hi =
    if B64.le lo x && B64.le x hi then x else if B64.lt x lo then lo else hi) ∧
  ∀ x lo hi : Bin64, B64.isFinite lo = true → B64.isFinite hi = true → B64.le lo hi = true →
    (B64.le lo x = true → B64.le x hi = true → clamp B64.sys x lo hi = x) ∧
    (B64.lt x lo = true → clamp B64.sys x lo hi = lo) ∧
    (B64.lt hi x = true → clamp B64.sys x lo hi = hi) ∧
    (B64.isNaN x = true → clamp B64.sys x lo hi = hi) ∧
    clamp B64.sys 0x7FF0000000000000 lo hi = hi ∧ clamp B64.sys 0xFFF0000000000000 lo hi = lo ∧
    (lo = 0 → clamp B64.sys 0x8000000000000000 lo hi = 0x8000000000000000)

/-- R12: every operation on finite operands is the exact result, rounded once, to nearest, ties to even. First, `add`,
`sub`, `mul`, and `div` by a divisor that is not zero, answer the rounding `roundMag` of the magnitude of the exact result,
with its sign. Then, no finite value is nearer to `n / d` units than the one `roundMag` answers, and of two nearest ones it
answers the one with an even last bit. The sign of a zero result and the infinity past the midpoint above the largest
finite value are what the model takes from IEEE 754 (log 1, PRESUMED). -/
def Obligations.RoundingIsToNearestEven : Prop :=
  (∀ x y : Bin64, B64.isFinite x = true → B64.isFinite y = true →
    B64.add x y = (if B64.units x + B64.units y = 0 then B64.pack (B64.signBit x && B64.signBit y) 0
      else B64.pack (decide (B64.units x + B64.units y < 0)) (B64.roundMag (B64.units x + B64.units y).natAbs 1)) ∧
    B64.sub x y = (if B64.units x - B64.units y = 0 then B64.pack (B64.signBit x && !B64.signBit y) 0
      else B64.pack (decide (B64.units x - B64.units y < 0)) (B64.roundMag (B64.units x - B64.units y).natAbs 1)) ∧
    B64.mul x y = B64.pack (B64.signBit x != B64.signBit y)
      (B64.roundMag (B64.units x * B64.units y).natAbs (2 ^ 1074)) ∧
    (B64.units y ≠ 0 → B64.div x y = B64.pack (B64.signBit x != B64.signBit y)
      (B64.roundMag ((B64.units x).natAbs * 2 ^ 1074) (B64.units y).natAbs))) ∧
  ∀ n d : Nat, 0 < d →
    (B64.roundMag n d < B64.infBits → ∀ z : Bin64, B64.signBit z = false → B64.isFinite z = true →
      let m : Int := B64.magnitude (BitVec.ofNat 64 (B64.roundMag n d))
      |m * d - n| ≤ |(B64.magnitude z : Int) * d - n| ∧
      (|m * d - n| = |(B64.magnitude z : Int) * d - n| →
        z = BitVec.ofNat 64 (B64.roundMag n d) ∨ B64.roundMag n d % 2 = 0)) ∧
    (B64.roundMag n d = B64.infBits ↔ (2 ^ 54 - 1) * 2 ^ 2044 * d ≤ n)

/-! ## Exact arithmetic: the properties the document claims (R12, R25, R136, R137) -/

/-- R137: in exact arithmetic CONFIG establishes the invariant and SETPHASE keeps it. -/
def Obligations.SeedingKeepsClocksInRange : Prop :=
  ∀ (K : Type) [Field K] [LinearOrder K] [IsStrictOrderedRing K] [FloorRing K] (pi : K) (cs : K → K)
    (mx : K → K → K) (sy : K → K), IdealParams K pi cs mx sy →
    (∀ (r : Regs K) (ms sr ph : K), sampleRateLegal (idealBuild K pi cs mx sy) sr = true →
      IdealInv (idealBuild K pi cs mx sy) (configure (idealBuild K pi cs mx sy) ms sr ph r)) ∧
    (∀ (r : Regs K) (ph f c k : K), IdealInv (idealBuild K pi cs mx sy) r →
      IdealInv (idealBuild K pi cs mx sy) (seed (idealBuild K pi cs mx sy) ph f c k r))

/-- R25, R137: in exact arithmetic every STEP, with any operands and trigger, keeps `0 <= warped_phase <= 2` and
`0 <= phase`, with the constants and the hard-sync registers as they should be. Nothing saturates: it is a property of the
rules. -/
def Obligations.StepKeepsClocksInRange : Prop :=
  ∀ (K : Type) [Field K] [LinearOrder K] [IsStrictOrderedRing K] [FloorRing K] (pi : K) (cs : K → K)
    (mx : K → K → K) (sy : K → K), IdealParams K pi cs mx sy →
    ∀ (r : Regs K) (f c k : K) (t : Bool), IdealInv (idealBuild K pi cs mx sy) r →
      IdealInv (idealBuild K pi cs mx sy) (oscStep (idealBuild K pi cs mx sy) f c k t r).regs

/-- R117, the facts that follow: on the normal path the segments are in order, no flat has negative length, and the cap of
R119 never binds. -/
def Obligations.SegmentsAreInOrder : Prop :=
  ∀ (K : Type) [Field K] [LinearOrder K] [IsStrictOrderedRing K] [FloorRing K] (pi : K) (cs : K → K)
    (mx : K → K → K) (sy : K → K) (r : Regs K) (f clip skew inc : K) (g : Geometry K),
    ConstantsAgree (idealBuild K pi cs mx sy) r → 0 ≤ f → f < r.maxSweepFreq → inc = r.phaseIncPerHz * f →
    g = geometry (idealBuild K pi cs mx sy) r inc (clipInternal (idealBuild K pi cs mx sy) clip)
      (skewInternal (idealBuild K pi cs mx sy) r skew) →
    g.msf ≤ g.mid ∧ g.mid ≤ 2 - g.msf ∧ g.msf ≤ g.dlen ∧ g.dlen ≤ g.mid ∧ g.msf ≤ g.ulen ∧ g.ulen ≤ 2 - g.mid ∧
      (0 < inc → 0 < g.dlen ∧ 0 < g.ulen ∧ inc / g.dlen ≤ r.maxWarpInc ∧ inc / g.ulen ≤ r.maxWarpInc)

/-- R25, R136 (b): no sweep is shorter than `min_sweep` samples, neither of the two, whatever the operands do from STEP to
STEP, as long as every STEP takes the normal path. A sweep-down from `w0` in `[0, 1)` (from 0, or from the remainder of a
wrap) and a sweep-up from `w0` in `(1, 2)` (from a carry) advance the shape clock by at most `n / min_sweep` in `n` STEPs
that do not outlast the sweep. At `warped_phase = 1` the same holds where the first STEP finds `phase` not past `mid`; in
general the fraction carried on entry from flat-low (R123) adds less than one STEP. -/
def Obligations.NoSweepIsShorterThanMinSweep : Prop :=
  ∀ (K : Type) [Field K] [LinearOrder K] [IsStrictOrderedRing K] [FloorRing K] (pi : K) (cs : K → K)
    (mx : K → K → K) (sy : K → K), IdealParams K pi cs mx sy →
    ∀ (os : List (StepOps K)) (r : Regs K), IdealInv (idealBuild K pi cs mx sy) r →
      AllNormal (idealBuild K pi cs mx sy) r os →
      (r.warpedPhase < 1 → (os.length : K) ≤ (1 - r.warpedPhase) * r.minSweep →
        (runRegs (idealBuild K pi cs mx sy) r os).warpedPhase ≤ r.warpedPhase + os.length / r.minSweep) ∧
      (1 < r.warpedPhase → (os.length : K) ≤ (2 - r.warpedPhase) * r.minSweep →
        (runRegs (idealBuild K pi cs mx sy) r os).warpedPhase ≤ r.warpedPhase + os.length / r.minSweep) ∧
      (r.warpedPhase = 1 →
        (∀ o ∈ os.head?, r.phase ≤ (effGeometry (idealBuild K pi cs mx sy) o r).mid) →
        (os.length : K) ≤ r.minSweep →
        (runRegs (idealBuild K pi cs mx sy) r os).warpedPhase ≤ 1 + os.length / r.minSweep) ∧
      (r.warpedPhase = 1 → (os.length : K) + 1 ≤ r.minSweep →
        (runRegs (idealBuild K pi cs mx sy) r os).warpedPhase ≤ 1 + (os.length + 1) / r.minSweep)

/-- R138 (a): in exact arithmetic a STEP with frequency 0 (or below), no sync and no trigger, changes no register, unless
the wrap was already due. -/
def Obligations.ZeroFrequencyHolds : Prop :=
  ∀ (K : Type) [Field K] [LinearOrder K] [IsStrictOrderedRing K] [FloorRing K] (pi : K) (cs : K → K)
    (mx : K → K → K) (sy : K → K), IdealParams K pi cs mx sy →
    ∀ (r : Regs K) (f c k : K), IdealInv (idealBuild K pi cs mx sy) r → r.hardsyncPhase = 0 → f ≤ 0 →
      ¬(2 ≤ r.warpedPhase ∧ 2 ≤ r.phase) → (oscStep (idealBuild K pi cs mx sy) f c k false r).regs = r

/-- R152: in exact arithmetic the ramp is an interpolation: the effective frequency lies between the clamped operand and
`max_sync_freq`. -/
def Obligations.RampInterpolates : Prop :=
  ∀ (K : Type) [Field K] [LinearOrder K] [IsStrictOrderedRing K] [FloorRing K] (pi : K) (cs : K → K)
    (mx : K → K → K) (sy : K → K), IdealParams K pi cs mx sy →
    ∀ (r : Regs K) (f : K),
      min f r.maxSyncFreq ≤ rampFreq (idealBuild K pi cs mx sy) f r ∧
        rampFreq (idealBuild K pi cs mx sy) f r ≤ max f r.maxSyncFreq

/-- R151, what line 2 leads to: in exact arithmetic a trigger on the terminal flat ends the cycle in the same STEP, with
one increment on the linear clock, `sync_out = 1`, and no ramp started. -/
def Obligations.TriggerOnTerminalFlatEndsCycle : Prop :=
  ∀ (K : Type) [Field K] [LinearOrder K] [IsStrictOrderedRing K] [FloorRing K] (pi : K) (cs : K → K)
    (mx : K → K → K) (sy : K → K), IdealParams K pi cs mx sy →
    ∀ (r : Regs K) (f c k inc : K), IdealInv (idealBuild K pi cs mx sy) r → r.hardsyncPhase = 0 →
      r.warpedPhase = 2 →
      inc = r.phaseIncPerHz * freqOperand (idealBuild K pi cs mx sy) r f →
      (oscStep (idealBuild K pi cs mx sy) f c k true r).syncOut = true ∧
        (oscStep (idealBuild K pi cs mx sy) f c k true r).regs.phase = inc ∧
        (oscStep (idealBuild K pi cs mx sy) f c k true r).regs.hardsyncPhase = 0 ∧
        (oscStep (idealBuild K pi cs mx sy) f c k true r).regs.hardsyncIncrement = 0

/-! ## The through-zero build (44_through_zero.md) -/

/-- R183: in exact arithmetic the flip is its own inverse on `phase` in `[0, 2)`, and lands there. -/
def Obligations.FlipIsItsOwnInverse : Prop :=
  ∀ (K : Type) [Field K] [LinearOrder K] [IsStrictOrderedRing K] [FloorRing K] (pi : K) (cs : K → K)
    (mx : K → K → K) (sy : K → K) (r : Regs K), 0 ≤ r.phase → r.phase < 2 →
    0 ≤ (Machine.flip (idealBuild K pi cs mx sy) r).phase ∧ (Machine.flip (idealBuild K pi cs mx sy) r).phase < 2 ∧
      Machine.flip (idealBuild K pi cs mx sy) (Machine.flip (idealBuild K pi cs mx sy) r) = r

/-- R182, R183, R186 of the `TZ = 1` build: a STEP whose frequency changes sign with no sync active is the same STEP from
the flipped state, with the sign remembered in `neg`. While a sync is active nothing is done: the STEP is the rest of STEP
from the registers as they stand, at the magnitude of the frequency, and `neg` stays. -/
def Obligations.SignFlipMirrorsOrIsDeferred : Prop :=
  ∀ (s : State) (freq clip skew : Bin64) (t : Bool), s.regs.configured = true → B64.lt freq 0 ≠ s.regs.neg →
    (B64.eq s.regs.hardsyncPhase 0 = true →
      stepIn throughZero freq clip skew t s =
        stepIn throughZero freq clip skew t
          (s.setRegs { Machine.flip throughZero s.regs with neg := B64.lt freq 0 }) ∧
      ∃ s', stepIn throughZero freq clip skew t s = .next s' ∧ s'.regs.neg = B64.lt freq 0) ∧
    (B64.eq s.regs.hardsyncPhase 0 = false → ∀ (f : Bin64) (o : Stepped Bin64),
      f = clamp B64.sys (B64.abs freq) 0 s.regs.freqMax →
      o = advance throughZero (rampFreq throughZero f s.regs) (clipInternal throughZero clip)
        (skewInternal throughZero s.regs skew) (rampAdvance throughZero s.regs) →
      stepIn throughZero freq clip skew t s = .next (responded s o.regs (rspFrameOf .ok o.syncOut o.sample)) ∧
      o.regs.neg = s.regs.neg)

/-- R184, R185 of the `TZ = 1` build: once the sign is remembered, a STEP with a negative frequency uses its magnitude and
the inverted skew `clamp(2 - si, 0, 2)`. -/
def Obligations.NegativeRegionUsesMagnitudeAndInvertedSkew : Prop :=
  ∀ (r : Regs Bin64) (freq clip skew : Bin64), r.neg = true → B64.lt freq 0 = true →
    B64.eq r.hardsyncPhase 0 = true →
    oscStep throughZero freq clip skew false r =
      advance throughZero (clamp B64.sys (B64.abs freq) 0 r.freqMax)
        (B64.sub 0x3FF0000000000000 (clamp B64.sys clip 0 0x3FF0000000000000))
        (clamp B64.sys (B64.sub 0x4000000000000000 (B64.sub 0x3FF0000000000000
          (clamp B64.sys skew 0xBFF0000000000000 0x3FF0000000000000))) 0 0x4000000000000000) r

/-! ## The two clocks together (10_state.md R25, 90_conflicts.md C16) -/

/-- R25, R154, 90_conflicts.md C16: the shape clock goes back only where the linear clock wraps. A STEP that does not
signal `sync_out` never lowers `warped_phase`. One that does leaves `phase` within one increment of the start of the
cycle, and `warped_phase` within one warp of it (at 0 with a sync active), or equal to `phase` on the fast path. -/
def Obligations.WarpedPhaseFallsOnlyAtAWrap : Prop :=
  ∀ (K : Type) [Field K] [LinearOrder K] [IsStrictOrderedRing K] [FloorRing K] (pi : K) (cs : K → K)
    (mx : K → K → K) (sy : K → K), IdealParams K pi cs mx sy →
    ∀ (r : Regs K) (f c k : K) (t : Bool) (o : Stepped K), IdealInv (idealBuild K pi cs mx sy) r →
      o = oscStep (idealBuild K pi cs mx sy) f c k t r →
      (o.syncOut = false → r.warpedPhase ≤ o.regs.warpedPhase) ∧
      (o.syncOut = true →
        0 ≤ o.regs.phase ∧ o.regs.phase ≤ effInc (idealBuild K pi cs mx sy) ⟨f, c, k, t⟩ r ∧
        (onFastPath (idealBuild K pi cs mx sy) r (effFreq (idealBuild K pi cs mx sy) ⟨f, c, k, t⟩ r) = false →
          0 ≤ o.regs.warpedPhase ∧ o.regs.warpedPhase ≤ r.maxWarpInc) ∧
        (onFastPath (idealBuild K pi cs mx sy) r (effFreq (idealBuild K pi cs mx sy) ⟨f, c, k, t⟩ r) = true →
          o.regs.warpedPhase = o.regs.phase) ∧
        (r.hardsyncPhase ≠ 0 → o.regs.warpedPhase = 0 ∧ o.regs.phase = 0))
end

