-- ==== Sys2Proof/Laws/Binary64.lean ====
section
/-! SUPPORT. What the arithmetic of Machine/Binary64.lean can answer (spec 00_scope.md R12, R18): the rounding brackets the
exact value between representable ones and errs by at most half a unit in the last place. -/

namespace Sys2Proof.Machine.B64

/-! ### Magnitudes by bit pattern (sign apart) -/

/-- The magnitude, in units of `2^-1074`, of the bit pattern `b`. -/
def magOf (b : Nat) : Nat := if b / 2 ^ 52 = 0 then b else (2 ^ 52 + b % 2 ^ 52) * 2 ^ (b / 2 ^ 52 - 1)

theorem magOf_succ (b : Nat) : magOf (b + 1) = magOf b + 2 ^ (b / 2 ^ 52 - 1) := by
  unfold magOf
  by_cases h : b % 2 ^ 52 + 1 < 2 ^ 52
  · have e : (b + 1) / 2 ^ 52 = b / 2 ^ 52 := by omega
    have f : (b + 1) % 2 ^ 52 = b % 2 ^ 52 + 1 := by omega
    rw [e, f]
    split
    · rename_i h0; rw [h0]; rfl
    · ring
  · have e : (b + 1) / 2 ^ 52 = b / 2 ^ 52 + 1 := by omega
    have f : (b + 1) % 2 ^ 52 = 0 := by omega
    have g : b % 2 ^ 52 = 2 ^ 52 - 1 := by omega
    rw [e, f, g, if_neg (Nat.succ_ne_zero _)]
    split
    · rename_i h0; rw [h0]; simp; omega
    · rename_i h0
      obtain ⟨k, hk⟩ : ∃ k, b / 2 ^ 52 = k + 1 := ⟨b / 2 ^ 52 - 1, by omega⟩
      rw [hk]
      simp only [Nat.add_sub_cancel, pow_succ 2 k]
      omega

theorem magOf_strictMono : StrictMono magOf :=
  strictMono_nat_of_lt_succ fun b => by rw [magOf_succ]; have := Nat.two_pow_pos (b / 2 ^ 52 - 1); omega

/-- The bits that stand for `low` places of `2^q`. -/
theorem magOf_grid {q low : Nat} (h : low ≤ 2 ^ 53) (h' : q = 0 ∨ 2 ^ 52 ≤ low) :
    magOf (q * 2 ^ 52 + low) = low * 2 ^ q := by
  unfold magOf
  by_cases h1 : low < 2 ^ 52
  · obtain rfl : q = 0 := by omega
    rw [if_pos (by omega)]; simp
  · by_cases h2 : low < 2 ^ 53
    · have e : (q * 2 ^ 52 + low) / 2 ^ 52 = q + 1 := by omega
      have f : (q * 2 ^ 52 + low) % 2 ^ 52 = low - 2 ^ 52 := by omega
      rw [e, f, if_neg (Nat.succ_ne_zero _), Nat.add_sub_cancel, Nat.add_sub_cancel' (by omega)]
    · obtain rfl : low = 2 ^ 53 := by omega
      have e : (q * 2 ^ 52 + 2 ^ 53) / 2 ^ 52 = q + 2 := by omega
      have f : (q * 2 ^ 52 + 2 ^ 53) % 2 ^ 52 = 0 := by omega
      rw [e, f, if_neg (Nat.succ_ne_zero _)]
      have g : (2 : Nat) ^ (q + 2 - 1) = 2 * 2 ^ q := by rw [show q + 2 - 1 = q + 1 from rfl, pow_succ, Nat.mul_comm]
      rw [g]
      generalize 2 ^ q = x
      omega

/-! ### The rounding -/

/-- The place `2^q` of the last bit kept, and the whole number `low` of places below `n / d`. -/
theorem place_spec (n : Nat) {d : Nat} (hd : 0 < d) :
    let q := Nat.log2 (n / d) - 52
    0 < d * 2 ^ q ∧ n / (d * 2 ^ q) < 2 ^ 53 ∧ (q = 0 ∨ 2 ^ 52 ≤ n / (d * 2 ^ q)) := by
  intro q
  refine ⟨Nat.mul_pos hd (Nat.two_pow_pos q), ?_, ?_⟩
  · rw [← Nat.div_div_eq_div_mul, Nat.div_lt_iff_lt_mul (Nat.two_pow_pos q), ← pow_add]
    exact lt_of_lt_of_le Nat.lt_log2_self (Nat.pow_le_pow_right (by norm_num) (by omega))
  · by_cases h0 : q = 0
    · exact .inl h0
    · right
      rw [← Nat.div_div_eq_div_mul, Nat.le_div_iff_mul_le (Nat.two_pow_pos q), ← pow_add]
      have hne : n / d ≠ 0 := by
        intro h
        apply h0
        show Nat.log2 (n / d) - 52 = 0
        rw [h]; rfl
      exact le_trans (Nat.pow_le_pow_right (by norm_num) (by omega)) (Nat.log2_self_le hne)

/-- The rounding before its cut at infinity: `u` are bits that stand for a multiple of the place `2^q` next to `n / d`. -/
theorem roundMag_spec (n : Nat) {d : Nat} (hd : 0 < d) :
    ∃ q low u : Nat, roundMag n d = min u infBits ∧ low * (d * 2 ^ q) ≤ n ∧ n < (low + 1) * (d * 2 ^ q) ∧
      (q = 0 ∨ 2 ^ 52 ≤ low) ∧
      ((magOf u = low * 2 ^ q ∧ magOf (u + 1) = (low + 1) * 2 ^ q ∧ 2 * n ≤ (2 * low + 1) * (d * 2 ^ q)) ∨
        (∃ v, u = v + 1 ∧ magOf v = low * 2 ^ q ∧ magOf u = (low + 1) * 2 ^ q ∧ low * (d * 2 ^ q) < n ∧
          (2 * low + 1) * (d * 2 ^ q) ≤ 2 * n ∧ ((2 * low + 1) * (d * 2 ^ q) < 2 * n ∨ v % 2 = 1))) := by
  obtain ⟨hpl, hlt, hge⟩ := place_spec n hd
  have hr : roundMag n d = min ((Nat.log2 (n / d) - 52) * 2 ^ 52 +
      (if decide (d * 2 ^ (Nat.log2 (n / d) - 52) < 2 * (n % (d * 2 ^ (Nat.log2 (n / d) - 52)))) ||
          (decide (d * 2 ^ (Nat.log2 (n / d) - 52) = 2 * (n % (d * 2 ^ (Nat.log2 (n / d) - 52)))) &&
            n / (d * 2 ^ (Nat.log2 (n / d) - 52)) % 2 == 1)
        then n / (d * 2 ^ (Nat.log2 (n / d) - 52)) + 1 else n / (d * 2 ^ (Nat.log2 (n / d) - 52)))) infBits := rfl
  have hdm := Nat.div_add_mod n (d * 2 ^ (Nat.log2 (n / d) - 52))
  have hml := Nat.mod_lt n hpl
  generalize Nat.log2 (n / d) - 52 = q at *
  generalize n / (d * 2 ^ q) = low at *
  generalize n % (d * 2 ^ q) = rest at *
  have hg0 : magOf (q * 2 ^ 52 + low) = low * 2 ^ q := magOf_grid hlt.le hge
  have hg1 : magOf (q * 2 ^ 52 + low + 1) = (low + 1) * 2 ^ q := by
    rw [Nat.add_assoc]; exact magOf_grid hlt (hge.imp_right Nat.le_succ_of_le)
  have e1 : low * (d * 2 ^ q) = d * 2 ^ q * low := Nat.mul_comm _ _
  have e2 : (low + 1) * (d * 2 ^ q) = d * 2 ^ q * low + d * 2 ^ q := by ring
  have e3 : (2 * low + 1) * (d * 2 ^ q) = 2 * (d * 2 ^ q * low) + d * 2 ^ q := by ring
  clear hlt
  by_cases hup : (decide (d * 2 ^ q < 2 * rest) || (decide (d * 2 ^ q = 2 * rest) && low % 2 == 1)) = true
  · refine ⟨q, low, q * 2 ^ 52 + low + 1, ?_, ?_, ?_, hge, .inr ⟨_, rfl, hg0, hg1, ?_, ?_, ?_⟩⟩
    · rw [hr, if_pos hup, Nat.add_assoc]
    all_goals
      simp only [Bool.or_eq_true, Bool.and_eq_true, decide_eq_true_eq, beq_iff_eq] at hup
      clear hr hg0 hg1 hge
      generalize d * 2 ^ q = place at *
      generalize place * low = whole at *
      omega
  · refine ⟨q, low, q * 2 ^ 52 + low, ?_, ?_, ?_, hge, .inl ⟨hg0, hg1, ?_⟩⟩
    · rw [hr, if_neg hup]
    all_goals
      simp only [Bool.or_eq_true, Bool.and_eq_true, decide_eq_true_eq, not_or, not_lt] at hup
      clear hr hg0 hg1 hge
      generalize d * 2 ^ q = place at *
      generalize place * low = whole at *
      omega

/-- A representable value above the exact one is not below the rounded one. -/
theorem roundMag_le {n d b : Nat} (hd : 0 < d) (h : n ≤ magOf b * d) : roundMag n d ≤ b := by
  obtain ⟨q, low, u, hr, hlo, _, _, ⟨hm, _, _⟩ | ⟨v, rfl, hm, _, hn, _, _⟩⟩ := roundMag_spec n hd
  · have h1 : magOf u * d ≤ magOf b * d := by
      calc magOf u * d = low * (d * 2 ^ q) := by rw [hm]; ring
        _ ≤ n := hlo
        _ ≤ _ := h
    have := magOf_strictMono.le_iff_le.1 (Nat.le_of_mul_le_mul_right h1 hd)
    omega
  · have h1 : magOf v * d < magOf b * d := by
      calc magOf v * d = low * (d * 2 ^ q) := by rw [hm]; ring
        _ < n := hn
        _ ≤ _ := h
    have := magOf_strictMono.lt_iff_lt.1 (Nat.lt_of_mul_lt_mul_right h1)
    omega

/-- A representable value below the exact one is not above the rounded one. -/
theorem le_roundMag {n d b : Nat} (hd : 0 < d) (hb : b ≤ infBits) (h : magOf b * d ≤ n) : b ≤ roundMag n d := by
  obtain ⟨q, low, u, hr, _, hlt, _, hc⟩ := roundMag_spec n hd
  have h1 : ∀ c, magOf c = (low + 1) * 2 ^ q → b < c := fun c hm => by
    have h1 : magOf b * d < magOf c * d := by
      calc magOf b * d ≤ n := h
        _ < (low + 1) * (d * 2 ^ q) := hlt
        _ = _ := by rw [hm]; ring
    exact magOf_strictMono.lt_iff_lt.1 (Nat.lt_of_mul_lt_mul_right h1)
  rcases hc with ⟨_, hm, _⟩ | ⟨v, _, _, hm, _, _, _⟩
  · have := h1 _ hm; omega
  · have := h1 _ hm; omega

/-- Up to the midpoint above an even bit pattern, the rounding is not above that pattern. -/
theorem roundMag_le_of_tie {n d b : Nat} (hd : 0 < d) (he : b % 2 = 0) (h : 2 * n ≤ (magOf b + magOf (b + 1)) * d) :
    roundMag n d ≤ b := by
  obtain ⟨q, low, u, hr, hlo, _, _, hc⟩ := roundMag_spec n hd
  by_contra hgt
  have hub : b + 1 ≤ u := by clear hc; omega
  have hs := magOf_strictMono (Nat.lt_succ_self b)
  have hmu : magOf (b + 1) * d ≤ magOf u * d := Nat.mul_le_mul_right _ (magOf_strictMono.monotone hub)
  have hsd : magOf b * d < magOf (b + 1) * d := Nat.mul_lt_mul_of_pos_right hs hd
  rcases hc with ⟨hm, _, _⟩ | ⟨v, rfl, hmv, hm, _, h1, h2⟩
  · have e : magOf u * d = low * (d * 2 ^ q) := by rw [hm]; ring
    nlinarith
  · have hv : magOf b * d ≤ magOf v * d := Nat.mul_le_mul_right _ (magOf_strictMono.monotone (by omega))
    have e : (2 * low + 1) * (d * 2 ^ q) = magOf v * d + magOf (v + 1) * d := by rw [hmv, hm]; ring
    have hv' : magOf v * d = magOf b * d := by nlinarith
    have hvb : v = b := magOf_strictMono.injective (Nat.eq_of_mul_eq_mul_right hd hv')
    rcases h2 with h2 | h2
    · nlinarith
    · omega

/-- The error of a finite rounding: at most half a unit, or a fraction `2^-53` of the exact value. -/
theorem roundMag_error {n d : Nat} (hd : 0 < d) (h : roundMag n d < infBits) :
    2 * |(magOf (roundMag n d) * d : ℤ) - n| ≤ d ∨ 2 ^ 53 * |(magOf (roundMag n d) * d : ℤ) - n| ≤ n := by
  obtain ⟨q, low, u, hr, hlo, hlt, hq, hc⟩ := roundMag_spec n hd
  have hu : roundMag n d = u := by clear hc; omega
  have key : 2 * |(magOf u * d : ℤ) - n| ≤ d * 2 ^ q := by
    zify at hlo hlt hc
    rcases hc with ⟨hm, _, he⟩ | ⟨_, _, _, hm, _, he, _⟩
    · rw [hm, abs_sub_comm, abs_of_nonneg] <;> linarith
    · rw [hm, abs_of_nonneg] <;> linarith
  rw [hu]
  rcases hq with rfl | hq
  · left; simpa using key
  · right
    have h1 : 2 ^ 52 * (d * 2 ^ q) ≤ n := le_trans (Nat.mul_le_mul_right _ hq) hlo
    zify at h1
    linarith

/-! ### Bit patterns, the order and the values -/

/-- The bit pattern without its sign. -/
def magBits (x : Bin64) : Nat := x.toNat % 2 ^ 63

theorem expField_eq (x : Bin64) : expField x = magBits x / 2 ^ 52 := by unfold expField magBits; omega

theorem fracField_eq (x : Bin64) : fracField x = magBits x % 2 ^ 52 := by unfold fracField magBits; omega

theorem magnitude_eq (x : Bin64) : magnitude x = magOf (magBits x) := by
  unfold magnitude significand magOf
  rw [expField_eq, fracField_eq]
  split
  · rename_i h
    rw [h, show 0 - 1 = 0 from rfl, pow_zero, Nat.mul_one]; omega
  · rfl

theorem isFinite_iff {x : Bin64} : isFinite x = true ↔ magBits x < infBits := by
  have h : magBits x < 2 ^ 63 := Nat.mod_lt _ (by norm_num)
  simp only [isFinite, expField_eq, infBits, bne_iff_ne]
  omega

theorem isNaN_iff {x : Bin64} : isNaN x = false ↔ magBits x ≤ infBits := by
  have h : magBits x < 2 ^ 63 := Nat.mod_lt _ (by norm_num)
  rw [← Bool.not_eq_true]
  simp only [isNaN, expField_eq, fracField_eq, infBits, Bool.and_eq_true, beq_iff_eq, bne_iff_ne]
  omega

theorem isNaN_of_isFinite {x : Bin64} (h : isFinite x = true) : isNaN x = false :=
  isNaN_iff.2 (isFinite_iff.1 h).le

theorem isInf_of_isFinite {x : Bin64} (h : isFinite x = true) : isInf x = false := by
  rw [isFinite, bne_iff_ne] at h
  simp [isInf, h]

/-- The magnitude of a place in the order, with its sign. -/
def unitsAt (k : Int) : Int := if k < 0 then -(magOf k.natAbs : Int) else (magOf k.natAbs : Int)

theorem magOf_zero : magOf 0 = 0 := rfl

theorem unitsAt_strictMono : StrictMono unitsAt := by
  intro a b h
  have h0 : 0 ≤ (magOf a.natAbs : Int) := Int.natCast_nonneg _
  unfold unitsAt
  split <;> split
  · have : magOf b.natAbs < magOf a.natAbs := magOf_strictMono (by omega)
    omega
  · have : magOf 0 < magOf a.natAbs := magOf_strictMono (by omega)
    rw [magOf_zero] at this
    omega
  · omega
  · have : magOf a.natAbs < magOf b.natAbs := magOf_strictMono (by omega)
    omega

theorem units_eq (x : Bin64) : units x = unitsAt (key x) := by
  unfold units key
  rw [magnitude_eq]
  change _ = unitsAt (if signBit x then -((magBits x : Nat) : Int) else ((magBits x : Nat) : Int))
  split
  · by_cases h : magBits x = 0
    · rw [h]; rfl
    · rw [unitsAt, if_pos (by omega), Int.natAbs_neg, Int.natAbs_natCast]
  · rw [unitsAt, if_neg (by omega), Int.natAbs_natCast]

theorem exists_unit : ∃ u : ℚ, 0 < u ∧ u * 2 ^ 1074 = 1 :=
  ⟨(2 ^ 1074)⁻¹, by positivity, inv_mul_cancel₀ (pow_ne_zero _ two_ne_zero)⟩

/-- One unit `2^-1074`, the smallest subnormal. Chosen, so that no check computes the power. -/
noncomputable def unit : ℚ := Classical.choose exists_unit

theorem unit_pos : 0 < unit := (Classical.choose_spec exists_unit).1

theorem unit_mul : unit * 2 ^ 1074 = 1 := (Classical.choose_spec exists_unit).2

/-- The value of a finite bit pattern. -/
noncomputable def val (x : Bin64) : ℚ := units x * unit

theorem le_iff {x y : Bin64} (hx : isFinite x = true) (hy : isFinite y = true) : le x y = true ↔ val x ≤ val y := by
  unfold le val
  rw [isNaN_of_isFinite hx, isNaN_of_isFinite hy, units_eq, units_eq, mul_le_mul_iff_left₀ unit_pos]
  simp [unitsAt_strictMono.le_iff_le]

theorem lt_iff {x y : Bin64} (hx : isFinite x = true) (hy : isFinite y = true) : lt x y = true ↔ val x < val y := by
  unfold lt val
  rw [isNaN_of_isFinite hx, isNaN_of_isFinite hy, units_eq, units_eq, mul_lt_mul_iff_left₀ unit_pos]
  simp [unitsAt_strictMono.lt_iff_lt]

theorem eq_iff {x y : Bin64} (hx : isFinite x = true) (hy : isFinite y = true) : eq x y = true ↔ val x = val y := by
  unfold eq val
  rw [isNaN_of_isFinite hx, isNaN_of_isFinite hy, units_eq, units_eq, mul_left_inj' unit_pos.ne']
  simp [unitsAt_strictMono.injective.eq_iff]

/-! ### What a rounded result is -/

/-- `r` is the rounding of `q`: no NaN; a finite value on one side of `q` is on that side of `r` or equal to it (so that
bounds by representable values carry over, overflow included); a finite `r` errs by at most half a unit or the fraction
`2^-53`; and up to the midpoint above an even bit pattern `r` is not above that pattern. -/
structure Rounds (q : ℚ) (r : Bin64) : Prop where
  notNaN : isNaN r = false
  le_of : ∀ b, isFinite b = true → q ≤ val b → le r b = true
  ge_of : ∀ b, isFinite b = true → val b ≤ q → le b r = true
  error : isFinite r = true → 2 * |val r - q| ≤ unit ∨ 2 ^ 53 * |val r - q| ≤ |q|
  tie : ∀ b : Nat, b % 2 = 0 → 2 * q ≤ (magOf b + magOf (b + 1)) * unit → key r ≤ b

theorem magBits_pack (s : Bool) {b : Nat} (h : b ≤ infBits) : magBits (pack s b) = b := by
  unfold infBits at h
  cases s <;> simp only [magBits, pack, BitVec.toNat_ofNat, Bool.false_eq_true, if_true, if_false] <;> omega

theorem signBit_pack (s : Bool) {b : Nat} (h : b ≤ infBits) : signBit (pack s b) = s := by
  unfold infBits at h
  unfold signBit pack
  rw [BitVec.getLsbD_ofNat, Nat.testBit_eq_decide_div_mod_eq]
  cases s
  · simp only [Bool.false_eq_true, if_false]
    rw [Nat.div_eq_of_lt (by omega)]; rfl
  · simp only [if_true]
    rw [show (2 ^ 63 + b) / 2 ^ 63 = 1 by omega]; rfl

theorem key_pack (s : Bool) {b : Nat} (h : b ≤ infBits) : key (pack s b) = if s then -(b : Int) else (b : Int) := by
  have hm := magBits_pack s h
  unfold magBits at hm
  unfold key
  rw [signBit_pack s h, hm]

theorem roundMag_le_infBits (n d : Nat) : roundMag n d ≤ infBits := Nat.min_le_right _ _

theorem le_iff_key {x y : Bin64} (hx : isNaN x = false) (hy : isNaN y = false) : le x y = true ↔ key x ≤ key y := by
  simp [le, hx, hy]

theorem key_natAbs_lt {x : Bin64} (h : isFinite x = true) : (key x).natAbs < infBits := by
  have := isFinite_iff.1 h
  unfold magBits at this
  unfold key
  split <;> omega

theorem unitsAt_natCast (k : Nat) : unitsAt (k : Int) = magOf k := by
  rw [unitsAt, if_neg (by omega), Int.natAbs_natCast]

theorem unitsAt_neg_natCast (k : Nat) : unitsAt (-(k : Int)) = -(magOf k : Int) := by
  rcases Nat.eq_zero_or_pos k with rfl | h
  · rfl
  · rw [unitsAt, if_pos (by omega), Int.natAbs_neg, Int.natAbs_natCast]

/-- A whole number, by its sign. -/
theorem int_cases (z : Int) : (∃ k : Nat, 0 < k ∧ z = -(k : Int)) ∨ ∃ k : Nat, z = k := by
  rcases lt_or_ge z 0 with h | h
  · exact .inl ⟨z.natAbs, by omega, by omega⟩
  · exact .inr ⟨z.toNat, by omega⟩

theorem isNaN_pack (s : Bool) (n d : Nat) : isNaN (pack s (roundMag n d)) = false := by
  rw [isNaN_iff, magBits_pack s (roundMag_le_infBits n d)]; exact roundMag_le_infBits n d

theorem pack_le (s : Bool) (n : Nat) {d : Nat} (hd : 0 < d) (b : Bin64) (hf : isFinite b = true)
    (h : (if s then -1 else 1) * ((n : ℚ) / d * unit) ≤ val b) : le (pack s (roundMag n d)) b = true := by
  have hu := unit_pos
  have hd' : (0 : ℚ) < d := by exact_mod_cast hd
  have hb := roundMag_le_infBits n d
  have hk := key_pack s hb
  have hn := isNaN_pack s n d
  rw [le_iff_key hn (isNaN_of_isFinite hf), hk]
  have hlt := key_natAbs_lt hf
  unfold val at h
  rw [← mul_assoc, mul_le_mul_iff_left₀ hu, units_eq] at h
  generalize key b = z at *
  rcases int_cases z with ⟨k, hk0, rfl⟩ | ⟨k, rfl⟩
  · rw [unitsAt_neg_natCast] at h
    have hpos : 0 < magOf k := by
      have := magOf_strictMono (show 0 < k by omega)
      rwa [magOf_zero] at this
    have hpos' : (0 : ℚ) < magOf k := by exact_mod_cast hpos
    have hq : 0 ≤ (n : ℚ) / d := by positivity
    push_cast at h
    cases s
    · simp only [Bool.false_eq_true, if_false] at h
      linarith
    · simp only [if_true] at h ⊢
      have h1 : (magOf k : ℚ) * d ≤ n := by rw [← le_div_iff₀ hd']; linarith
      have := le_roundMag hd (b := k) (by omega) (by exact_mod_cast h1)
      omega
  · rw [unitsAt_natCast] at h
    cases s
    · simp only [Bool.false_eq_true, if_false] at h ⊢
      have h1 : (n : ℚ) ≤ magOf k * d := by rw [← div_le_iff₀ hd']; push_cast at h; linarith
      have := roundMag_le hd (b := k) (by exact_mod_cast h1)
      omega
    · simp only [if_true]; omega

theorem le_pack (s : Bool) (n : Nat) {d : Nat} (hd : 0 < d) (b : Bin64) (hf : isFinite b = true)
    (h : val b ≤ (if s then -1 else 1) * ((n : ℚ) / d * unit)) : le b (pack s (roundMag n d)) = true := by
  have hu := unit_pos
  have hd' : (0 : ℚ) < d := by exact_mod_cast hd
  have hb := roundMag_le_infBits n d
  have hk := key_pack s hb
  have hn := isNaN_pack s n d
  rw [le_iff_key (isNaN_of_isFinite hf) hn, hk]
  have hlt := key_natAbs_lt hf
  unfold val at h
  rw [← mul_assoc, mul_le_mul_iff_left₀ hu, units_eq] at h
  generalize key b = z at *
  rcases int_cases z with ⟨k, hk0, rfl⟩ | ⟨k, rfl⟩
  · rw [unitsAt_neg_natCast] at h
    cases s
    · simp only [Bool.false_eq_true, if_false]; omega
    · simp only [if_true] at h ⊢
      have h1 : (n : ℚ) ≤ magOf k * d := by rw [← div_le_iff₀ hd']; push_cast at h; linarith
      have := roundMag_le hd (b := k) (by exact_mod_cast h1)
      omega
  · rw [unitsAt_natCast] at h
    have hq : 0 ≤ (n : ℚ) / d := by positivity
    push_cast at h
    cases s
    · simp only [Bool.false_eq_true, if_false] at h ⊢
      have h1 : (magOf k : ℚ) * d ≤ n := by rw [← le_div_iff₀ hd']; linarith
      have := le_roundMag hd (b := k) (by omega) (by exact_mod_cast h1)
      omega
    · simp only [if_true] at h ⊢
      have h0 : (magOf k : ℚ) ≤ 0 := by linarith
      have h0' : magOf k ≤ magOf 0 := by rw [magOf_zero]; exact_mod_cast h0
      have hk0 : k = 0 := by have := magOf_strictMono.le_iff_le.1 h0'; omega
      have hqz : (n : ℚ) / d ≤ 0 := by rw [hk0, magOf_zero] at h; push_cast at h; linarith
      have hn0 : n = 0 := by
        have : (n : ℚ) ≤ 0 * d := (div_le_iff₀ hd').1 hqz
        have : (n : ℚ) ≤ 0 := by linarith
        exact_mod_cast le_antisymm this (Nat.cast_nonneg n)
      have : roundMag n d ≤ 0 := roundMag_le hd (by omega)
      omega

/-- The error of `m` against `n / d`, in values. -/
theorem error_of_magnitudes {u v : ℚ} (hu : 0 < u) (s : Bool) (m n d : ℕ) (hd : 0 < d)
    (hv : v = (if s then -1 else 1) * (m * u))
    (h : 2 * |(m * d : ℤ) - n| ≤ d ∨ 2 ^ 53 * |(m * d : ℤ) - n| ≤ n) :
    2 * |v - (if s then -1 else 1) * ((n : ℚ) / d * u)| ≤ u ∨
      2 ^ 53 * |v - (if s then -1 else 1) * ((n : ℚ) / d * u)| ≤ |(if s then -1 else 1) * ((n : ℚ) / d * u)| := by
  have hd' : (0 : ℚ) < d := by exact_mod_cast hd
  have e : |v - (if s then -1 else 1) * ((n : ℚ) / d * u)| = |(m : ℚ) * d - n| / d * u := by
    have : v - (if s then -1 else 1) * ((n : ℚ) / d * u) =
        (if s then -1 else 1) * (((m : ℚ) * d - n) / d * u) := by
      rw [hv]; field_simp
    rw [this, abs_mul, abs_mul, abs_div, abs_of_pos hu, abs_of_pos hd']
    cases s <;> simp
  have e' : |(if s then -1 else 1) * ((n : ℚ) / d * u)| = (n : ℚ) / d * u := by
    rw [abs_mul, abs_of_nonneg (a := (n : ℚ) / d * u) (by positivity)]
    cases s <;> simp
  rw [e, e']
  refine h.imp (fun h => ?_) fun h => ?_
  · have h' : 2 * |(m : ℚ) * d - n| ≤ d := by exact_mod_cast h
    rw [show ∀ a : ℚ, 2 * (a / d * u) = 2 * a / d * u by intro a; ring]
    exact mul_le_of_le_one_left hu.le ((div_le_one hd').2 h')
  · have h' : 2 ^ 53 * |(m : ℚ) * d - n| ≤ n := by exact_mod_cast h
    rw [show ∀ a : ℚ, 2 ^ 53 * (a / d * u) = 2 ^ 53 * a / d * u by intro a; ring]
    gcongr

theorem val_pack (s : Bool) {b : Nat} (h : b ≤ infBits) :
    val (pack s b) = (if s then -1 else 1) * (magOf b * unit) := by
  unfold val
  rw [units_eq, key_pack s h]
  cases s
  · rw [if_neg Bool.false_ne_true, if_neg Bool.false_ne_true, unitsAt_natCast, Int.cast_natCast, one_mul]
  · rw [if_pos rfl, if_pos rfl, unitsAt_neg_natCast, Int.cast_neg, Int.cast_natCast, neg_one_mul, neg_mul]

theorem pack_error (s : Bool) (n : Nat) {d : Nat} (hd : 0 < d) (hf : isFinite (pack s (roundMag n d)) = true) :
    2 * |val (pack s (roundMag n d)) - (if s then -1 else 1) * ((n : ℚ) / d * unit)| ≤ unit ∨
      2 ^ 53 * |val (pack s (roundMag n d)) - (if s then -1 else 1) * ((n : ℚ) / d * unit)| ≤
        |(if s then -1 else 1) * ((n : ℚ) / d * unit)| := by
  have hb := roundMag_le_infBits n d
  have hlt : roundMag n d < infBits := by have := isFinite_iff.1 hf; rwa [magBits_pack s hb] at this
  exact error_of_magnitudes unit_pos s _ n d hd (val_pack s hb) (roundMag_error hd hlt)

theorem pack_tie (s : Bool) (n : Nat) {d : Nat} (hd : 0 < d) (b : Nat) (he : b % 2 = 0)
    (h : 2 * ((if s then -1 else 1) * ((n : ℚ) / d * unit)) ≤ (magOf b + magOf (b + 1)) * unit) :
    key (pack s (roundMag n d)) ≤ b := by
  rw [key_pack s (roundMag_le_infBits n d)]
  cases s
  · rw [if_neg Bool.false_ne_true] at h ⊢
    rw [one_mul, ← mul_assoc, mul_le_mul_iff_left₀ unit_pos, mul_div_assoc',
      div_le_iff₀ (by exact_mod_cast hd)] at h
    have := roundMag_le_of_tie hd he (n := n) (by exact_mod_cast h)
    omega
  · rw [if_pos rfl]; omega

/-- A rounded magnitude with a sign is the rounding of the value with that sign. -/
theorem rounds_pack (s : Bool) (n : Nat) {d : Nat} (hd : 0 < d) :
    Rounds ((if s then -1 else 1) * ((n : ℚ) / d * unit)) (pack s (roundMag n d)) :=
  ⟨isNaN_pack s n d, pack_le s n hd, le_pack s n hd, pack_error s n hd, pack_tie s n hd⟩

/-! ### The operations on finite operands (R12) -/

theorem units_mul_sign (x : Bin64) : (units x : ℚ) = (if signBit x then -1 else 1) * magnitude x := by
  unfold units; split <;> simp

/-- The sum of two finite values is the rounding of the exact sum. -/
theorem rounds_sum (op : Nat) {x y : Bin64} (hx : isFinite x = true) (hy : isFinite y = true) :
    Rounds (val x + val y) (sum op x y) := by
  have e : val x + val y = ((units x + units y : Int) : ℚ) * unit := by unfold val; push_cast; ring
  unfold sum
  rw [isNaN_of_isFinite hx, isNaN_of_isFinite hy, isInf_of_isFinite hx, isInf_of_isFinite hy, e]
  generalize units x + units y = z
  simp only [Bool.or_self, Bool.false_eq_true, if_false]
  split
  · rename_i h
    have hr := rounds_pack (signBit x && signBit y) 0 (d := 1) one_pos
    have h0 : roundMag 0 1 = 0 := Nat.le_zero.1 (roundMag_le one_pos (Nat.zero_le _))
    rw [h0] at hr
    subst h
    simpa using hr
  · have hr := rounds_pack (decide (z < 0)) z.natAbs (d := 1) one_pos
    have hz : (z : ℚ) = (if decide (z < 0) then -1 else 1) * ((z.natAbs : ℕ) : ℚ) := by
      by_cases h : z < 0
      · simp only [h, decide_true, if_true]
        have h' : z = -((z.natAbs : ℕ) : Int) := by omega
        have h'' : (z : ℚ) = ((-((z.natAbs : ℕ) : Int) : Int) : ℚ) := congrArg _ h'
        rw [h'', Int.cast_neg, Int.cast_natCast, neg_one_mul]
      · simp only [h, decide_false, Bool.false_eq_true, if_false]
        have h' : z = ((z.natAbs : ℕ) : Int) := by omega
        have h'' : (z : ℚ) = ((((z.natAbs : ℕ) : Int) : Int) : ℚ) := congrArg _ h'
        rw [h'', Int.cast_natCast, one_mul]
    rw [hz, mul_assoc]
    simpa using hr

theorem rounds_add {x y : Bin64} (hx : isFinite x = true) (hy : isFinite y = true) :
    Rounds (val x + val y) (add x y) := rounds_sum 0 hx hy

theorem magBits_neg (x : Bin64) : magBits (neg x) = magBits x := by
  unfold magBits neg
  apply Nat.eq_of_testBit_eq
  intro i
  rw [Nat.testBit_mod_two_pow, Nat.testBit_mod_two_pow, BitVec.toNat_xor, Nat.testBit_xor,
    show (0x8000000000000000 : Bin64).toNat = 2 ^ 63 from rfl, Nat.testBit_two_pow]
  by_cases h : i < 63
  · simp [h, show ¬63 = i by omega]
  · simp [h]

theorem signBit_neg (x : Bin64) : signBit (neg x) = !signBit x := by
  unfold signBit neg
  rw [BitVec.getLsbD_xor, show (0x8000000000000000 : Bin64).getLsbD 63 = true from rfl, Bool.xor_true]

theorem isFinite_neg (x : Bin64) : isFinite (neg x) = isFinite x := by
  rw [Bool.eq_iff_iff, isFinite_iff, isFinite_iff, magBits_neg]

theorem val_neg (x : Bin64) : val (neg x) = -val x := by
  unfold val units
  rw [magnitude_eq, magnitude_eq, magBits_neg, signBit_neg]
  cases signBit x <;> simp

/-- The difference of two finite values is the rounding of the exact difference. -/
theorem rounds_sub {x y : Bin64} (hx : isFinite x = true) (hy : isFinite y = true) :
    Rounds (val x - val y) (sub x y) := by
  rw [sub_eq_add_neg, ← val_neg]
  exact rounds_sum 1 hx (by rw [isFinite_neg]; exact hy)

/-- A finite value by its sign and its magnitude in units. -/
theorem val_eq_sign_mul (x : Bin64) : val x = (if signBit x then -1 else 1) * (magnitude x * unit) := by
  unfold val
  rw [units_mul_sign, mul_assoc]

theorem sign_mul_sign (s t : Bool) :
    (if (s != t) then -1 else 1 : ℚ) = (if s then -1 else 1) * (if t then -1 else 1) := by
  cases s <;> cases t <;> simp

/-- The product of two finite values is the rounding of the exact product. -/
theorem rounds_mul {x y : Bin64} (hx : isFinite x = true) (hy : isFinite y = true) :
    Rounds (val x * val y) (mul x y) := by
  have h := rounds_pack (signBit x != signBit y) (magnitude x * magnitude y) (Nat.two_pow_pos 1074)
  have hu : (unit : ℚ) = 1 / 2 ^ 1074 := eq_one_div_of_mul_eq_one_left unit_mul
  have e : ∀ a b P u : ℚ, u = 1 / P → a * u * (b * u) = a * b / P * u := by
    intro a b P u h; rw [h]; ring
  have e' : val x * val y = (if (signBit x != signBit y) then -1 else 1) *
      (((magnitude x * magnitude y : ℕ) : ℚ) / ((2 ^ 1074 : ℕ) : ℚ) * unit) := by
    rw [val_eq_sign_mul, val_eq_sign_mul, sign_mul_sign, Nat.cast_mul, Nat.cast_pow, Nat.cast_ofNat, ← e _ _ _ _ hu]
    ring
  rw [e']
  unfold mul
  rw [isNaN_of_isFinite hx, isNaN_of_isFinite hy, isInf_of_isFinite hx, isInf_of_isFinite hy]
  exact h

theorem isZero_iff {x : Bin64} : isZero x = true ↔ magBits x = 0 := by
  unfold isZero magBits; exact beq_iff_eq

theorem magnitude_pos {x : Bin64} (h : isZero x = false) : 0 < magnitude x := by
  rw [magnitude_eq]
  have h0 : 0 < magBits x := by
    rcases Nat.eq_zero_or_pos (magBits x) with h' | h'
    · rw [isZero_iff.2 h'] at h; exact absurd h (by simp)
    · exact h'
  have := magOf_strictMono h0
  rwa [magOf_zero] at this

theorem isZero_iff_val {x : Bin64} : isZero x = true ↔ val x = 0 := by
  constructor
  · intro h
    unfold val units
    rw [magnitude_eq, isZero_iff.1 h, magOf_zero]
    simp
  · intro h
    by_contra h'
    rw [Bool.not_eq_true] at h'
    have hm : (0 : ℚ) < magnitude x := by exact_mod_cast magnitude_pos h'
    have := unit_pos
    rw [val_eq_sign_mul] at h
    have hp : (0 : ℚ) < magnitude x * unit := by positivity
    cases hs : signBit x <;> simp only [hs, Bool.false_eq_true, if_true, if_false] at h <;> linarith

/-- The quotient of two finite values, the divisor not zero, is the rounding of the exact quotient. -/
theorem rounds_div {x y : Bin64} (hx : isFinite x = true) (hy : isFinite y = true) (h0 : val y ≠ 0) :
    Rounds (val x / val y) (div x y) := by
  have hz : isZero y = false := by rw [← Bool.not_eq_true, isZero_iff_val]; exact h0
  have hm := magnitude_pos hz
  have hm' : (0 : ℚ) < magnitude y := by exact_mod_cast hm
  have h := rounds_pack (signBit x != signBit y) (magnitude x * 2 ^ 1074) hm
  have hu : unit ≠ 0 := unit_pos.ne'
  have e : ∀ a b P u : ℚ, u * P = 1 → 0 < b → u ≠ 0 → a * u / (b * u) = a * P / b * u := by
    intro a b P u h hb h0
    rw [mul_div_mul_right _ _ h0, div_mul_eq_mul_div, mul_assoc, mul_comm P, h, mul_one]
  have es : ∀ (s t : Bool) (a b : ℚ), (if s then -1 else 1) * a / ((if t then -1 else 1) * b) =
      (if s then -1 else 1) * (if t then -1 else 1) * (a / b) := by
    intro s t a b
    cases s <;> cases t <;> simp [neg_div, div_neg]
  have e' : val x / val y = (if (signBit x != signBit y) then -1 else 1) *
      (((magnitude x * 2 ^ 1074 : ℕ) : ℚ) / (magnitude y : ℚ) * unit) := by
    rw [val_eq_sign_mul, val_eq_sign_mul, sign_mul_sign, Nat.cast_mul, Nat.cast_pow, Nat.cast_ofNat, es,
      e _ _ _ _ unit_mul hm' hu]
  rw [e']
  unfold div
  rw [isNaN_of_isFinite hx, isNaN_of_isFinite hy, isInf_of_isFinite hx, isInf_of_isFinite hy, hz]
  exact h

/-! ### Bounds of a rounded result -/

/-- The value of a bit pattern, from its whole number of units. -/
theorem val_of_units {x : Bin64} {p q : Int} (hq : 0 < q) (h : units x * q = p * 2 ^ 1074) : val x = p / q := by
  have hq' : (q : ℚ) ≠ 0 := by exact_mod_cast hq.ne'
  have h' : (units x : ℚ) * q = p * 2 ^ 1074 := by exact_mod_cast h
  rw [eq_div_iff hq', val, mul_right_comm, h', mul_assoc, mul_comm _ unit, unit_mul, mul_one]

theorem magBits_eq_key (x : Bin64) : magBits x = (key x).natAbs := by
  unfold key
  change _ = (if signBit x then -((magBits x : Nat) : Int) else ((magBits x : Nat) : Int)).natAbs
  split <;> simp

/-- What lies between two finite values is finite. -/
theorem isFinite_of_between {a b x : Bin64} (ha : isFinite a = true) (hb : isFinite b = true)
    (h1 : le a x = true) (h2 : le x b = true) : isFinite x = true := by
  have hx : isNaN x = false := by
    simp only [le, Bool.and_eq_true, Bool.not_eq_true'] at h1; exact h1.1.2
  rw [le_iff_key (isNaN_of_isFinite ha) hx] at h1
  rw [le_iff_key hx (isNaN_of_isFinite hb)] at h2
  have h3 := key_natAbs_lt ha
  have h4 := key_natAbs_lt hb
  rw [isFinite_iff, magBits_eq_key]
  omega

/-- A finite value in a closed range of values. -/
def Within (a b : ℚ) (x : Bin64) : Prop := isFinite x = true ∧ a ≤ val x ∧ val x ≤ b

theorem Within.mono {a b a' b' : ℚ} {x : Bin64} (h : Within a b x) (ha : a' ≤ a) (hb : b ≤ b') : Within a' b' x :=
  ⟨h.1, ha.trans h.2.1, h.2.2.trans hb⟩

/-- Bounds by representable values carry over to the rounded result. -/
theorem Rounds.within {q : ℚ} {r : Bin64} (h : Rounds q r) (lo hi : Bin64) (hlo : isFinite lo = true)
    (hhi : isFinite hi = true) (h1 : val lo ≤ q) (h2 : q ≤ val hi) : Within (val lo) (val hi) r := by
  have a := h.ge_of lo hlo h1
  have b := h.le_of hi hhi h2
  have hf := isFinite_of_between hlo hhi a b
  exact ⟨hf, (le_iff hlo hf).1 a, (le_iff hf hhi).1 b⟩

/-- The rounding of 0 is 0. -/
theorem Rounds.eq_zero {r : Bin64} (h : Rounds 0 r) : isFinite r = true ∧ val r = 0 := by
  have h0 : val 0 = 0 := isZero_iff_val.1 rfl
  have hw := h.within 0 0 rfl rfl h0.le h0.ge
  exact ⟨hw.1, le_antisymm (hw.2.2.trans h0.le) (h0.ge.trans hw.2.1)⟩

/-- A positive value is at least one unit. -/
theorem unit_le_of_pos {x : Bin64} (h : 0 < val x) : unit ≤ val x := by
  unfold val at h ⊢
  have h1 : (0 : ℚ) < units x := by
    rcases lt_or_ge 0 (units x : ℚ) with h' | h'
    · exact h'
    · have := mul_nonpos_of_nonpos_of_nonneg h' unit_pos.le; linarith
  have h2 : (1 : ℚ) ≤ units x := by exact_mod_cast (by exact_mod_cast h1 : (0 : Int) < units x)
  nlinarith [unit_pos]

/-- One unit is very small. -/
theorem unit_le : unit ≤ 1 / 2 ^ 200 := by
  have h := unit_mul
  have e : (2 : ℚ) ^ 1074 = 2 ^ 200 * 2 ^ 874 := by rw [← pow_add]
  have h1 : (1 : ℚ) ≤ 2 ^ 874 := one_le_pow₀ one_le_two
  rw [e, ← mul_assoc] at h
  rw [le_div_iff₀ (by positivity), ← h]
  exact le_mul_of_one_le_right (mul_nonneg unit_pos.le (by positivity)) h1

/-! ### The largest value, and some values -/

/-- The largest finite value. -/
noncomputable def top : ℚ := magOf (infBits - 1) * unit

theorem magOf_le {b : Nat} (h : b < infBits) : magOf b ≤ 2 ^ 53 * 2 ^ 2045 := by
  unfold infBits at h
  unfold magOf
  split
  · exact le_trans (by omega) (Nat.mul_le_mul_left (2 ^ 53) (Nat.one_le_two_pow (n := 2045)))
  · exact Nat.mul_le_mul (by omega) (Nat.pow_le_pow_right (by norm_num) (by omega))

/-- The largest value times the smallest. -/
theorem top_mul_unit : top * unit ≤ 1 / 2 ^ 50 := by
  have h := unit_mul
  have hu := unit_pos
  have h1 : (magOf (infBits - 1) : ℚ) ≤ 2 ^ 53 * 2 ^ 2045 := by
    exact_mod_cast magOf_le (b := infBits - 1) (by unfold infBits; omega)
  have e : (2 : ℚ) ^ 53 * 2 ^ 2045 * 2 ^ 50 = 2 ^ 1074 * 2 ^ 1074 := by rw [← pow_add, ← pow_add, ← pow_add]
  unfold top
  rw [le_div_iff₀ (by positivity)]
  generalize (2 : ℚ) ^ 1074 = P at *
  generalize (2 : ℚ) ^ 2045 = A at *
  calc (magOf (infBits - 1) : ℚ) * unit * unit * 2 ^ 50 ≤ 2 ^ 53 * A * unit * unit * 2 ^ 50 := by gcongr
    _ = 2 ^ 53 * A * 2 ^ 50 * (unit * unit) := by ring
    _ = (unit * P) * (unit * P) := by rw [e]; ring
    _ = 1 := by rw [h, one_mul]

theorem abs_val_le_top {x : Bin64} (h : isFinite x = true) : |val x| ≤ top := by
  have hu := unit_pos
  have hb : magBits x ≤ infBits - 1 := Nat.le_pred_of_lt (isFinite_iff.1 h)
  have h1 := magOf_strictMono.monotone hb
  have h2 : (magOf (magBits x) : ℚ) ≤ magOf (infBits - 1) := Nat.cast_le.2 h1
  rw [val_eq_sign_mul, magnitude_eq, abs_mul]
  have e : |(if signBit x = true then -1 else 1 : ℚ)| = 1 := by split <;> simp
  rw [e, one_mul, abs_of_nonneg (mul_nonneg (Nat.cast_nonneg _) hu.le)]
  exact mul_le_mul_of_nonneg_right h2 hu.le

/-- The error of a finite rounding, both cases at once. -/
theorem Rounds.approx {q : ℚ} {r : Bin64} (h : Rounds q r) (hf : isFinite r = true) :
    |val r - q| ≤ |q| / 2 ^ 53 + unit / 2 := by
  have hu := unit_pos
  have hq := abs_nonneg q
  have h53 : (0 : ℚ) ≤ |q| / 2 ^ 53 := by positivity
  rcases h.error hf with h | h
  · linarith
  · have : |val r - q| ≤ |q| / 2 ^ 53 := by rw [le_div_iff₀ (by positivity)]; linarith
    linarith

theorem val_zero : val 0 = 0 := isZero_iff_val.1 rfl
theorem val_one : val 0x3FF0000000000000 = 1 :=
  (val_of_units (p := 1) (q := 1) one_pos (by decide +kernel)).trans (by norm_num)
theorem val_two : val 0x4000000000000000 = 2 :=
  (val_of_units (p := 2) (q := 1) one_pos (by decide +kernel)).trans (by norm_num)
theorem val_four : val 0x4010000000000000 = 4 :=
  (val_of_units (p := 4) (q := 1) one_pos (by decide +kernel)).trans (by norm_num)
theorem val_eight : val 0x4020000000000000 = 8 :=
  (val_of_units (p := 8) (q := 1) one_pos (by decide +kernel)).trans (by norm_num)
theorem val_hundred : val 0x4059000000000000 = 100 :=
  (val_of_units (p := 100) (q := 1) one_pos (by decide +kernel)).trans (by norm_num)
theorem val_half : val 0x3FE0000000000000 = 1 / 2 :=
  (val_of_units (p := 1) (q := 2) two_pos (by decide +kernel)).trans (by norm_num)
theorem val_quarter : val 0x3FD0000000000000 = 1 / 4 :=
  (val_of_units (p := 1) (q := 4) four_pos (by decide +kernel)).trans (by norm_num)
theorem val_oneQuarter : val 0x3FF4000000000000 = 5 / 4 :=
  (val_of_units (p := 5) (q := 4) four_pos (by decide +kernel)).trans (by norm_num)
theorem val_negOne : val 0xBFF0000000000000 = -1 :=
  (val_of_units (p := -1) (q := 1) one_pos (by decide +kernel)).trans (by norm_num)

/-! ### Ranges and comparisons -/

theorem within_of_le {a b x : Bin64} (ha : isFinite a = true) (hb : isFinite b = true) (h1 : le a x = true)
    (h2 : le x b = true) : Within (val a) (val b) x :=
  have hf := isFinite_of_between ha hb h1 h2
  ⟨hf, (le_iff ha hf).1 h1, (le_iff hf hb).1 h2⟩

theorem Within.le_of {a b : Bin64} {x : Bin64} (h : Within (val a) (val b) x) (ha : isFinite a = true)
    (hb : isFinite b = true) : le a x = true ∧ le x b = true :=
  ⟨(le_iff ha h.1).2 h.2.1, (le_iff h.1 hb).2 h.2.2⟩

/-- A rounded value between 0 and a representable bound, with its error. -/
theorem Rounds.nonneg_le {q : ℚ} {r b : Bin64} (h : Rounds q r) (hb : isFinite b = true) (h0 : 0 ≤ q) (h1 : q ≤ val b) :
    Within 0 (val b) r ∧ |val r - q| ≤ q / 2 ^ 53 + unit / 2 := by
  have hw := h.within 0 b rfl hb (by rw [val_zero]; exact h0) h1
  rw [val_zero] at hw
  have := h.approx hw.1
  rw [abs_of_nonneg h0] at this
  exact ⟨hw, this⟩

theorem unit_le_of_ne {x : Bin64} {a b : ℚ} (h : Within a b x) (ha : 0 ≤ a) : val x = 0 ∨ unit ≤ val x := by
  rcases eq_or_lt_of_le (ha.trans h.2.1) with h0 | h0
  · exact .inl h0.symm
  · exact .inr (unit_le_of_pos h0)

theorem lt_eq_not_le {x y : Bin64} (hx : isFinite x = true) (hy : isFinite y = true) : lt x y = !le y x := by
  rw [Bool.eq_iff_iff, Bool.not_eq_true', ← Bool.not_eq_true, lt_iff hx hy, le_iff hy hx, not_le]

theorem le_eq_false {x y : Bin64} (hx : isFinite x = true) (hy : isFinite y = true) :
    le x y = false ↔ val y < val x := by
  rw [← Bool.not_eq_true, le_iff hx hy, not_le]

theorem lt_eq_false {x y : Bin64} (hx : isFinite x = true) (hy : isFinite y = true) :
    lt x y = false ↔ val y ≤ val x := by
  rw [← Bool.not_eq_true, lt_iff hx hy, not_lt]

theorem eq_eq_false {x y : Bin64} (hx : isFinite x = true) (hy : isFinite y = true) :
    eq x y = false ↔ val x ≠ val y := by
  rw [← Bool.not_eq_true, eq_iff hx hy]

end Sys2Proof.Machine.B64
end

