-- ==== Sys2Proof/Laws/Build.lean ====
section
/-! SUPPORT. The fields of the builds over binary64, so that no proof unfolds a build: `simp only` with them turns each
into the value or the operation of Machine/Binary64.lean. -/

namespace Sys2Proof.Machine

/-! ### `B64.sys` -/

theorem sys_negOne : B64.sys.negOne = 0xBFF0000000000000 := rfl
theorem sys_zero : B64.sys.zero = 0 := rfl
theorem sys_half : B64.sys.half = 0x3FE0000000000000 := rfl
theorem sys_one : B64.sys.one = 0x3FF0000000000000 := rfl
theorem sys_oneQuarter : B64.sys.oneQuarter = 0x3FF4000000000000 := rfl
theorem sys_two : B64.sys.two = 0x4000000000000000 := rfl
theorem sys_three : B64.sys.three = 0x4008000000000000 := rfl
theorem sys_four : B64.sys.four = 0x4010000000000000 := rfl
theorem sys_hundred : B64.sys.hundred = 0x4059000000000000 := rfl
theorem sys_pi : B64.sys.pi = 0x400921FB54442D18 := rfl
theorem sys_add : B64.sys.add = B64.add := rfl
theorem sys_sub : B64.sys.sub = B64.sub := rfl
theorem sys_mul : B64.sys.mul = B64.mul := rfl
theorem sys_div : B64.sys.div = B64.div := rfl
theorem sys_lt : B64.sys.lt = B64.lt := rfl
theorem sys_le : B64.sys.le = B64.le := rfl
theorem sys_eq : B64.sys.eq = B64.eq := rfl
theorem sys_floor : B64.sys.floor = B64.floor := rfl
theorem sys_abs : B64.sys.abs = B64.abs := rfl

/-! ### `build` -/

theorem build_toNumSys : build.toNumSys = B64.sys := rfl
theorem build_cos : build.cos = cos := rfl
theorem build_freqMax : build.freqMax = freqMax := rfl
theorem build_maxSyncFreq : build.maxSyncFreq = maxSyncFreq := rfl
theorem build_syncPhaseInc : build.syncPhaseInc = syncPhaseInc := rfl
theorem build_tz : build.tz = false := rfl

/-! ### `throughZero` -/

theorem throughZero_toNumSys : throughZero.toNumSys = B64.sys := rfl
theorem throughZero_cos : throughZero.cos = cos := rfl
theorem throughZero_freqMax : throughZero.freqMax = freqMax := rfl
theorem throughZero_maxSyncFreq : throughZero.maxSyncFreq = maxSyncFreq := rfl
theorem throughZero_syncPhaseInc : throughZero.syncPhaseInc = syncPhaseInc := rfl
theorem throughZero_tz : throughZero.tz = true := rfl

end Sys2Proof.Machine
end

