-- ==== Sys2Proof/Laws/Numeric.lean ====
section
/-! SUPPORT. What the numeric helpers can answer, and the constraints the open parameters keep (spec 00_scope.md R13, R14,
R16, R17; 40_config_commands.md R96, R97). -/

namespace Sys2Proof.Machine

open Config

variable {α : Type}

/-- `clamp` answers its operand, where that is in range, or one of the bounds (R13). -/
theorem clamp_cases (N : NumSys α) (x lo hi : α) :
    (clamp N x lo hi = x ∧ N.le lo x = true ∧ N.le x hi = true) ∨ (clamp N x lo hi = lo ∧ N.lt x lo = true) ∨
      (clamp N x lo hi = hi ∧ N.lt x lo = false) := by
  unfold clamp
  split
  · rename_i h
    simp only [Bool.and_eq_true] at h
    exact .inl ⟨rfl, h⟩
  · split
    · exact .inr (.inl ⟨rfl, ‹_›⟩)
    · exact .inr (.inr ⟨rfl, by simp_all⟩)

/-- `min` answers one of its operands (R14). -/
theorem nmin_cases (N : NumSys α) (a b : α) :
    (nmin N a b = a ∧ N.lt a b = true) ∨ (nmin N a b = b ∧ N.lt a b = false) := by
  unfold nmin; split <;> simp_all

/-- `max` answers one of its operands (R14). -/
theorem nmax_cases (N : NumSys α) (a b : α) :
    (nmax N a b = a ∧ N.lt b a = true) ∨ (nmax N a b = b ∧ N.lt b a = false) := by
  unfold nmax; split <;> simp_all

/-- `wdiv` divides, or answers 0 for a zero divisor (R17). -/
theorem wdiv_cases (N : NumSys α) (a b : α) :
    (wdiv N a b = N.zero ∧ N.eq b N.zero = true) ∨ (wdiv N a b = N.div a b ∧ N.eq b N.zero = false) := by
  unfold wdiv; split <;> simp_all

/-- `COS` of either zero is 1 (R16 property (c)). -/
theorem cos_of_isZero {x : Bin64} (hf : B64.isFinite x = true) (hz : B64.isZero x = true) : cos x = B64.sys.one := by
  simp [cos, hf, hz]

/-- `COS` of a finite argument is in `[-1, 1]` (R16 property (b)). -/
theorem cos_range {x : Bin64} (hf : B64.isFinite x = true) :
    B64.le B64.sys.negOne (cos x) = true ∧ B64.le (cos x) B64.sys.one = true := by
  simp only [cos, hf, if_true]
  split
  · decide
  · split
    · simp_all
    · decide

/-- `MAX_SYNC_FREQ` is positive and finite (R96). -/
theorem maxSyncFreq_range (ms sr : Bin64) :
    B64.lt B64.sys.zero (maxSyncFreq ms sr) = true ∧ B64.sys.belowInf (maxSyncFreq ms sr) = true := by
  unfold maxSyncFreq
  split
  · simp_all
  · decide

/-- `SYNC_PHASE_INC` is in `(0, PI]` (R97). -/
theorem syncPhaseInc_range (ms : Bin64) :
    B64.lt B64.sys.zero (syncPhaseInc ms) = true ∧ B64.le (syncPhaseInc ms) B64.sys.pi = true := by
  unfold syncPhaseInc
  split
  · simp_all
  · decide

end Sys2Proof.Machine
end

