-- ==== Sys2Proof/Laws/Ops.lean ====
section
/-! SUPPORT. What each shared operation can do, once: the provers cite these instead of unfolding the operation. -/

namespace Sys2Proof.Machine

open Config Sys2Proof.Safety

variable {α : Type}

/-! ### Responses (R68, R193) -/

/-- Raising a status writes the response port and nothing else (R193). -/
theorem raise_eq (st : Status) (s : State) :
    raise st s = .next (responded s s.regs (rspFrameOf st false 0)) := rfl

/-- Completing a command writes the registers and the response port (R68). -/
theorem complete_eq (r : Regs Bin64) (so : Bool) (v : Bin64) (s : State) :
    complete r so v s = .next (responded s r (rspFrameOf .ok so v)) := rfl

/-! ### `SameConfig` is an equivalence in use -/

theorem SameConfig.rfl' (r : Regs α) : SameConfig r r := by simp [SameConfig]

theorem SameConfig.trans' {a b c : Regs α} (h : SameConfig a b) (k : SameConfig b c) : SameConfig a c := by
  simp_all [SameConfig]

/-! ### Hard sync (R151 to R154) -/

/-- Arming does one of three things (R151): nothing, the snap of `phase` to 2, or the start of a ramp. -/
theorem arm_cases (B : Build α) (t : Bool) (f : α) (r : Regs α) :
    arm B t f r = r ∨
      (t = true ∧ syncActive B r = false ∧ B.eq r.warpedPhase B.two = true ∧ arm B t f r = { r with phase := B.two }) ∨
      (t = true ∧ syncActive B r = false ∧ B.eq r.warpedPhase B.two = false ∧ B.lt r.maxSyncFreq f = false ∧
        arm B t f r =
          { r with
            hardsyncIncrement := r.syncPhaseIncrement
            hardsyncPhase := B.div r.syncPhaseIncrement B.two }) := by
  unfold arm
  split
  · split
    · exact .inl rfl
    · split
      · exact .inr (.inl ⟨‹_›, by simp_all, ‹_›, rfl⟩)
      · split
        · exact .inl rfl
        · exact .inr (.inr ⟨‹_›, by simp_all, by simp_all, by simp_all, rfl⟩)
  · exact .inl rfl

/-- Arming leaves the configuration alone (R151). -/
theorem arm_sameConfig (B : Build α) (t : Bool) (f : α) (r : Regs α) : SameConfig r (arm B t f r) := by
  rcases arm_cases B t f r with h | ⟨_, _, _, h⟩ | ⟨_, _, _, _, h⟩ <;> rw [h] <;> simp [SameConfig]

/-- The ramp's advance does one of three things (R153): nothing, the hold at `PI`, or one increment. -/
theorem rampAdvance_cases (B : Build α) (r : Regs α) :
    (syncActive B r = false ∧ rampAdvance B r = r) ∨
      (syncActive B r = true ∧ B.le B.pi (B.add r.hardsyncPhase r.hardsyncIncrement) = true ∧
        rampAdvance B r = { r with hardsyncPhase := B.pi, hardsyncIncrement := B.zero }) ∨
      (syncActive B r = true ∧ B.le B.pi (B.add r.hardsyncPhase r.hardsyncIncrement) = false ∧
        rampAdvance B r = { r with hardsyncPhase := B.add r.hardsyncPhase r.hardsyncIncrement }) := by
  unfold rampAdvance
  split
  · split
    · exact .inr (.inl ⟨‹_›, ‹_›, rfl⟩)
    · exact .inr (.inr ⟨‹_›, by simp_all, rfl⟩)
  · exact .inl ⟨by simp_all, rfl⟩

/-- The ramp's advance leaves the configuration and the clocks alone (R153). -/
theorem rampAdvance_frame (B : Build α) (r : Regs α) :
    SameConfig r (rampAdvance B r) ∧ (rampAdvance B r).phase = r.phase ∧
      (rampAdvance B r).warpedPhase = r.warpedPhase := by
  rcases rampAdvance_cases B r with ⟨_, h⟩ | ⟨_, _, h⟩ | ⟨_, _, h⟩ <;> rw [h] <;> simp [SameConfig]

/-! ### Through-zero (R180, R182) -/

/-- Without the extension the sign test does nothing (R180). -/
theorem signTest_off (B : Build α) (h : B.tz = false) (x : α) (r : Regs α) : signTest B x r = r := by
  simp [signTest, h]

/-! ### Paths (R116 to R128) -/

/-- What a path writes: the two clocks at most, of which a flat writes neither. -/
theorem emitted_frame (B : Build α) (f inc : α) (g : Geometry α) (r : Regs α) :
    SameButClocks r (if onFastPath B r f then fastPath B inc r else normalPath B inc g r).regs := by
  simp only [fastPath, normalPath, sweepDown, sweepUp, flatLow, flatHigh, reconcile]
  split
  · simp [SameButClocks, SameConfig]
  · split
    · simp only; split <;> simp [SameButClocks, SameConfig]
    · simp [SameButClocks, SameConfig]
    · simp only; split <;> simp [SameButClocks, SameConfig]
    · simp [SameButClocks, SameConfig]

/-- A STEP emits a value of `COS`, `-1` or `+1` (R134). -/
theorem emitted_sample (B : Build α) (f inc : α) (g : Geometry α) (r : Regs α) :
    (∃ w, (if onFastPath B r f then fastPath B inc r else normalPath B inc g r).sample = cosPi B w) ∨
      (if onFastPath B r f then fastPath B inc r else normalPath B inc g r).sample = B.negOne ∨
      (if onFastPath B r f then fastPath B inc r else normalPath B inc g r).sample = B.one := by
  simp only [fastPath, normalPath, sweepDown, sweepUp, flatLow, flatHigh]
  split
  · exact .inl ⟨_, rfl⟩
  · split
    · exact .inl ⟨_, rfl⟩
    · exact .inr (.inl rfl)
    · exact .inl ⟨_, rfl⟩
    · exact .inr (.inr rfl)

/-! ### Wrap (R130 to R133) -/

/-- The wrap check does one of three things (R130, R131 to R133). -/
theorem wrap_cases (B : Build α) (f inc : α) (g : Geometry α) (r : Regs α) :
    (wrapDue B r = false ∧ wrap B f inc g r = r) ∨
      (wrapDue B r = true ∧ syncActive B r = true ∧ wrap B f inc g r = wrapSync B r) ∨
      (wrapDue B r = true ∧ syncActive B r = false ∧ wrap B f inc g r = wrapPlain B f inc g r) := by
  unfold wrap
  split
  · split
    · exact .inr (.inl ⟨‹_›, ‹_›, rfl⟩)
    · exact .inr (.inr ⟨‹_›, by simp_all, rfl⟩)
  · exact .inl ⟨by simp_all, rfl⟩

/-- The wrap leaves the configuration alone. -/
theorem wrap_sameConfig (B : Build α) (f inc : α) (g : Geometry α) (r : Regs α) :
    SameConfig r (wrap B f inc g r) := by
  rcases wrap_cases B f inc g r with ⟨_, h⟩ | ⟨_, _, h⟩ | ⟨_, _, h⟩ <;> rw [h] <;>
    simp [SameConfig, wrapSync, wrapPlain]

/-! ### Seeding (R169, R171) -/

/-- Seeding writes the two clocks and nothing else (R170). -/
theorem seed_frame (B : Build α) (ph f c k : α) (r : Regs α) : SameButClocks r (seed B ph f c k r) := by
  simp only [seed, seedAt]
  split
  · simp [SameButClocks, SameConfig]
  · repeat' split
    all_goals simp [SameButClocks, SameConfig]

end Sys2Proof.Machine
end

