-- ==== Sys2Proof/Laws/Shaping.lean ====
section
/-! SUPPORT. What each path and segment of STEP does, over any build, under the tests that select it (spec
41_step_phase_shaping.md R115 to R133). The provers cite these with the tests as hypotheses. -/

namespace Sys2Proof.Machine

open Config

variable {α : Type} {B : Build α} {f inc : α} {g : Geometry α} {r : Regs α}

/-! ### Segments (R118 to R128) -/

theorem normalPath_of_sweepDown (h : B.lt r.warpedPhase B.one = true) :
    normalPath B inc g r = sweepDown B inc g r := by
  simp [normalPath, classify, h]

theorem normalPath_of_flatLow (h1 : B.lt r.warpedPhase B.one = false) (h2 : B.eq r.warpedPhase B.one = true)
    (h3 : B.lt r.phase g.mid = true) : normalPath B inc g r = { sample := B.negOne, regs := r } := by
  simp [normalPath, classify, flatLow, h1, h2, h3]

theorem normalPath_of_sweepUp (h1 : B.lt r.warpedPhase B.one = false)
    (h2 : B.eq r.warpedPhase B.one = true → B.lt r.phase g.mid = false) (h3 : B.lt r.warpedPhase B.two = true) :
    normalPath B inc g r = sweepUp B inc g r := by
  have h : (B.eq r.warpedPhase B.one && B.lt r.phase g.mid) = false := by
    cases he : B.eq r.warpedPhase B.one
    · rfl
    · rw [h2 he]; rfl
  simp [normalPath, classify, h1, h, h3]

theorem normalPath_of_flatHigh (h1 : B.lt r.warpedPhase B.one = false) (h2 : B.eq r.warpedPhase B.one = false)
    (h3 : B.lt r.warpedPhase B.two = false) : normalPath B inc g r = { sample := B.one, regs := r } := by
  simp [normalPath, classify, flatHigh, h1, h2, h3]

/-- A sweep-down whose advance `w` stays within it (R119). -/
theorem sweepDown_inside {w : α} (hw : w = warpAdvance B inc g.dlen r r.warpedPhase) (h : B.lt B.one w = false) :
    sweepDown B inc g r = { sample := cosPi B r.warpedPhase, regs := { r with warpedPhase := w } } := by
  subst hw; simp [sweepDown, h]

/-- A sweep-down whose advance `w` passes 1 (R120, R121). -/
theorem sweepDown_past {w : α} (hw : w = warpAdvance B inc g.dlen r r.warpedPhase) (h : B.lt B.one w = true) :
    sweepDown B inc g r =
      { sample := cosPi B r.warpedPhase
        regs := reconcile B inc B.one g.dlen g.dlen (B.sub g.mid g.dlen) g.ulen w r } := by
  subst hw; simp [sweepDown, h]

/-- A sweep-up from `w0` (R123) whose advance `w` stays within it (R124). -/
theorem sweepUp_inside {w0 w : α} (h0 : w0 = sweepUpEntry B inc g r) (hw : w = warpAdvance B inc g.ulen r w0)
    (h : B.lt B.two w = false) :
    sweepUp B inc g r = { sample := cosPi B w0, regs := { r with warpedPhase := w } } := by
  subst hw h0; simp [sweepUp, h]

/-- A sweep-up from `w0` (R123) whose advance `w` passes 2 (R125, R126). -/
theorem sweepUp_past {w0 w : α} (h0 : w0 = sweepUpEntry B inc g r) (hw : w = warpAdvance B inc g.ulen r w0)
    (h : B.lt B.two w = true) :
    sweepUp B inc g r =
      { sample := cosPi B w0
        regs := reconcile B inc B.two g.ulen (B.add g.mid g.ulen) (B.sub B.two (B.add g.mid g.ulen)) g.dlen w r } := by
  subst hw h0; simp [sweepUp, h]

/-! ### Wrap (R130 to R133) -/

theorem wrap_not_due (h : wrapDue B r = false) : wrap B f inc g r = r := by simp [wrap, h]

theorem wrap_plain_normal (h : wrapDue B r = true) (hs : syncActive B r = false) (hf : onFastPath B r f = false) :
    wrap B f inc g r =
      { r with
        phase := wrapRemainder B inc r.phase
        warpedPhase := wdiv B.toNumSys (wrapRemainder B inc r.phase) g.dlen } := by
  simp [wrap, wrapPlain, h, hs, hf]

theorem wrap_plain_fast (h : wrapDue B r = true) (hs : syncActive B r = false) (hf : onFastPath B r f = true) :
    wrap B f inc g r =
      { r with phase := wrapRemainder B inc r.phase, warpedPhase := wrapRemainder B inc r.phase } := by
  simp [wrap, wrapPlain, h, hs, hf]

theorem wrap_sync (h : wrapDue B r = true) (hs : syncActive B r = true) :
    wrap B f inc g r = wrapSync B r := by
  simp [wrap, h, hs]

/-! ### The end of a STEP without a sync: the response and the registers, by whether the wrap is due -/

/-- A STEP that ends with registers `r` before its wrap check, which is not due. -/
theorem advance_end_not_due {ci si : α} {e : Emitted α} {r0 : Regs α} (he :
      (if onFastPath B r0 f then fastPath B (phaseIncrement B r0 f) r0
        else normalPath B (phaseIncrement B r0 f) (geometry B r0 (phaseIncrement B r0 f) ci si) r0) = e)
    (hr : r = advancePhase B (phaseIncrement B r0 f) e.regs) (h : wrapDue B r = false) :
    advance B f ci si r0 = { regs := r, syncOut := false, sample := e.sample } := by
  subst hr he
  simp [advance, h, wrap_not_due h]

/-- A STEP that ends with registers `r` before its wrap check, which is due. -/
theorem advance_end_due {ci si : α} {e : Emitted α} {r0 : Regs α} (he :
      (if onFastPath B r0 f then fastPath B (phaseIncrement B r0 f) r0
        else normalPath B (phaseIncrement B r0 f) (geometry B r0 (phaseIncrement B r0 f) ci si) r0) = e)
    (hr : r = advancePhase B (phaseIncrement B r0 f) e.regs) (h : wrapDue B r = true) :
    advance B f ci si r0 =
      { regs := wrap B f (phaseIncrement B r0 f) (geometry B r0 (phaseIncrement B r0 f) ci si) r
        syncOut := true
        sample := e.sample } := by
  subst hr he
  simp [advance, h]

end Sys2Proof.Machine
end

