-- ==== Sys2Proof/Laws/Clocks.lean ====
section
/-! SUPPORT. The clocks of the core in binary64 (spec 00_scope.md R14, 41_step_phase_shaping.md R138 (g)): whatever the
rounding does, STEP, SETPHASE and CONFIG keep both clocks of a configured core finite and in `ClockRange`
(`oscStep_clocks`, `seed_clocks`), and a STEP from such clocks emits a sample in `[-1, 1]` (`oscStep_sample_range`). The
lemmas before them say, each for one operation of the rules, what bounds its rounded result has. -/

namespace Sys2Proof.Machine

open Config Sys2Proof.Safety B64

/-- What the derived constants of a configured core are worth: `M` and `S` are the values of `min_sweep` and
`sample_rate`. -/
structure ConstantValues (r : Regs Bin64) (M S : ℚ) : Prop where
  four_le : 4 ≤ M
  le_hundred : M ≤ 100
  rate_pos : 0 < S
  minSweep : isFinite r.minSweep = true ∧ val r.minSweep = M
  maxWarpInc : Within 0 (1 / 4) r.maxWarpInc
  phaseIncPerHz : isFinite r.phaseIncPerHz = true ∧ 0 < val r.phaseIncPerHz ∧ val r.phaseIncPerHz ≤ 2 / S * (101 / 100)
  maxSweepFreq : isFinite r.maxSweepFreq = true ∧ val r.maxSweepFreq ≤ S / (2 * M) * (101 / 100)
  freqMax : isFinite r.freqMax = true ∧ 0 ≤ val r.freqMax ∧ val r.freqMax ≤ S / 2 * (101 / 100)
  maxSyncFreq : isFinite r.maxSyncFreq = true ∧ 0 < val r.maxSyncFreq

theorem isFinite_of_lt_inf {x : Bin64} (h0 : B64.le 0 x = true) (h : B64.lt x 0x7FF0000000000000 = true) :
    isFinite x = true := by
  have hx : isNaN x = false := by simp only [B64.le, Bool.and_eq_true, Bool.not_eq_true'] at h0; exact h0.1.2
  rw [le_iff_key rfl hx] at h0
  simp only [B64.lt, Bool.and_eq_true, decide_eq_true_eq] at h
  have h1 := h.2
  rw [show key 0x7FF0000000000000 = (infBits : Int) from rfl] at h1
  rw [show key 0 = 0 from rfl] at h0
  rw [isFinite_iff, magBits_eq_key]
  omega

theorem le_of_lt' {x y : Bin64} (h : B64.lt x y = true) : B64.le x y = true := by
  simp only [B64.lt, B64.le, Bool.and_eq_true, decide_eq_true_eq] at h ⊢
  exact ⟨h.1, h.2.le⟩

/-- The arithmetic of a positive rate: `u` is the unit and `T` the largest value. -/
theorem rate_small {S u T p : ℚ} (hS : 0 < S) (hu : 0 < u) (hT : T * u ≤ 1 / 2 ^ 50) (hST : S ≤ T) (hpT : p ≤ T)
    (he : |p - 2 / S| ≤ 2 / S / 2 ^ 53 + u / 2) :
    u ≤ 1 / S ∧ u ≤ S / 10 ^ 10 ∧ p ≤ 2 / S * (101 / 100) := by
  have hi : 0 < 1 / S := by positivity
  have e : 2 / S = 2 * (1 / S) := by ring
  have h1 : u ≤ 1 / S * (1 / 2 ^ 50) := by
    have : u * S ≤ 1 / 2 ^ 50 := le_trans (by nlinarith) hT
    calc u = u * S * (1 / S) := by field_simp
      _ ≤ 1 / 2 ^ 50 * (1 / S) := by gcongr
      _ = _ := mul_comm _ _
  rw [e] at he ⊢
  obtain ⟨ha, hb⟩ := abs_le.1 he
  have h2 : 1 / S ≤ T := by nlinarith
  have h3 : u * (1 / S) ≤ 1 / 2 ^ 50 := le_trans (by nlinarith) hT
  have h4 : u ≤ 1 / 2 ^ 50 * S := by
    calc u = u * (1 / S) * S := by field_simp
      _ ≤ 1 / 2 ^ 50 * S := by gcongr
  refine ⟨by linarith, ?_, by linarith⟩
  calc u ≤ 1 / 2 ^ 50 * S := h4
    _ ≤ S / 10 ^ 10 := by linarith

theorem quotient_le {S M D u : ℚ} (hS : 0 < S) (hM : 4 ≤ M) (hM' : M ≤ 100) (hD : 2 * M * (999 / 1000) ≤ D)
    (hu : u ≤ S / 10 ^ 10) : S / D + (S / D / 2 ^ 53 + u / 2) ≤ S / (2 * M) * (101 / 100) := by
  have h1 : S / D ≤ S / (2 * M) * (1000 / 999) := by
    rw [div_mul_div_comm, div_le_div_iff₀ (by linarith) (by linarith)]
    nlinarith
  have h2 : S / 200 ≤ S / (2 * M) := by gcongr; linarith
  linarith

theorem constantValues {r : Regs Bin64} (h : ConstantsAgree build r) :
    ∃ M S, ConstantValues r M S := by
  obtain ⟨h4, h100, hl, hw, hp, hs, hf, hy, _⟩ := h
  simp only [build_toNumSys, build_freqMax, build_maxSyncFreq, sys_four, sys_hundred, sys_one, sys_two, sys_zero,
    sys_div, sys_mul, sys_le, sys_lt, sampleRateLegal, Bool.and_eq_true,
    show ∀ x, B64.sys.belowInf x = B64.lt x 0x7FF0000000000000 from fun _ => rfl] at h4 h100 hl hw hp hs hf hy
  obtain ⟨⟨hl1, hl2⟩, hl3⟩ := hl
  have wM := within_of_le rfl rfl h4 h100
  rw [val_four, val_hundred] at wM
  obtain ⟨fM, hM4, hM100⟩ := wM
  have fS := isFinite_of_lt_inf (le_of_lt' hl1) hl2
  have hS := (lt_iff rfl fS).1 hl1
  rw [val_zero] at hS
  have hu := unit_pos
  have hu' := unit_le
  -- phase_inc_per_hz
  have rp := rounds_div (x := 0x4000000000000000) rfl fS hS.ne'
  rw [val_two] at rp
  have fp := isFinite_of_lt_inf (rp.ge_of 0 rfl (by rw [val_zero]; positivity)) hl3
  have hrate := rate_small (p := val (B64.div 0x4000000000000000 r.sampleRate)) hS hu top_mul_unit
    (le_trans (le_abs_self _) (abs_val_le_top fS)) (le_trans (le_abs_self _) (abs_val_le_top fp))
    (by have := rp.approx fp; rwa [abs_of_pos (div_pos two_pos hS)] at this)
  obtain ⟨hu1, hu2, hpu⟩ := hrate
  have hp0 : 0 < val (B64.div 0x4000000000000000 r.sampleRate) := by
    have v1 : val 1 = unit := by
      unfold val; rw [show units 1 = 1 from by decide +kernel]; simp
    have := (le_iff rfl fp).1 (rp.ge_of 1 rfl (by
      rw [v1]; refine hu1.trans ?_; gcongr; norm_num))
    rw [v1] at this
    exact hu.trans_le this
  -- 2 * min_sweep
  have rD := rounds_mul (x := 0x4000000000000000) (y := r.minSweep) rfl fM
  rw [val_two] at rD
  have r200 : isFinite 0x4069000000000000 = true := rfl
  have v200 : val 0x4069000000000000 = 200 :=
    (val_of_units (p := 200) (q := 1) one_pos (by decide +kernel)).trans (by norm_num)
  obtain ⟨wD, eD⟩ := rD.nonneg_le r200 (by linarith) (by rw [v200]; linarith)
  rw [v200] at wD
  obtain ⟨fD, hD0, hD1⟩ := wD
  obtain ⟨eD1, eD2⟩ := abs_le.1 eD
  generalize hDd : B64.mul 0x4000000000000000 r.minSweep = D at *
  have hDM : 2 * val r.minSweep * (999 / 1000) ≤ val D := by
    have : (1 : ℚ) / 2 ^ 200 ≤ 1 / 10 := by norm_num
    linarith
  have hD8 : 1 < val D := by linarith
  -- max_sweep_freq
  have rs := rounds_div fS fD (by linarith)
  have hSD : val r.sampleRate / val D ≤ val r.sampleRate := div_le_self hS.le hD8.le
  obtain ⟨ws, es⟩ := rs.nonneg_le fS (by positivity) hSD
  -- freq_max
  have rf := rounds_div (x := r.sampleRate) (y := 0x4000000000000000) fS rfl (by rw [val_two]; norm_num)
  rw [val_two] at rf
  obtain ⟨wf, ef⟩ := rf.nonneg_le fS (by linarith) (by linarith)
  -- max_warp_inc
  have rw' := rounds_div (x := 0x3FF0000000000000) (y := r.minSweep) rfl fM (by linarith)
  rw [val_one] at rw'
  obtain ⟨ww, _⟩ := rw'.nonneg_le (b := 0x3FD0000000000000) rfl (by positivity)
    (by rw [val_quarter]; exact one_div_le_one_div_of_le four_pos hM4)
  rw [val_quarter] at ww
  -- max_sync_freq
  obtain ⟨hy0, hy1⟩ := maxSyncFreq_range r.minSweep r.sampleRate
  have fy : isFinite (maxSyncFreq r.minSweep r.sampleRate) = true := isFinite_of_lt_inf (le_of_lt' hy0) hy1
  have hy2 := (lt_iff (x := 0) rfl fy).1 hy0
  rw [val_zero] at hy2
  refine ⟨val r.minSweep, val r.sampleRate, hM4, hM100, hS, ⟨fM, rfl⟩, hw ▸ ww, hp ▸ ⟨fp, hp0, hpu⟩,
    hs ▸ ⟨ws.1, ?_⟩, hf ▸ ⟨wf.1, wf.2.1, ?_⟩, hy ▸ ⟨fy, hy2⟩⟩
  · have := quotient_le hS hM4 hM100 hDM hu2
    linarith [(abs_le.1 es).2]
  · have := (abs_le.1 ef).2
    change val (B64.div r.sampleRate 0x4000000000000000) ≤ _
    linarith

/-- The increment of a frequency below `max_sweep_freq` (R114, R115): at most a little over `1 / min_sweep`. -/
theorem increment_normal {r : Regs Bin64} {M S : ℚ} (h : ConstantValues r M S) {f : Bin64} (hf : isFinite f = true)
    (h0 : 0 ≤ val f) (h1 : val f ≤ val r.maxSweepFreq) :
    Within 0 (1 / 2) (B64.mul r.phaseIncPerHz f) ∧ val (B64.mul r.phaseIncPerHz f) * M ≤ 103 / 100 := by
  obtain ⟨hp, hp0, hp1⟩ := h.phaseIncPerHz
  obtain ⟨hs, hs1⟩ := h.maxSweepFreq
  have hM := h.four_le
  have hM' := h.le_hundred
  have hS := h.rate_pos
  have hu' := unit_le
  have hq : val r.phaseIncPerHz * val f * M ≤ 10201 / 10000 := by
    calc val r.phaseIncPerHz * val f * M
        ≤ (2 / S * (101 / 100)) * (S / (2 * M) * (101 / 100)) * M := by gcongr; exact h1.trans hs1
      _ = 10201 / 10000 := by field_simp; norm_num
  have hq0 : 0 ≤ val r.phaseIncPerHz * val f := mul_nonneg hp0.le h0
  have hr := rounds_mul hp hf
  generalize val r.phaseIncPerHz * val f = q at *
  have hq1 : q ≤ 10201 / 40000 := by nlinarith
  obtain ⟨hw, he⟩ := hr.nonneg_le (b := 0x3FE0000000000000) rfl hq0 (by rw [val_half]; linarith)
  rw [val_half] at hw
  refine ⟨hw, ?_⟩
  have h3 := (abs_le.1 he).2
  have h4 : (1 : ℚ) / 2 ^ 200 ≤ 1 / 10 ^ 10 := by norm_num
  nlinarith

/-- The increment of a clamped frequency (R95, R114): at most a little over 1. -/
theorem increment_fast {r : Regs Bin64} {M S : ℚ} (h : ConstantValues r M S) {f : Bin64} (hf : isFinite f = true)
    (h0 : 0 ≤ val f) (h1 : val f ≤ val r.freqMax) : Within 0 2 (B64.mul r.phaseIncPerHz f) := by
  obtain ⟨hp, hp0, hp1⟩ := h.phaseIncPerHz
  obtain ⟨hs, _, hs1⟩ := h.freqMax
  have hS := h.rate_pos
  have hq : val r.phaseIncPerHz * val f ≤ 2 := by
    calc val r.phaseIncPerHz * val f
        ≤ (2 / S * (101 / 100)) * (S / 2 * (101 / 100)) := by gcongr; exact h1.trans hs1
      _ = 10201 / 10000 := by field_simp; norm_num
      _ ≤ 2 := by norm_num
  have := ((rounds_mul hp hf).nonneg_le (b := 0x4000000000000000) rfl (mul_nonneg hp0.le h0) (by rwa [val_two])).1
  rwa [val_two] at this

theorem nmax_val {x y : Bin64} (hx : isFinite x = true) (hy : isFinite y = true) :
    isFinite (nmax B64.sys x y) = true ∧ val (nmax B64.sys x y) = max (val x) (val y) := by
  rcases nmax_cases B64.sys x y with ⟨h, hl⟩ | ⟨h, hl⟩ <;> rw [h]
  · exact ⟨hx, (max_eq_left ((lt_iff hy hx).1 hl).le).symm⟩
  · exact ⟨hy, (max_eq_right ((lt_eq_false hy hx).1 hl)).symm⟩

theorem nmin_val {x y : Bin64} (hx : isFinite x = true) (hy : isFinite y = true) :
    isFinite (nmin B64.sys x y) = true ∧ val (nmin B64.sys x y) = min (val x) (val y) := by
  rcases nmin_cases B64.sys x y with ⟨h, hl⟩ | ⟨h, hl⟩ <;> rw [h]
  · exact ⟨hx, (min_eq_left ((lt_iff hx hy).1 hl).le).symm⟩
  · exact ⟨hy, (min_eq_right ((lt_eq_false hx hy).1 hl)).symm⟩

/-- What the geometry of R117 keeps whatever the rounding does. -/
structure GeometryValues (inc : Bin64) (g : Geometry Bin64) : Prop where
  inc_range : Within 0 (1 / 2) inc
  mid : Within 0 2 g.mid
  dlen : Within 0 2 g.dlen
  ulen : Within 0 2 g.ulen
  inc_le_dlen : 3 * val inc ≤ val g.dlen
  inc_le_ulen : 3 * val inc ≤ val g.ulen
  /-- Either both flats are not negative, or both sweeps are long. -/
  flats : (val g.dlen ≤ val g.mid ∧ B64.le (B64.add g.mid g.ulen) 0x4000000000000000 = true) ∨
    (1 ≤ val g.dlen ∧ 1 ≤ val g.ulen)

/-- Half a unit in the last place of 2, from the error of a rounding between 0 and 2. -/
theorem error_to_two {q : ℚ} {r : Bin64} (h : Rounds q r) (h0 : 0 ≤ q) (h1 : q ≤ 2) :
    Within 0 2 r ∧ val r ≤ q + 1 / 2 ^ 52 := by
  have hw := (h.nonneg_le (b := 0x4000000000000000) rfl h0 (by rwa [val_two])).1
  rw [val_two] at hw
  have hu := unit_le
  refine ⟨hw, ?_⟩
  have h200 : (1 : ℚ) / 2 ^ 200 ≤ 1 / 2 ^ 52 := by norm_num
  rcases h.error hw.1 with h | h
  · have := (abs_le.1 (show |val r - q| ≤ unit / 2 by linarith)).2
    linarith
  · rw [abs_of_nonneg h0] at h
    have := (abs_le.1 (show |val r - q| ≤ q / 2 ^ 53 by rw [le_div_iff₀ (by positivity)]; linarith)).2
    linarith

theorem val_of_bits {x : Bin64} {b : Nat} (hs : signBit x = false) (hb : magBits x = b) :
    (magOf b : ℚ) * unit = val x := by
  rw [val_eq_sign_mul, magnitude_eq, hs, hb, if_neg Bool.false_ne_true, one_mul]

theorem val_after_two : val 0x4000000000000001 = 2 + 1 / 2 ^ 51 :=
  (val_of_units (p := 2 ^ 52 + 1) (q := 2 ^ 51) (by norm_num) (by decide +kernel)).trans (by norm_num)

/-- A sum up to half a unit in the last place past 2 rounds to 2 at most. -/
theorem le_two_of_tie {q : ℚ} {r : Bin64} (h : Rounds q r) (hq : q ≤ 2 + 1 / 2 ^ 52) :
    B64.le r 0x4000000000000000 = true := by
  have := h.tie 0x4000000000000000 (by norm_num) (by
    rw [add_mul, val_of_bits (x := 0x4000000000000000) (b := 0x4000000000000000) rfl rfl,
      val_of_bits (x := 0x4000000000000001) (b := 0x4000000000000000 + 1) rfl rfl,
      val_two, val_after_two]
    have : (2 : ℚ) * (1 / 2 ^ 52) = 1 / 2 ^ 51 := by norm_num
    linarith)
  rw [le_iff_key h.notNaN rfl]
  exact this

/-- Which of its three finite operands `clamp` answers (R13). -/
theorem clamp_val {x lo hi : Bin64} (hx : isFinite x = true) (hl : isFinite lo = true) (hh : isFinite hi = true) :
    (clamp B64.sys x lo hi = x ∧ val lo ≤ val x ∧ val x ≤ val hi) ∨
      (clamp B64.sys x lo hi = lo ∧ val x < val lo) ∨ (clamp B64.sys x lo hi = hi ∧ val lo ≤ val x) := by
  rcases clamp_cases B64.sys x lo hi with ⟨h, h1, h2⟩ | ⟨h, h1⟩ | ⟨h, h1⟩
  · exact .inl ⟨h, (le_iff hl hx).1 h1, (le_iff hx hh).1 h2⟩
  · exact .inr (.inl ⟨h, (lt_iff hx hl).1 h1⟩)
  · exact .inr (.inr ⟨h, (lt_eq_false hx hl).1 h1⟩)

/-- A product of a value in `[0, 1]` with one in `[0, 2]` is not above the second. -/
theorem mul_le_right {c x : Bin64} (hc : Within 0 1 c) (hx : Within 0 2 x) :
    Within 0 2 (B64.mul c x) ∧ val (B64.mul c x) ≤ val x := by
  have h := ((rounds_mul hc.1 hx.1).nonneg_le hx.1 (mul_nonneg hc.2.1 hx.2.1)
    (mul_le_of_le_one_left hx.2.1 hc.2.2)).1
  exact ⟨h.mono le_rfl hx.2.2, h.2.2⟩

theorem geometryValues {r : Regs Bin64} {M : ℚ} {inc ci si : Bin64} (hm : isFinite r.minSweep = true)
    (hM : val r.minSweep = M) (h4 : 4 ≤ M) (hi : Within 0 (1 / 2) inc) (hiM : val inc * M ≤ 103 / 100)
    (hc : Within 0 1 ci) (hs : Within 0 2 si) : GeometryValues inc (geometry build r inc ci si) := by
  have hu := unit_pos
  -- msf
  have rm := rounds_mul hi.1 hm
  rw [hM] at rm
  have hq : 0 ≤ val inc * M := mul_nonneg hi.2.1 (by linarith)
  obtain ⟨wm, em⟩ := rm.nonneg_le (b := 0x4000000000000000) rfl hq (by rw [val_two]; linarith)
  rw [val_two] at wm
  have hmi : 3 * val inc ≤ val (B64.mul inc r.minSweep) := by
    have h1 := (abs_le.1 em).1
    rcases unit_le_of_ne hi le_rfl with h0 | h0
    · rw [h0]; linarith [wm.2.1]
    · nlinarith
  generalize hmsf : B64.mul inc r.minSweep = msf at *
  -- 2 - msf
  have r2 := rounds_sub (x := 0x4000000000000000) (y := msf) rfl wm.1
  rw [val_two] at r2
  obtain ⟨w2, e2⟩ := error_to_two r2 (by linarith [wm.2.2]) (by linarith [wm.2.1])
  have h2one : val msf ≤ 1 → 1 ≤ val (B64.sub 0x4000000000000000 msf) := fun h => by
    have := (le_iff (x := 0x3FF0000000000000) rfl w2.1).1 (r2.ge_of 0x3FF0000000000000 rfl (by rw [val_one]; linarith))
    rwa [val_one] at this
  generalize hmsf2 : B64.sub 0x4000000000000000 msf = msf2 at *
  -- mid
  have wmid : Within 0 2 (clamp B64.sys si msf msf2) ∧
      (val msf ≤ 1 → val msf ≤ val (clamp B64.sys si msf msf2) ∧ val (clamp B64.sys si msf msf2) ≤ val msf2) := by
    rcases clamp_val hs.1 wm.1 w2.1 with ⟨h, h1, h2⟩ | ⟨h, h1⟩ | ⟨h, h1⟩ <;> rw [h]
    · exact ⟨hs, fun _ => ⟨h1, h2⟩⟩
    · exact ⟨wm, fun h => ⟨le_rfl, h.trans (h2one h)⟩⟩
    · exact ⟨w2, fun h => ⟨h.trans (h2one h), le_rfl⟩⟩
  obtain ⟨wmid, hmid⟩ := wmid
  have hg : geometry build r inc ci si =
      { msf := msf
        mid := clamp B64.sys si msf msf2
        dlen := nmax B64.sys (B64.mul ci (clamp B64.sys si msf msf2)) msf
        ulen := nmax B64.sys (B64.mul ci (B64.sub 0x4000000000000000 (clamp B64.sys si msf msf2))) msf } := by
    subst hmsf hmsf2; rfl
  rw [hg]
  generalize clamp B64.sys si msf msf2 = mid at *
  -- dlen, ulen
  have r3 := rounds_sub (x := 0x4000000000000000) (y := mid) rfl wmid.1
  rw [val_two] at r3
  obtain ⟨w3, e3⟩ := error_to_two r3 (by linarith [wmid.2.2]) (by linarith [wmid.2.1])
  obtain ⟨wd, ed⟩ := mul_le_right hc wmid
  obtain ⟨wu, eu⟩ := mul_le_right hc w3
  obtain ⟨fd, vd⟩ := nmax_val wd.1 wm.1
  obtain ⟨fu, vu⟩ := nmax_val wu.1 wm.1
  have rs := rounds_add wmid.1 fu
  refine ⟨hi, wmid, ⟨fd, ?_, ?_⟩, ⟨fu, ?_, ?_⟩, ?_, ?_, ?_⟩
  · rw [vd]; exact le_max_of_le_left wd.2.1
  · rw [vd]; exact max_le wd.2.2 wm.2.2
  · rw [vu]; exact le_max_of_le_left wu.2.1
  · rw [vu]; exact max_le wu.2.2 wm.2.2
  · rw [vd]; exact le_max_of_le_right hmi
  · rw [vu]; exact le_max_of_le_right hmi
  · by_cases h : val msf ≤ 1
    · obtain ⟨h1, h2⟩ := hmid h
      refine .inl ⟨?_, le_two_of_tie rs ?_⟩
      · rw [vd]; exact max_le ed h1
      · have := max_le (a := val (B64.mul ci (B64.sub 0x4000000000000000 mid))) (b := val msf)
          (c := 2 + 1 / 2 ^ 52 - val mid) (by linarith) (by linarith)
        rw [vu]; linarith
    · refine .inr ⟨?_, ?_⟩
      · rw [vd]; exact le_max_of_le_right (not_le.1 h).le
      · rw [vu]; exact le_max_of_le_right (not_le.1 h).le

/-- `wdiv` of a value between 0 and `n` times its divisor (R17). -/
theorem wdiv_val {x y b : Bin64} {n : ℚ} (hx : isFinite x = true) (h0 : 0 ≤ val x) (hy : isFinite y = true)
    (hy0 : 0 ≤ val y) (hxy : val x ≤ n * val y) (hn : 0 ≤ n) (hb : isFinite b = true) (hnb : n ≤ val b) :
    Within 0 (val b) (wdiv B64.sys x y) ∧
      val (wdiv B64.sys x y) * val y ≤ val x + val x / 2 ^ 53 + unit / 2 * val y := by
  have hu := unit_pos
  rcases wdiv_cases B64.sys x y with ⟨h, he⟩ | ⟨h, he⟩ <;> rw [h]
  · have : val y = 0 := by rw [← val_zero]; exact (eq_iff hy rfl).1 he
    refine ⟨⟨rfl, ?_, ?_⟩, ?_⟩
    · exact val_zero.ge
    · exact val_zero.le.trans (hn.trans hnb)
    · rw [this]
      have : 0 ≤ val x / 2 ^ 53 := by positivity
      linarith
  · have hne : val y ≠ 0 := by rw [← val_zero]; exact (eq_eq_false hy rfl).1 he
    have hp : 0 < val y := lt_of_le_of_ne hy0 hne.symm
    obtain ⟨hw, e⟩ := (rounds_div hx hy hne).nonneg_le hb (by positivity)
      (((div_le_iff₀ hp).2 hxy).trans hnb)
    refine ⟨hw, ?_⟩
    have h1 := (abs_le.1 e).2
    calc val (B64.div x y) * val y ≤ (val x / val y + (val x / val y / 2 ^ 53 + unit / 2)) * val y := by
          gcongr; linarith
      _ = _ := by field_simp; ring

/-- The advance of a sweep, `min(wdiv(inc, len), max_warp_inc)` (R119, R124). -/
theorem advance_val {inc len mwi : Bin64} (hi : Within 0 (1 / 2) inc) (hl : Within 0 2 len) (h3 : 3 * val inc ≤ val len)
    (hw : Within 0 (1 / 4) mwi) :
    Within 0 (1 / 4) (nmin B64.sys (wdiv B64.sys inc len) mwi) ∧
      val (nmin B64.sys (wdiv B64.sys inc len) mwi) * val len ≤ 3 * val inc ∧
      (val inc = 0 → val (nmin B64.sys (wdiv B64.sys inc len) mwi) = 0) := by
  have hu := unit_pos
  obtain ⟨h1, h2⟩ := wdiv_val (n := 1 / 3) (b := 0x3FE0000000000000) hi.1 hi.2.1 hl.1 hl.2.1 (by linarith) (by norm_num) rfl
    (by rw [val_half]; norm_num)
  have h0 : val inc = 0 → val (wdiv B64.sys inc len) = 0 := fun h => by
    rcases wdiv_cases B64.sys inc len with ⟨h', he⟩ | ⟨h', he⟩ <;> rw [h']
    · exact val_zero
    · have hne : val len ≠ 0 := by rw [← val_zero]; exact (eq_eq_false hl.1 rfl).1 he
      have := rounds_div hi.1 hl.1 hne
      rw [h, zero_div] at this
      exact this.eq_zero.2
  obtain ⟨f, e⟩ := nmin_val h1.1 hw.1
  rw [Within, e]
  refine ⟨⟨f, le_min h1.2.1 hw.2.1, min_le_of_right_le hw.2.2⟩, ?_, fun h => ?_⟩
  · refine (mul_le_mul_of_nonneg_right (min_le_left _ _) hl.2.1).trans ?_
    rcases unit_le_of_ne hi le_rfl with h | h
    · rw [h0 h, h, zero_mul, mul_zero]
    · nlinarith [hl.2.2, hl.2.1]
  · rw [h0 h]; exact min_eq_left hw.2.1

/-- A bit pattern with an even last bit at `1` or `2`, and the one after it. -/
theorem boundary_ties (b : Bin64) (hb : b = 0x3FF0000000000000 ∨ b = 0x4000000000000000) :
    ∃ k : Nat, k % 2 = 0 ∧ key b = k ∧ (magOf k + magOf (k + 1)) * unit = 2 * val b + val b / 2 ^ 52 := by
  rcases hb with rfl | rfl
  · refine ⟨0x3FF0000000000000, by norm_num, rfl, ?_⟩
    rw [add_mul, val_of_bits (x := 0x3FF0000000000000) (b := 0x3FF0000000000000) rfl rfl,
      val_of_bits (x := 0x3FF0000000000001) (b := 0x3FF0000000000000 + 1) rfl rfl, val_one,
      val_of_units (x := 0x3FF0000000000001) (p := 2 ^ 52 + 1) (q := 2 ^ 52) (by norm_num) (by decide +kernel)]
    norm_num
  · refine ⟨0x4000000000000000, by norm_num, rfl, ?_⟩
    rw [add_mul, val_of_bits (x := 0x4000000000000000) (b := 0x4000000000000000) rfl rfl,
      val_of_bits (x := 0x4000000000000001) (b := 0x4000000000000000 + 1) rfl rfl, val_two, val_after_two]
    norm_num

/-- A shape clock that passes its boundary (R120, R125) does so by at most three advances. -/
theorem overshoot {w0 a b : Bin64} (hb : b = 0x3FF0000000000000 ∨ b = 0x4000000000000000) (h0 : Within 0 (val b) w0)
    (ha : Within 0 (1 / 4) a) :
    Within 0 4 (B64.add w0 a) ∧ (val b < val (B64.add w0 a) → 0 < val a ∧
      Within 0 1 (B64.sub (B64.add w0 a) b) ∧ val (B64.sub (B64.add w0 a) b) ≤ 3 * val a) := by
  have hu := unit_le
  have h200 : (1 : ℚ) / 2 ^ 200 ≤ 1 / 2 ^ 60 := by norm_num
  have hb1 : isFinite b = true ∧ 1 ≤ val b ∧ val b ≤ 2 := by
    rcases hb with rfl | rfl
    · rw [val_one]; exact ⟨rfl, le_rfl, one_le_two⟩
    · rw [val_two]; exact ⟨rfl, one_le_two, le_rfl⟩
  obtain ⟨fb, hb1, hb2⟩ := hb1
  have r := rounds_add h0.1 ha.1
  obtain ⟨hw, he⟩ := r.nonneg_le (b := 0x4010000000000000) rfl (add_nonneg h0.2.1 ha.2.1)
    (by rw [val_four]; linarith [h0.2.2, ha.2.2])
  rw [val_four] at hw
  refine ⟨hw, fun hp => ?_⟩
  have h1 := (abs_le.1 he).2
  obtain ⟨k, hk, hkb, hkm⟩ := boundary_ties b hb
  have hsum : val b + val b / 2 ^ 53 < val w0 + val a := by
    by_contra hle
    rw [not_lt] at hle
    have := r.tie k hk (by rw [hkm]; linarith)
    rw [← hkb, ← le_iff_key r.notNaN (isNaN_of_isFinite fb), le_iff hw.1 fb] at this
    linarith
  have ha1 : val b / 2 ^ 53 < val a := by linarith [h0.2.2]
  have hdiff : val (B64.add w0 a) - val b ≤ 5 / 2 * val a := by linarith [h0.2.2]
  have rd := rounds_sub hw.1 fb
  obtain ⟨hd, ed⟩ := rd.nonneg_le (b := 0x3FF0000000000000) rfl (by linarith) (by rw [val_one]; linarith [ha.2.2])
  rw [val_one] at hd
  have h2 := (abs_le.1 ed).2
  exact ⟨by linarith, hd, by linarith⟩

/-- The overshoot in phase-space units, `excess` (R120, R125): at most ten increments. -/
theorem excess_val {inc a d len : Bin64} (hi : Within 0 (1 / 2) inc) (hl : Within 0 2 len)
    (hal : val a * val len ≤ 3 * val inc) (ha0 : val inc = 0 → val a = 0) (hap : 0 < val a) (hd : Within 0 1 d)
    (hda : val d ≤ 3 * val a) : Within 0 2 (B64.mul d len) ∧ val (B64.mul d len) ≤ 10 * val inc ∧ unit ≤ val inc := by
  obtain ⟨hw, hw'⟩ := mul_le_right hd hl
  have hq : val d * val len ≤ 9 * val inc := by nlinarith [hl.2.1]
  have he := ((rounds_mul hd.1 hl.1).nonneg_le (b := 0x4000000000000000) rfl (mul_nonneg hd.2.1 hl.2.1)
    (by rw [val_two]; nlinarith [hd.2.2, hl.2.2, hd.2.1, hl.2.1])).2
  have h1 := (abs_le.1 he).2
  rcases unit_le_of_ne hi le_rfl with h | h
  · rw [ha0 h] at hap; exact absurd hap (lt_irrefl _)
  · exact ⟨hw, by linarith [hi.2.1], h⟩

/-- The shape clock after a sweep has passed its boundary (R121, R126): pinned, or carried into the next sweep. -/
theorem carry_val {inc ex flat next b : Bin64} (hb : b = 0x3FF0000000000000 ∨ b = 0x4000000000000000)
    (hi : unit ≤ val inc) (he : Within 0 2 ex) (he' : val ex ≤ 10 * val inc) (hn : Within 0 2 next)
    (h3 : 3 * val inc ≤ val next) (hf : Within (-2) 2 flat) (hs : 0 ≤ val flat ∨ 1 ≤ val next) :
    Within 0 8 (if B64.le ex flat then b else B64.add b (wdiv B64.sys (B64.sub ex flat) next)) := by
  have hu := unit_pos
  have hu' := unit_le
  have h200 : (1 : ℚ) / 2 ^ 200 ≤ 1 / 2 ^ 60 := by norm_num
  have hb1 : isFinite b = true ∧ 0 ≤ val b ∧ val b ≤ 2 := by
    rcases hb with rfl | rfl
    · rw [val_one]; exact ⟨rfl, zero_le_one, one_le_two⟩
    · rw [val_two]; exact ⟨rfl, zero_le_two, le_rfl⟩
  obtain ⟨fb, hb0, hb2⟩ := hb1
  split
  · exact ⟨fb, hb0, by linarith⟩
  · rename_i hle
    rw [le_iff he.1 hf.1, not_le] at hle
    obtain ⟨hx, ex'⟩ := (rounds_sub he.1 hf.1).nonneg_le (b := 0x4010000000000000) rfl (by linarith)
      (by rw [val_four]; linarith [he.2.2, hf.2.1])
    have h1 := (abs_le.1 ex').2
    rw [val_four] at hx
    have hratio : val (B64.sub ex flat) ≤ 4 * val next := by
      rcases hs with hs | hs
      · linarith
      · linarith [hx.2.2]
    have hw := (wdiv_val (n := 4) (b := 0x4010000000000000) hx.1 hx.2.1 hn.1 hn.2.1 hratio (by norm_num) rfl
      val_four.ge).1
    rw [val_four] at hw
    have := ((rounds_add fb hw.1).nonneg_le (b := 0x4020000000000000) rfl (add_nonneg hb0 hw.2.1)
      (by rw [val_eight]; linarith [hw.2.2])).1
    rwa [val_eight] at this

/-- The linear clock of a sweep that has passed its boundary, before the advance of R129 (R120, R125). -/
theorem reconciled_val {inc ex e : Bin64} (hi : Within 0 (1 / 2) inc) (he : Within 0 4 e) (hie : val inc ≤ val e)
    (hx : Within 0 2 ex) : Within 0 8 (B64.sub (B64.add e ex) inc) := by
  have r := rounds_add he.1 hx.1
  have h1 := (r.nonneg_le (b := 0x4020000000000000) rfl (add_nonneg he.2.1 hx.2.1)
    (by rw [val_eight]; linarith [he.2.2, hx.2.2])).1
  rw [val_eight] at h1
  have h2 := (le_iff hi.1 h1.1).1 (r.ge_of inc hi.1 (by linarith [hx.2.1]))
  have := ((rounds_sub h1.1 hi.1).nonneg_le (b := 0x4020000000000000) rfl (by linarith)
      (by rw [val_eight]; linarith [h1.2.2, hi.2.1])).1
  rwa [val_eight] at this

theorem val_negTwo : val 0xC000000000000000 = -2 :=
  (val_of_units (p := -2) (q := 1) one_pos (by decide +kernel)).trans (by norm_num)

/-- A difference of two values between 0 and 2. -/
theorem sub_val {x y : Bin64} (hx : Within 0 2 x) (hy : Within 0 2 y) :
    Within (-2) 2 (B64.sub x y) ∧ (val y ≤ val x → 0 ≤ val (B64.sub x y)) := by
  have r := rounds_sub hx.1 hy.1
  have h := r.within 0xC000000000000000 0x4000000000000000 rfl rfl (by rw [val_negTwo]; linarith [hx.2.1, hy.2.2])
    (by rw [val_two]; linarith [hx.2.2, hy.2.1])
  rw [val_negTwo, val_two] at h
  refine ⟨h, fun hyx => ?_⟩
  have := (le_iff (x := 0) rfl h.1).1 (r.ge_of 0 rfl (by rw [val_zero]; linarith))
  rwa [val_zero] at this

/-- A sum of two values between 0 and 2, and what is left of 2 after it. -/
theorem sub_add_val {x y : Bin64} (hx : Within 0 2 x) (hy : Within 0 2 y) :
    Within 0 4 (B64.add x y) ∧ (val x ≤ val (B64.add x y) ∧ val y ≤ val (B64.add x y)) ∧
      Within (-2) 2 (B64.sub 0x4000000000000000 (B64.add x y)) ∧
      (B64.le (B64.add x y) 0x4000000000000000 = true → 0 ≤ val (B64.sub 0x4000000000000000 (B64.add x y))) := by
  have r := rounds_add hx.1 hy.1
  have h := (r.nonneg_le (b := 0x4010000000000000) rfl (add_nonneg hx.2.1 hy.2.1)
    (by rw [val_four]; linarith [hx.2.2, hy.2.2])).1
  rw [val_four] at h
  have r2 := rounds_sub (x := 0x4000000000000000) rfl h.1
  rw [val_two] at r2
  have h2 := r2.within 0xC000000000000000 0x4000000000000000 rfl rfl (by rw [val_negTwo]; linarith [h.2.2])
    (by rw [val_two]; linarith [h.2.1])
  rw [val_negTwo, val_two] at h2
  refine ⟨h, ⟨(le_iff hx.1 h.1).1 (r.ge_of _ hx.1 (by linarith [hy.2.1])),
    (le_iff hy.1 h.1).1 (r.ge_of _ hy.1 (by linarith [hx.2.1]))⟩, h2, fun hle => ?_⟩
  rw [le_iff h.1 rfl, val_two] at hle
  have := (le_iff (x := 0) rfl h2.1).1 (r2.ge_of 0 rfl (by rw [val_zero]; linarith))
  rwa [val_zero] at this

theorem val_top_phase : val 0x4340000000000000 = 2 ^ 53 :=
  (val_of_units (p := 2 ^ 53) (q := 1) one_pos (by decide +kernel)).trans (by norm_num)

/-- The two clocks in the range that `ClockRange` states. -/
structure ClockValues (r : Regs Bin64) : Prop where
  warpedPhase : Within 0 8 r.warpedPhase
  phase : Within 0 (2 ^ 53) r.phase

/-- The sweep-up entry (R123), and the sweep-up starts within its range. -/
theorem sweepUpEntry_val {r : Regs Bin64} {inc : Bin64} {g : Geometry Bin64} (hg : GeometryValues inc g)
    (hr : ClockValues r) (h2 : val r.warpedPhase < 2)
    (hp : B64.eq r.warpedPhase 0x3FF0000000000000 = true → B64.lt r.phase g.mid = false) :
    Within 0 2 (sweepUpEntry build inc g r) := by
  have hu := unit_pos
  unfold sweepUpEntry
  split
  · rename_i he
    have hge := (lt_eq_false hr.phase.1 hg.mid.1).1 (hp he)
    obtain ⟨hx, _⟩ := (rounds_sub hr.phase.1 hg.mid.1).nonneg_le (b := 0x4340000000000000) rfl (by linarith)
      (by rw [val_top_phase]; linarith [hr.phase.2.2, hg.mid.2.1])
    rw [val_top_phase] at hx
    obtain ⟨fm, vm⟩ := nmin_val hx.1 hg.inc_range.1
    have hm0 : 0 ≤ val (nmin B64.sys (B64.sub r.phase g.mid) inc) := by rw [vm]; exact le_min hx.2.1 hg.inc_range.2.1
    have hm1 : val (nmin B64.sys (B64.sub r.phase g.mid) inc) ≤ 1 * val g.ulen := by
      rw [vm]
      refine (min_le_right _ _).trans ?_
      linarith [hg.inc_le_ulen, hg.inc_range.2.1]
    have hd := (wdiv_val (b := 0x3FF0000000000000) fm hm0 hg.ulen.1 hg.ulen.2.1 hm1 zero_le_one rfl val_one.ge).1
    rw [val_one] at hd
    have := ((rounds_add (x := 0x3FF0000000000000) rfl hd.1).nonneg_le (b := 0x4000000000000000) rfl
      (by rw [val_one]; linarith [hd.2.1]) (by rw [val_one, val_two]; linarith [hd.2.2])).1
    rwa [val_two] at this
  · exact ⟨hr.warpedPhase.1, hr.warpedPhase.2.1, h2.le⟩

/-- A sweep that does or does not pass its boundary keeps the clocks in range (R119 to R121, R124 to R126). -/
theorem sweep_val {r : Regs Bin64} {inc len next e flat w0 b : Bin64} (hr : ClockValues r)
    (hb : b = 0x3FF0000000000000 ∨ b = 0x4000000000000000) (hi : Within 0 (1 / 2) inc) (hl : Within 0 2 len)
    (hn : Within 0 2 next) (h3 : 3 * val inc ≤ val len) (h3' : 3 * val inc ≤ val next) (hm : Within 0 (1 / 4) r.maxWarpInc)
    (h0 : Within 0 (val b) w0) (he : Within 0 4 e) (hie : val inc ≤ val e) (hf : Within (-2) 2 flat)
    (hs : 0 ≤ val flat ∨ 1 ≤ val next) :
    ClockValues (if B64.lt b (warpAdvance build inc len r w0) then
        reconcile build inc b len e flat next (warpAdvance build inc len r w0) r
      else { r with warpedPhase := warpAdvance build inc len r w0 }) := by
  obtain ⟨ha, hal, ha0⟩ := advance_val hi hl h3 hm
  obtain ⟨hw, hover⟩ := overshoot hb h0 ha
  have fb : isFinite b = true := by rcases hb with rfl | rfl <;> rfl
  split
  · rename_i hlt
    obtain ⟨hap, hd, hda⟩ := hover ((lt_iff fb hw.1).1 hlt)
    obtain ⟨hx, hx', hui⟩ := excess_val hi hl hal ha0 hap hd hda
    exact ⟨carry_val hb hui hx hx' hn h3' hf hs, (reconciled_val hi he hie hx).mono le_rfl (by norm_num)⟩
  · exact ⟨Within.mono hw le_rfl (by norm_num), hr.phase⟩

/-- What the classification of a STEP in the sweep-down says (R118). -/
theorem classify_sweepDown {r : Regs Bin64} {g : Geometry Bin64} (h : classify build g r = .sweepDown) :
    B64.lt r.warpedPhase 0x3FF0000000000000 = true := by
  unfold classify at h
  split at h
  · assumption
  · split at h
    · cases h
    · split at h <;> cases h

/-- What the classification of a STEP in the sweep-up says (R118). -/
theorem classify_sweepUp {r : Regs Bin64} {g : Geometry Bin64} (h : classify build g r = .sweepUp) :
    B64.lt r.warpedPhase 0x4000000000000000 = true ∧
      (B64.eq r.warpedPhase 0x3FF0000000000000 = true → B64.lt r.phase g.mid = false) := by
  unfold classify at h
  split at h
  · cases h
  · split at h
    · cases h
    · rename_i hn
      split at h
      · refine ⟨by assumption, fun he => ?_⟩
        rw [Bool.and_eq_true, not_and, Bool.not_eq_true] at hn
        exact hn he
      · cases h

/-- The normal path keeps the clocks in range, whatever the rounding does (R118 to R128). -/
theorem normalPath_val {r : Regs Bin64} {M S : ℚ} {inc : Bin64} {g : Geometry Bin64} (hc : ConstantValues r M S)
    (hg : GeometryValues inc g) (hr : ClockValues r) : ClockValues (normalPath build inc g r).regs := by
  unfold normalPath
  have hflat := sub_val hg.mid hg.dlen
  have hend := sub_add_val hg.mid hg.ulen
  have hi0 := hg.inc_range.2.1
  have hid := hg.inc_le_dlen
  have hiu := hg.inc_le_ulen
  cases h : classify build g r
  · -- sweep-down
    have h1 := classify_sweepDown h
    rw [lt_iff hr.warpedPhase.1 rfl] at h1
    exact sweep_val hr (.inl rfl) hg.inc_range hg.dlen hg.ulen hid hiu hc.maxWarpInc
      ⟨hr.warpedPhase.1, hr.warpedPhase.2.1, h1.le⟩ (hg.dlen.mono le_rfl (by norm_num)) (by linarith) hflat.1
      (hg.flats.imp (fun h => hflat.2 h.1) (fun h => h.2))
  · exact hr
  · -- sweep-up
    have h2 := classify_sweepUp h
    have h2' := (lt_iff hr.warpedPhase.1 rfl).1 h2.1
    rw [val_two] at h2'
    exact sweep_val hr (.inr rfl) hg.inc_range hg.ulen hg.dlen hiu hid hc.maxWarpInc
      ((sweepUpEntry_val hg hr h2' h2.2).mono le_rfl val_two.ge) hend.1
      (le_trans (by linarith : val inc ≤ val g.ulen) hend.2.1.2) hend.2.2.1
      (hg.flats.imp (fun h => hend.2.2.2 h.2) (fun h => h.1))
  · exact hr

/-- `clamp` of any operand, a NaN among them, lies between its bounds (R13). -/
theorem clamp_within (x : Bin64) {lo hi : Bin64} (hl : isFinite lo = true) (hh : isFinite hi = true)
    (h : val lo ≤ val hi) : Within (val lo) (val hi) (clamp B64.sys x lo hi) := by
  rcases clamp_cases B64.sys x lo hi with ⟨e, h1, h2⟩ | ⟨e, _⟩ | ⟨e, _⟩ <;> rw [e]
  · exact within_of_le hl hh h1 h2
  · exact ⟨hl, le_rfl, h⟩
  · exact ⟨hh, h, le_rfl⟩

/-- `clip_internal` is in `[0, 1]` (R112). -/
theorem clipInternal_val (x : Bin64) : Within 0 1 (clipInternal build x) := by
  have h := clamp_within x (lo := 0) (hi := 0x3FF0000000000000) rfl rfl (by rw [val_zero, val_one]; exact zero_le_one)
  rw [val_zero, val_one] at h
  have := ((rounds_sub (x := 0x3FF0000000000000) rfl h.1).nonneg_le (b := 0x3FF0000000000000) rfl
    (by rw [val_one]; linarith [h.2.2]) (by linarith [h.2.1])).1
  rwa [val_one] at this

/-- `skew_internal` is in `[0, 2]` (R112). -/
theorem skewInternal_val (r : Regs Bin64) (x : Bin64) : Within 0 2 (skewInternal build r x) := by
  have h := clamp_within x (lo := 0xBFF0000000000000) (hi := 0x3FF0000000000000) rfl rfl
    (by rw [val_negOne, val_one]; norm_num)
  rw [val_negOne, val_one] at h
  have := ((rounds_sub (x := 0x3FF0000000000000) rfl h.1).nonneg_le (b := 0x4000000000000000) rfl
    (by rw [val_one]; linarith [h.2.2]) (by rw [val_one, val_two]; linarith [h.2.1])).1
  rwa [val_two] at this

/-- The clamped frequency operand is in `[0, freq_max]` (R111). -/
theorem freqOperand_val {r : Regs Bin64} {M S : ℚ} (hc : ConstantValues r M S) (x : Bin64) :
    Within 0 (val r.freqMax) (freqOperand build r x) := by
  have := clamp_within x (lo := 0) (hi := r.freqMax) rfl hc.freqMax.1 (by rw [val_zero]; exact hc.freqMax.2.1)
  rwa [val_zero] at this

/-- The values of the constants depend on the configuration alone. -/
theorem ConstantValues.of_sameConfig {r r' : Regs Bin64} {M S : ℚ} (hc : ConstantValues r M S) (h : SameConfig r r') :
    ConstantValues r' M S := by
  obtain ⟨h1, h2, h3, h4, h5, h6, h7, h8, h9, h10⟩ := h
  obtain ⟨a, b, c, d, e, f, g, i, j⟩ := hc
  exact ⟨a, b, c, by rwa [h1], by rwa [h3], by rwa [h4], by rwa [h5], by rwa [h8], by rwa [h6]⟩

/-- The linear clock after the advance of R129, on the normal path. -/
theorem advancePhase_val {r : Regs Bin64} {inc : Bin64} (hr : ClockValues r) (hi : Within 0 (1 / 2) inc) :
    ClockValues (advancePhase build inc r) := by
  refine ⟨hr.warpedPhase, ?_⟩
  have r1 := rounds_add hr.phase.1 hi.1
  have h := r1.tie 0x4340000000000000 (by norm_num) (by
    rw [add_mul, val_of_bits (x := 0x4340000000000000) (b := 0x4340000000000000) rfl rfl,
      val_of_bits (x := 0x4340000000000001) (b := 0x4340000000000000 + 1) rfl rfl, val_top_phase,
      val_of_units (x := 0x4340000000000001) (p := 2 ^ 53 + 2) (q := 1) one_pos (by decide +kernel)]
    have h1 := hr.phase.2.2
    have h2 := hi.2.2
    push_cast
    linarith)
  have h' : B64.le (B64.add r.phase inc) 0x4340000000000000 = true := by
    rw [le_iff_key r1.notNaN rfl]; exact h
  have := within_of_le (a := 0) rfl rfl (r1.ge_of 0 rfl (by
    rw [val_zero]; exact add_nonneg hr.phase.2.1 hi.2.1)) h'
  rwa [val_zero, val_top_phase] at this

/-- The remainder of a wrap without a sync (R131): between 0 and one increment. -/
theorem wrapRemainder_val {inc p : Bin64} (hi : Within 0 2 inc) (hp : Within 2 (2 ^ 53) p) :
    Within 0 (val inc) (wrapRemainder build inc p) := by
  obtain ⟨hx, _⟩ := (rounds_sub (y := 0x4000000000000000) hp.1 rfl).nonneg_le (b := 0x4340000000000000) rfl
    (by rw [val_two]; linarith [hp.2.1]) (by rw [val_two, val_top_phase]; linarith [hp.2.2])
  unfold wrapRemainder
  split
  · have h := (rounds_div (y := 0x4000000000000000) hi.1 rfl (by rw [val_two]; exact two_ne_zero)).nonneg_le hi.1
      (by rw [val_two]; linarith [hi.2.1]) (by rw [val_two]; linarith [hi.2.1])
    exact h.1
  · rename_i h
    have h := (lt_eq_false hi.1 hx.1).1 (Bool.not_eq_true _ ▸ h)
    exact ⟨hx.1, hx.2.1, h⟩

/-- Both clocks at 0 after a wrap with a sync (R133, R154). -/
theorem wrapSync_val (r : Regs Bin64) : ClockValues (wrapSync build r) :=
  have z : ∀ b : ℚ, 0 ≤ b → Within 0 b 0 := fun _ h => ⟨rfl, val_zero.ge, val_zero.le.trans h⟩
  ⟨z 8 (by norm_num), z (2 ^ 53) (by norm_num)⟩

theorem within_two_of_le {x : Bin64} {b : ℚ} (h : Within 0 b x) (h2 : B64.le 0x4000000000000000 x = true) :
    Within 2 b x := by
  have := (le_iff rfl h.1).1 h2
  rw [val_two] at this
  exact ⟨h.1, this, h.2.2⟩

/-- The end of a STEP on the normal path: the wrap keeps the clocks in range (R130 to R133). -/
theorem wrap_normal_val {r : Regs Bin64} {f inc : Bin64} {g : Geometry Bin64} (hg : GeometryValues inc g)
    (hr : ClockValues r) (hf : onFastPath build r f = false) : ClockValues (wrap build f inc g r) := by
  rcases wrap_cases build f inc g r with ⟨_, h⟩ | ⟨_, _, h⟩ | ⟨hd, _, h⟩ <;> rw [h]
  · exact hr
  · exact wrapSync_val r
  · have hp : B64.le 0x4000000000000000 r.phase = true := ((Bool.and_eq_true _ _).mp hd).2
    have hw := wrapRemainder_val (hg.inc_range.mono le_rfl (by norm_num)) (within_two_of_le hr.phase hp)
    have hi := hg.inc_range
    have hd := (wdiv_val (b := 0x3FF0000000000000) hw.1 hw.2.1 hg.dlen.1 hg.dlen.2.1
      (by linarith [hg.inc_le_dlen, hw.2.2, hi.2.1] : _ ≤ 1 * val g.dlen) zero_le_one rfl val_one.ge).1
    rw [val_one] at hd
    unfold wrapPlain
    rw [hf]
    exact ⟨hd.mono le_rfl (by norm_num), hw.mono le_rfl (by linarith [hi.2.2])⟩

/-- A value that is no NaN and not below 0 is finite or infinite. -/
theorem finite_or_inf {x : Bin64} (h : B64.le 0 x = true) :
    Within 0 (val x) x ∨ (isInf x = true ∧ signBit x = false) := by
  have hx : isNaN x = false := by simp only [B64.le, Bool.and_eq_true, Bool.not_eq_true'] at h; exact h.1.2
  by_cases hf : isFinite x = true
  · have := (le_iff (x := 0) rfl hf).1 h
    rw [val_zero] at this
    exact .inl ⟨hf, this, le_rfl⟩
  · right
    have hi : isInf x = true := by
      simp only [isFinite, bne_iff_ne, not_not] at hf
      simp only [isNaN, hf, beq_self_eq_true, Bool.true_and, bne_eq_false_iff_eq] at hx
      simp [isInf, hf, hx]
    refine ⟨hi, ?_⟩
    rw [le_iff_key rfl hx, show key 0 = 0 from rfl] at h
    by_contra hs
    rw [Bool.not_eq_false] at hs
    have hm : ¬magBits x < infBits := by rwa [← isFinite_iff]
    rw [key, if_pos hs] at h
    unfold magBits infBits at hm
    omega

/-- A sum of a finite value and one that is not below 0, neither below 0: not below 0, and no NaN. -/
theorem add_nonneg' {x y : Bin64} (hx : isFinite x = true) (h0 : 0 ≤ val x) (hy : B64.le 0 y = true) :
    B64.le 0 (B64.add x y) = true := by
  rcases finite_or_inf hy with h | ⟨hi, hs⟩
  · exact (rounds_add hx h.1).ge_of 0 rfl (by rw [val_zero]; exact add_nonneg h0 h.2.1)
  · have hn : isNaN y = false := by simp only [B64.le, Bool.and_eq_true, Bool.not_eq_true'] at hy; exact hy.1.2
    unfold B64.add B64.sum
    rw [isNaN_of_isFinite hx, hn, isInf_of_isFinite hx, hi]
    exact hy

/-- A product of a positive finite value and one that is not below 0: not below 0, and no NaN. -/
theorem mul_nonneg' {x y : Bin64} (hx : isFinite x = true) (h0 : 0 < val x) (hy : B64.le 0 y = true) :
    B64.le 0 (B64.mul x y) = true := by
  rcases finite_or_inf hy with h | ⟨hi, hs⟩
  · exact (rounds_mul hx h.1).ge_of 0 rfl (by rw [val_zero]; exact mul_nonneg h0.le h.2.1)
  · have hn : isNaN y = false := by simp only [B64.le, Bool.and_eq_true, Bool.not_eq_true'] at hy; exact hy.1.2
    have hzx : isZero x = false := by rw [← Bool.not_eq_true, isZero_iff_val]; exact h0.ne'
    have hzy : isZero y = false := by
      rw [← Bool.not_eq_true, isZero_iff]
      intro hz
      have : isFinite y = true := isFinite_iff.2 (by rw [hz]; norm_num [infBits])
      rw [isInf_of_isFinite this] at hi
      exact Bool.false_ne_true hi
    have hsx : signBit x = false := by
      rw [← Bool.not_eq_true]
      intro h
      rw [val_eq_sign_mul, h, if_pos rfl] at h0
      have : (0 : ℚ) ≤ magnitude x * unit := mul_nonneg (Nat.cast_nonneg _) unit_pos.le
      linarith
    unfold B64.mul
    rw [isNaN_of_isFinite hx, hn, isInf_of_isFinite hx, hi, hzx, hzy, hsx, hs]
    simp only [Bool.or_false, Bool.false_or, Bool.false_eq_true, if_true, if_false, bne_self_eq_false]
    rfl

/-- A STEP on the fast path keeps the clocks in range (R116, R129 to R133). -/
theorem fast_val {r : Regs Bin64} {f inc : Bin64} {g : Geometry Bin64} (hr : ClockValues r)
    (hi : B64.le 0 inc = true) (hi' : syncActive build r = false → Within 0 2 inc)
    (hf : onFastPath build r f = true) :
    ClockValues (wrap build f inc g (advancePhase build inc (fastPath build inc r).regs)) := by
  have h0 := add_nonneg' hr.warpedPhase.1 hr.warpedPhase.2.1 hi
  have hfast : ∀ x, onFastPath build { r with phase := x, warpedPhase := x } f = true := fun _ => hf
  have hsync : ∀ x, syncActive build { r with phase := x, warpedPhase := x } = syncActive build r := fun _ => rfl
  have e : advancePhase build inc (fastPath build inc r).regs =
      { r with phase := B64.add r.warpedPhase inc, warpedPhase := B64.add r.warpedPhase inc } := rfl
  rw [e]
  have hx : isNaN (B64.add r.warpedPhase inc) = false := by
    simp only [B64.le, Bool.and_eq_true, Bool.not_eq_true'] at h0; exact h0.1.2
  rcases wrap_cases build f inc g { r with phase := B64.add r.warpedPhase inc, warpedPhase := B64.add r.warpedPhase inc }
    with ⟨hd, h⟩ | ⟨_, _, h⟩ | ⟨hd, hs, h⟩ <;> rw [h]
  · have hd' : B64.le 0x4000000000000000 (B64.add r.warpedPhase inc) = false := by
      unfold wrapDue at hd
      rw [Bool.and_self] at hd
      exact hd
    have hlt : B64.le (B64.add r.warpedPhase inc) 0x4000000000000000 = true := by
      rw [le_iff_key hx rfl]
      rw [← Bool.not_eq_true, le_iff_key rfl hx] at hd'
      omega
    have := within_of_le (a := 0) rfl rfl h0 hlt
    rw [val_zero, val_two] at this
    exact ⟨this.mono le_rfl (by norm_num), this.mono le_rfl (by norm_num)⟩
  · exact wrapSync_val _
  · have hi2 := hi' ((hsync _).symm.trans hs)
    have hsum := ((rounds_add hr.warpedPhase.1 hi2.1).nonneg_le (b := 0x4340000000000000) rfl
      (add_nonneg hr.warpedPhase.2.1 hi2.2.1)
      (by rw [val_top_phase]; linarith [hr.warpedPhase.2.2, hi2.2.2])).1
    rw [val_top_phase] at hsum
    have hp : B64.le 0x4000000000000000 (B64.add r.warpedPhase inc) = true := ((Bool.and_eq_true _ _).mp hd).2
    have hw := wrapRemainder_val hi2 (within_two_of_le hsum hp)
    unfold wrapPlain
    rw [hfast]
    exact ⟨hw.mono le_rfl (by linarith [hi2.2.2]), hw.mono le_rfl (by linarith [hi2.2.2])⟩

/-- A frequency that is not below 0 and stays off the fast path is finite and at most `max_sweep_freq` (R115). -/
theorem below_maxSweepFreq {r : Regs Bin64} {M S : ℚ} {f : Bin64} (hc : ConstantValues r M S) (hf : B64.le 0 f = true)
    (h : onFastPath build r f = false) : Within 0 (val r.maxSweepFreq) f := by
  have hn : isNaN f = false := by simp only [B64.le, Bool.and_eq_true, Bool.not_eq_true'] at hf; exact hf.1.2
  have hms := hc.maxSweepFreq.1
  have hle : B64.le f r.maxSweepFreq = true := by
    have h' : B64.le r.maxSweepFreq f = false := h
    rw [le_iff_key hn (isNaN_of_isFinite hms)]
    rw [← Bool.not_eq_true, le_iff_key (isNaN_of_isFinite hms) hn] at h'
    omega
  have := within_of_le (a := 0) rfl hms hf hle
  rwa [val_zero] at this

/-- Path, advance and wrap keep the clocks in range (R114 to R133): the frequency is in `[0, freq_max]` with no sync
active, and anything not below 0 with one. -/
theorem advance_clocks {r : Regs Bin64} {M S : ℚ} {f ci si : Bin64} (hc : ConstantValues r M S) (hr : ClockValues r)
    (hf : B64.le 0 f = true) (hf' : syncActive build r = false → Within 0 (val r.freqMax) f) (hci : Within 0 1 ci)
    (hsi : Within 0 2 si) : ClockValues (advance build f ci si r).regs := by
  have hp := hc.phaseIncPerHz
  by_cases h : onFastPath build r f = true
  · have e : (advance build f ci si r).regs = wrap build f (phaseIncrement build r f)
        (geometry build r (phaseIncrement build r f) ci si)
        (advancePhase build (phaseIncrement build r f) (fastPath build (phaseIncrement build r f) r).regs) := by
      simp only [advance, h, if_true]
    rw [e]
    refine fast_val hr (mul_nonneg' hp.1 hp.2.1 hf) (fun hs => ?_) h
    have := hf' hs
    exact increment_fast hc this.1 this.2.1 this.2.2
  · rw [Bool.not_eq_true] at h
    have hfin := below_maxSweepFreq hc hf h
    obtain ⟨hi, hiM⟩ := increment_normal hc hfin.1 hfin.2.1 hfin.2.2
    have hg := geometryValues hc.minSweep.1 hc.minSweep.2 hc.four_le hi hiM hci hsi
    have e : (advance build f ci si r).regs = wrap build f (phaseIncrement build r f)
        (geometry build r (phaseIncrement build r f) ci si)
        (advancePhase build (phaseIncrement build r f) (normalPath build (phaseIncrement build r f)
          (geometry build r (phaseIncrement build r f) ci si) r).regs) := by
      simp only [advance, h, Bool.false_eq_true, if_false]
    rw [e]
    refine wrap_normal_val hg (advancePhase_val (normalPath_val hc hg hr) hi) ?_
    have hframe := emitted_frame build f (phaseIncrement build r f) (geometry build r (phaseIncrement build r f) ci si) r
    rw [h, if_neg Bool.false_ne_true] at hframe
    change B64.le (normalPath build _ _ r).regs.maxSweepFreq f = false
    rw [hframe.1.2.2.2.2.1]
    exact h

/-- The hard-sync registers of a configured core are finite and not below 0 (R23, R24). -/
structure SyncValues (r : Regs Bin64) : Prop where
  hardsyncPhase : Within 0 4 r.hardsyncPhase
  hardsyncIncrement : Within 0 4 r.hardsyncIncrement
  syncPhaseIncrement : Within 0 4 r.syncPhaseIncrement

theorem pi_le_four : isFinite 0x400921FB54442D18 = true ∧ val 0x400921FB54442D18 ≤ 4 :=
  ⟨rfl, by rw [← val_four]; exact (le_iff rfl rfl).1 (by decide +kernel)⟩

theorem within_pi {x : Bin64} (h0 : B64.le 0 x = true) (h : B64.le x 0x400921FB54442D18 = true) : Within 0 4 x := by
  have := within_of_le (a := 0) rfl pi_le_four.1 h0 h
  rw [val_zero] at this
  exact this.mono le_rfl pi_le_four.2

theorem syncValues {r : Regs Bin64} (hc : ConstantsAgree build r) (hs : SyncRange build r) : SyncValues r := by
  have hy : Within 0 4 r.syncPhaseIncrement := by
    obtain ⟨_, _, _, _, _, _, _, _, h⟩ := hc
    rw [h]
    obtain ⟨h0, h1⟩ := syncPhaseInc_range r.minSweep
    exact within_pi (le_of_lt' h0) h1
  refine ⟨within_pi hs.1 hs.2.1, ?_, hy⟩
  rcases hs.2.2.1 with h | h
  · rw [h]; exact ⟨rfl, val_zero.ge, val_zero.le.trans (by norm_num)⟩
  · rw [h]; exact hy

theorem arm_values {r : Regs Bin64} (hs : SyncValues r) (hr : ClockValues r) (t : Bool) (f : Bin64) :
    SyncValues (arm build t f r) ∧ ClockValues (arm build t f r) := by
  rcases arm_cases build t f r with h | ⟨_, _, _, h⟩ | ⟨_, _, _, _, h⟩ <;> rw [h]
  · exact ⟨hs, hr⟩
  · have h2 : Within 0 (2 ^ 53) 0x4000000000000000 := ⟨rfl, by rw [val_two]; norm_num, by rw [val_two]; norm_num⟩
    exact ⟨⟨hs.1, hs.2, hs.3⟩, hr.1, h2⟩
  · refine ⟨⟨?_, hs.3, hs.3⟩, hr.1, hr.2⟩
    have h := (rounds_div (y := 0x4000000000000000) hs.3.1 rfl (by rw [val_two]; exact two_ne_zero)).nonneg_le hs.3.1
      (by rw [val_two]; linarith [hs.3.2.1]) (by rw [val_two]; linarith [hs.3.2.1])
    exact h.1.mono le_rfl hs.3.2.2

/-- While a sync is active it stays so over the ramp's advance (R153). -/
theorem rampAdvance_active {r : Regs Bin64} (hs : SyncValues r) :
    syncActive build (rampAdvance build r) = syncActive build r := by
  rcases rampAdvance_cases build r with ⟨_, h⟩ | ⟨ha, _, h⟩ | ⟨ha, hp, h⟩ <;> rw [h]
  · rw [ha]
    simp only [syncActive, build_toNumSys, sys_pi, sys_zero, sys_eq]
    decide +kernel
  · rw [ha]
    have h0 : val r.hardsyncPhase ≠ 0 := by
      rw [← val_zero]
      exact (eq_eq_false hs.1.1 rfl).1 ((Bool.not_eq_true' _).mp ha)
    have h0' : 0 < val r.hardsyncPhase := lt_of_le_of_ne hs.1.2.1 h0.symm
    have r1 := rounds_add hs.1.1 hs.2.1
    have h8 := (r1.nonneg_le (b := 0x4020000000000000) rfl (add_nonneg hs.1.2.1 hs.2.2.1)
      (by rw [val_eight]; linarith [hs.1.2.2, hs.2.2.2])).1
    have hge := (le_iff hs.1.1 h8.1).1 (r1.ge_of _ hs.1.1 (by linarith [hs.2.2.1]))
    have : B64.eq (B64.add r.hardsyncPhase r.hardsyncIncrement) 0 = false :=
      (eq_eq_false h8.1 rfl).2 (by rw [val_zero]; exact (h0'.trans_le hge).ne')
    change (!B64.eq (B64.add r.hardsyncPhase r.hardsyncIncrement) 0) = true
    rw [this]; rfl

/-- The effective frequency is no NaN and not below 0 (R113, R152). -/
theorem rampFreq_nonneg {r : Regs Bin64} {M S : ℚ} (hc : ConstantValues r M S) (hs : SyncValues r) {f : Bin64}
    (hf : Within 0 (val r.freqMax) f) : B64.le 0 (rampFreq build f r) = true := by
  unfold rampFreq
  split
  · have hcos := cos_range hs.1.1
    have wc := within_of_le (a := 0xBFF0000000000000) (b := 0x3FF0000000000000) rfl rfl hcos.1 hcos.2
    rw [val_negOne, val_one] at wc
    have w1 := ((rounds_sub (x := 0x3FF0000000000000) rfl wc.1).nonneg_le (b := 0x4000000000000000) rfl
      (by rw [val_one]; linarith [wc.2.2]) (by rw [val_one, val_two]; linarith [wc.2.1])).1
    rw [val_two] at w1
    have wk := ((rounds_mul (x := 0x3FE0000000000000) rfl w1.1).nonneg_le (b := 0x3FF0000000000000) rfl
      (by rw [val_half]; linarith [w1.2.1]) (by rw [val_half, val_one]; linarith [w1.2.2])).1
    rw [val_one] at wk
    have hm := hc.maxSyncFreq
    have hnf : val (B64.neg f) = -val f := val_neg f
    have fnf : isFinite (B64.neg f) = true := by rw [isFinite_neg]; exact hf.1
    have wd := (rounds_sub hm.1 hf.1).within (B64.neg f) r.maxSyncFreq fnf hm.1
      (by rw [hnf]; linarith [hm.2]) (by linarith [hf.2.1])
    have wkd := (rounds_mul wk.1 wd.1).within (B64.neg f) r.maxSyncFreq fnf hm.1
      (by
        rw [hnf] at wd ⊢
        nlinarith [wd.2.1, wk.2.1, wk.2.2, hf.2.1])
      (by nlinarith [wd.2.2, wk.2.1, wk.2.2, hm.2])
    refine (rounds_add hf.1 wkd.1).ge_of 0 rfl ?_
    rw [val_zero]
    have := wkd.2.1
    rw [hnf] at this
    linarith
  · exact (le_iff (x := 0) rfl hf.1).2 (by rw [val_zero]; exact hf.2.1)

/-- STEP keeps the clocks of a configured core in range (R14, R110, R135). -/
theorem oscStep_clocks {r : Regs Bin64} (hc : ConstantsAgree build r) (hs : SyncRange build r) (hr : ClockValues r)
    (freq clip skew : Bin64) (t : Bool) : ClockValues (oscStep build freq clip skew t r).regs := by
  obtain ⟨M, S, hv⟩ := constantValues hc
  have hf := freqOperand_val hv freq
  obtain ⟨hs1, hr1⟩ := arm_values (syncValues hc hs) hr t (freqOperand build r freq)
  have hv1 := hv.of_sameConfig (arm_sameConfig build t (freqOperand build r freq) r)
  have hmax : (arm build t (freqOperand build r freq) r).freqMax = r.freqMax :=
    (arm_sameConfig build t (freqOperand build r freq) r).2.2.2.2.2.2.2.1
  unfold oscStep
  rw [signTest_off build rfl]
  simp only
  generalize arm build t (freqOperand build r freq) r = r1 at *
  obtain ⟨hsame, hp, hw⟩ := rampAdvance_frame build r1
  refine advance_clocks (hv1.of_sameConfig hsame) ⟨by rw [hw]; exact hr1.1, by rw [hp]; exact hr1.2⟩
    (rampFreq_nonneg hv1 hs1 (by rw [hmax]; exact hf)) (fun h => ?_) (clipInternal_val clip) (skewInternal_val r skew)
  rw [rampAdvance_active hs1] at h
  rw [hsame.2.2.2.2.2.2.2.1, hmax, rampFreq, h]
  exact hf

/-- The target is in `[0, 2]` (R166). -/
theorem seedTarget_val (x : Bin64) : Within 0 2 (seedTarget build x) := by
  unfold seedTarget
  split
  · have h : Within 0 2 0x3FF4000000000000 :=
      ⟨rfl, by rw [val_oneQuarter]; norm_num, by rw [val_oneQuarter]; norm_num⟩
    exact h
  · have := clamp_within x (lo := 0) (hi := 0x4000000000000000) rfl rfl (by rw [val_zero, val_two]; exact zero_le_two)
    rwa [val_zero, val_two] at this

/-- The inversion of the segment model leaves the clocks in range (R169). -/
theorem seedAt_val {r : Regs Bin64} {p inc : Bin64} {g : Geometry Bin64} (hp : Within 0 2 p)
    (hg : GeometryValues inc g) : ClockValues (seedAt build p g r) := by
  have big : ∀ {x : Bin64} {b : ℚ}, Within 0 b x → b ≤ 8 → Within 0 (2 ^ 53) x := fun h hb =>
    h.mono le_rfl (hb.trans (by norm_num))
  have small : ∀ {x : Bin64} {b : ℚ}, Within 0 b x → b ≤ 8 → Within 0 8 x := fun h hb => h.mono le_rfl hb
  have one : Within 0 8 0x3FF0000000000000 := ⟨rfl, by rw [val_one]; norm_num, by rw [val_one]; norm_num⟩
  have two : Within 0 8 0x4000000000000000 := ⟨rfl, by rw [val_two]; norm_num, by rw [val_two]; norm_num⟩
  have hd := hg.dlen
  have hu := hg.ulen
  unfold seedAt
  split
  · have := ((rounds_mul hp.1 hd.1).nonneg_le (b := 0x4010000000000000) rfl (mul_nonneg hp.2.1 hd.2.1)
      (by rw [val_four]; nlinarith [hp.2.1, hp.2.2, hd.2.1, hd.2.2])).1
    rw [val_four] at this
    exact ⟨small hp (by norm_num), big this (by norm_num)⟩
  · rename_i h1
    split
    · exact ⟨one, big hd (by norm_num)⟩
    · split
      · have h1' := (lt_eq_false hp.1 rfl).1 (Bool.not_eq_true _ ▸ h1)
        change val 0x3FF0000000000000 ≤ val p at h1'
        rw [val_one] at h1'
        have w1 := ((rounds_sub (y := 0x3FF0000000000000) hp.1 rfl).nonneg_le (b := 0x3FF0000000000000) rfl
          (by rw [val_one]; linarith) (by rw [val_one]; linarith [hp.2.2])).1
        rw [val_one] at w1
        have w2 := (mul_le_right w1 hu).1
        exact ⟨small hp (by norm_num), big (sub_add_val hg.mid w2).1 (by norm_num)⟩
      · exact ⟨two, big (sub_add_val hg.mid hu).1 (by norm_num)⟩

/-- SETPHASE and CONFIG seed the clocks in range (R166 to R171). -/
theorem seed_clocks {r : Regs Bin64} (hc : ConstantsAgree build r) (ph freq clip skew : Bin64) :
    ClockValues (seed build ph freq clip skew r) := by
  obtain ⟨M, S, hv⟩ := constantValues hc
  have hf := freqOperand_val hv freq
  have hp := seedTarget_val ph
  unfold seed
  simp only
  split
  · exact ⟨hp.mono le_rfl (by norm_num), hp.mono le_rfl (by norm_num)⟩
  · rename_i h
    have h' := (le_eq_false hv.maxSweepFreq.1 hf.1).1 (Bool.not_eq_true _ ▸ h)
    obtain ⟨hi, hiM⟩ := increment_normal hv hf.1 hf.2.1 h'.le
    exact seedAt_val hp (geometryValues hv.minSweep.1 hv.minSweep.2 hv.four_le hi hiM (clipInternal_val clip)
      (skewInternal_val r skew))

/-- `COS(PI * w)` of a shape clock in range is in `[-1, 1]` (R15, R16). -/
theorem cosPi_range {w : Bin64} (h : Within 0 8 w) :
    B64.le 0xBFF0000000000000 (cosPi build w) = true ∧ B64.le (cosPi build w) 0x3FF0000000000000 = true := by
  have hpi := pi_le_four
  have hpi0 : 0 ≤ val 0x400921FB54442D18 := by
    rw [← val_zero]; exact (le_iff rfl rfl).1 (by decide +kernel)
  have := ((rounds_mul hpi.1 h.1).nonneg_le (b := 0x4059000000000000) rfl (mul_nonneg hpi0 h.2.1)
    (by rw [val_hundred]; nlinarith [h.2.1, h.2.2, hpi.2])).1
  exact cos_range this.1

/-- The normal path emits a sample in `[-1, 1]` from clocks in range (R119, R122, R124, R128). -/
theorem normalPath_sample_range {r : Regs Bin64} {inc : Bin64} {g : Geometry Bin64} (hg : GeometryValues inc g)
    (hr : ClockValues r) : B64.le 0xBFF0000000000000 (normalPath build inc g r).sample = true ∧
      B64.le (normalPath build inc g r).sample 0x3FF0000000000000 = true := by
  cases hk : classify build g r
  · have e : (normalPath build inc g r).sample = cosPi build r.warpedPhase := by rw [normalPath, hk]; rfl
    rw [e]
    exact cosPi_range hr.warpedPhase
  · have e : (normalPath build inc g r).sample = 0xBFF0000000000000 := by rw [normalPath, hk]; rfl
    rw [e]
    exact ⟨by decide +kernel, by decide +kernel⟩
  · have e : (normalPath build inc g r).sample = cosPi build (sweepUpEntry build inc g r) := by
      rw [normalPath, hk]; rfl
    obtain ⟨h2, h1⟩ := classify_sweepUp hk
    rw [lt_iff hr.warpedPhase.1 rfl, val_two] at h2
    rw [e]
    exact cosPi_range ((sweepUpEntry_val hg hr h2 h1).mono le_rfl (by norm_num))
  · have e : (normalPath build inc g r).sample = 0x3FF0000000000000 := by rw [normalPath, hk]; rfl
    rw [e]
    exact ⟨by decide +kernel, by decide +kernel⟩

/-- The rest of a STEP from clocks in range emits a sample in `[-1, 1]`. -/
theorem advance_sample_range {r : Regs Bin64} {M S : ℚ} {f ci si : Bin64} (hc : ConstantValues r M S)
    (hr : ClockValues r) (hf : B64.le 0 f = true) (hci : Within 0 1 ci) (hsi : Within 0 2 si) :
    B64.le 0xBFF0000000000000 (advance build f ci si r).sample = true ∧
      B64.le (advance build f ci si r).sample 0x3FF0000000000000 = true := by
  by_cases h : onFastPath build r f = true
  · have e : (advance build f ci si r).sample = cosPi build r.warpedPhase := by
      simp only [advance, h, if_true]; rfl
    rw [e]
    exact cosPi_range hr.warpedPhase
  · rw [Bool.not_eq_true] at h
    have hfin := below_maxSweepFreq hc hf h
    obtain ⟨hi, hiM⟩ := increment_normal hc hfin.1 hfin.2.1 hfin.2.2
    have hg := geometryValues hc.minSweep.1 hc.minSweep.2 hc.four_le hi hiM hci hsi
    have e : (advance build f ci si r).sample = (normalPath build (phaseIncrement build r f)
        (geometry build r (phaseIncrement build r f) ci si) r).sample := by
      simp only [advance, h, Bool.false_eq_true, if_false]
    rw [e]
    exact normalPath_sample_range hg hr

/-- `ClockRange` by the values of the clocks. -/
theorem clockRange_iff {r : Regs Bin64} : ClockRange r ↔ ClockValues r := by
  constructor
  · rintro ⟨h1, h2, h3, h4⟩
    have hw := within_of_le (a := 0) rfl rfl h1 h2
    have hp := within_of_le (a := 0) rfl rfl h3 h4
    rw [val_zero, val_eight] at hw
    rw [val_zero, val_top_phase] at hp
    exact ⟨hw, hp⟩
  · rintro ⟨hw, hp⟩
    rw [← val_zero, ← val_eight] at hw
    rw [← val_zero, ← val_top_phase] at hp
    exact ⟨(hw.le_of rfl rfl).1, (hw.le_of rfl rfl).2, (hp.le_of rfl rfl).1, (hp.le_of rfl rfl).2⟩

/-- A STEP from clocks in range emits a sample in `[-1, 1]` (R134, R136 (a)). -/
theorem oscStep_sample_range {r : Regs Bin64} (hc : ConstantsAgree build r) (hs : SyncRange build r)
    (hr : ClockValues r) (freq clip skew : Bin64) (t : Bool) :
    B64.le 0xBFF0000000000000 (oscStep build freq clip skew t r).sample = true ∧
      B64.le (oscStep build freq clip skew t r).sample 0x3FF0000000000000 = true := by
  obtain ⟨M, S, hv⟩ := constantValues hc
  have hf := freqOperand_val hv freq
  obtain ⟨hs1, hr1⟩ := arm_values (syncValues hc hs) hr t (freqOperand build r freq)
  have hv1 := hv.of_sameConfig (arm_sameConfig build t (freqOperand build r freq) r)
  have hmax : (arm build t (freqOperand build r freq) r).freqMax = r.freqMax :=
    (arm_sameConfig build t (freqOperand build r freq) r).2.2.2.2.2.2.2.1
  unfold oscStep
  rw [signTest_off build rfl]
  simp only
  generalize arm build t (freqOperand build r freq) r = r1 at *
  obtain ⟨hsame, hp, hw⟩ := rampAdvance_frame build r1
  have hv2 := hv1.of_sameConfig hsame
  have hr2 : ClockValues (rampAdvance build r1) := ⟨by rw [hw]; exact hr1.1, by rw [hp]; exact hr1.2⟩
  exact advance_sample_range hv2 hr2 (rampFreq_nonneg hv1 hs1 (by rw [hmax]; exact hf)) (clipInternal_val clip)
    (skewInternal_val r skew)

end Sys2Proof.Machine
end

