-- ==== Sys2Proof/Laws/Encoding.lean ====
section
/-! SUPPORT. Every bit of a frame put together from its fields (spec 30_encoding.md R65), and of a response frame (R68). -/

namespace Sys2Proof

/-- Bit `k` of a frame, by the field it lies in (R65). -/
theorem mkFrame_getLsbD (f3 f2 f1 f0 : Bin64) (rsv : BitVec 4) (t : Bool) (op : BitVec 3) (k : Nat) :
    (mkFrame f3 f2 f1 f0 rsv t op).getLsbD k =
      if k < 3 then op.getLsbD k
      else if k - 3 < 1 then t && decide (k - 3 = 0)
      else if k - 3 - 1 < 4 then rsv.getLsbD (k - 3 - 1)
      else if k - 3 - 1 - 4 < 64 then f0.getLsbD (k - 3 - 1 - 4)
      else if k - 3 - 1 - 4 - 64 < 64 then f1.getLsbD (k - 3 - 1 - 4 - 64)
      else if k - 3 - 1 - 4 - 64 - 64 < 64 then f2.getLsbD (k - 3 - 1 - 4 - 64 - 64)
      else f3.getLsbD (k - 3 - 1 - 4 - 64 - 64 - 64) := by
  have h := BitVec.getLsbD_append (x := f3 ++ f2 ++ f1 ++ f0 ++ rsv ++ BitVec.ofBool t) (y := op) (i := k)
  refine Eq.trans h ?_
  rw [BitVec.getLsbD_append, BitVec.getLsbD_append, BitVec.getLsbD_append, BitVec.getLsbD_append,
    BitVec.getLsbD_append, BitVec.getLsbD_ofBool]
  cases t <;> simp

/-- The opcode field of a frame put together from its fields. -/
theorem opField_mkFrame (f3 f2 f1 f0 : Bin64) (rsv : BitVec 4) (t : Bool) (op : BitVec 3) :
    opField (mkFrame f3 f2 f1 f0 rsv t op) = op := by
  unfold opField
  refine BitVec.eq_of_getLsbD_eq fun k hk => ?_
  rw [BitVec.getLsbD_extractLsb', Nat.zero_add, mkFrame_getLsbD]
  simp [hk]

/-- The reserved field of a frame put together from its fields. -/
theorem rsvField_mkFrame (f3 f2 f1 f0 : Bin64) (rsv : BitVec 4) (t : Bool) (op : BitVec 3) :
    rsvField (mkFrame f3 f2 f1 f0 rsv t op) = rsv := by
  unfold rsvField
  refine BitVec.eq_of_getLsbD_eq fun k hk => ?_
  rw [BitVec.getLsbD_extractLsb', mkFrame_getLsbD, if_neg (by omega), if_neg (by omega), if_pos (by omega),
    show 4 + k - 3 - 1 = k by omega]
  simp [hk]

end Sys2Proof
end

