-- ==== Sys2Proof/Laws/PerInstr.lean ====
section
/-! SUPPORT. A statement made per instruction: the encoder's frame is well-formed and carries the opcode of the table's
row in `frame[2:0]` (spec 30_encoding.md R65, R66, R70). -/

namespace Sys2Proof.Laws.TableRow

/-- `frame[7:4] = 0` and `frame[2:0]` is the row's opcode. -/
def Statement (i : Instr) : Prop :=
  frameWellFormed (encode i) = true ∧ opField (encode i) = opcode i ∧ i.wellFormed = true

theorem nop : Statement .nop := by
  simp [Statement, frameWellFormed, encode, opField_mkFrame, rsvField_mkFrame, Instr.wellFormed]

theorem config (minSweep sampleRate initPhase : Bin64) : Statement (.config minSweep sampleRate initPhase) := by
  simp [Statement, frameWellFormed, encode, opField_mkFrame, rsvField_mkFrame, Instr.wellFormed]

theorem setphase (freq clip skew phaseIn : Bin64) : Statement (.setphase freq clip skew phaseIn) := by
  simp [Statement, frameWellFormed, encode, opField_mkFrame, rsvField_mkFrame, Instr.wellFormed]

theorem step (freq clip skew : Bin64) (syncTrigger : Bool) : Statement (.step freq clip skew syncTrigger) := by
  simp [Statement, frameWellFormed, encode, opField_mkFrame, rsvField_mkFrame, Instr.wellFormed]

theorem getms : Statement .getms := by
  simp [Statement, frameWellFormed, encode, opField_mkFrame, rsvField_mkFrame, Instr.wellFormed]

theorem reserved5 : Statement .reserved5 := by
  simp [Statement, frameWellFormed, encode, opField_mkFrame, rsvField_mkFrame, Instr.wellFormed]

theorem reserved6 : Statement .reserved6 := by
  simp [Statement, frameWellFormed, encode, opField_mkFrame, rsvField_mkFrame, Instr.wellFormed]

theorem reserved7 : Statement .reserved7 := by
  simp [Statement, frameWellFormed, encode, opField_mkFrame, rsvField_mkFrame, Instr.wellFormed]

end Sys2Proof.Laws.TableRow
end

