-- ==== Sys2Proof/Laws/State.lean ====
section
/-! SUPPORT. The small lemmas of the state's named updates: each field after each update. -/

namespace Sys2Proof.Machine

variable (s : State) (st : Status) (so : Bool) (v : Bin64) (r : Regs Bin64) (i : HostInput) (rest : List HostInput)
  (w : Frame)

/-! ### `State.respond` (R68) -/

@[simp] theorem State.respond_regs : (s.respond st so v).regs = s.regs := rfl
@[simp] theorem State.respond_cmdReady : (s.respond st so v).cmdReady = s.cmdReady := rfl
@[simp] theorem State.respond_rspValid : (s.respond st so v).rspValid = true := rfl
@[simp] theorem State.respond_rspFrame : (s.respond st so v).rspFrame = rspFrameOf st so v := rfl
@[simp] theorem State.respond_host : (s.respond st so v).host = s.host := rfl

/-! ### `State.setRegs` (R55) -/

@[simp] theorem State.setRegs_regs : (s.setRegs r).regs = r := rfl
@[simp] theorem State.setRegs_cmdReady : (s.setRegs r).cmdReady = s.cmdReady := rfl
@[simp] theorem State.setRegs_rspValid : (s.setRegs r).rspValid = s.rspValid := rfl
@[simp] theorem State.setRegs_rspFrame : (s.setRegs r).rspFrame = s.rspFrame := rfl
@[simp] theorem State.setRegs_host : (s.setRegs r).host = s.host := rfl
@[simp] theorem State.setRegs_self : s.setRegs s.regs = s := rfl

/-! ### `State.takeInput` (R75, R76) -/

@[simp] theorem State.takeInput_regs : (s.takeInput i rest).regs = s.regs := rfl
@[simp] theorem State.takeInput_cmdReady : (s.takeInput i rest).cmdReady = readyAt i := rfl
@[simp] theorem State.takeInput_rspValid : (s.takeInput i rest).rspValid = s.rspValid := rfl
@[simp] theorem State.takeInput_rspFrame : (s.takeInput i rest).rspFrame = s.rspFrame := rfl
@[simp] theorem State.takeInput_host : (s.takeInput i rest).host = rest := rfl

/-! ### `State.assertRst` (R215, R216) -/

@[simp] theorem State.assertRst_regs : s.assertRst.regs = Regs.reset := rfl
@[simp] theorem State.assertRst_cmdReady : s.assertRst.cmdReady = false := rfl
@[simp] theorem State.assertRst_rspValid : s.assertRst.rspValid = false := rfl
@[simp] theorem State.assertRst_rspFrame : s.assertRst.rspFrame = 0 := rfl
@[simp] theorem State.assertRst_host : s.assertRst.host = s.host := rfl

/-! ### `State.idle` (R56, R76) -/

@[simp] theorem State.idle_regs : s.idle.regs = s.regs := rfl
@[simp] theorem State.idle_cmdReady : s.idle.cmdReady = s.cmdReady := rfl
@[simp] theorem State.idle_rspValid : s.idle.rspValid = false := rfl
@[simp] theorem State.idle_rspFrame : s.idle.rspFrame = s.rspFrame := rfl
@[simp] theorem State.idle_host : s.idle.host = s.host := rfl

/-! ### `State.present` (log 8) -/

@[simp] theorem State.present_regs : (s.present w).regs = s.regs := rfl
@[simp] theorem State.present_cmdReady : (s.present w).cmdReady = s.cmdReady := rfl
@[simp] theorem State.present_rspValid : (s.present w).rspValid = s.rspValid := rfl
@[simp] theorem State.present_rspFrame : (s.present w).rspFrame = s.rspFrame := rfl
@[simp] theorem State.present_host : (s.present w).host = presenting w :: s.host := rfl

/-! ### The reset state -/

@[simp] theorem State.reset_regs : State.reset.regs = Regs.reset := rfl
@[simp] theorem Regs.reset_configured : Regs.reset.configured = false := rfl

end Sys2Proof.Machine
end

