-- ==== Sys2Proof/Laws/Step.lean ====
section
/-! SUPPORT. STEP and SETPHASE of this hardware (`TZ = 0`) in the terms the statements use: with no sync active and no
trigger a STEP is `advance` at the operand's frequency. -/

namespace Sys2Proof.Machine

open Config Sys2Proof.Safety

/-! ### Response frames with value `+0` (R68, R191) -/

@[simp] theorem rspFrameOf_ok_zero : rspFrameOf .ok false 0#64 = 0#72 := by decide
@[simp] theorem rspFrameOf_unconfigured : rspFrameOf .errUnconfigured false 0#64 = 1#72 := by decide
@[simp] theorem rspFrameOf_badConfig : rspFrameOf .errBadConfig false 0#64 = 2#72 := by decide
@[simp] theorem rspFrameOf_reserved : rspFrameOf .errReserved false 0#64 = 3#72 := by decide

/-! ### Sync activity (R31) -/

theorem syncActive_build (r : Regs Bin64) : syncActive build r = !B64.eq r.hardsyncPhase B64.sys.zero := rfl

theorem ready_syncActive {s : State} (h : Ready s) : syncActive build s.regs = false := by
  rw [syncActive_build, h.2]; rfl

/-! ### STEP (R135) -/

/-- On a configured core STEP completes with the registers, `sync_out` and sample of `oscStep` (R134). -/
theorem exec_step_configured {s : State} (h : s.regs.configured = true) (f c k : Bin64) (t : Bool) :
    exec (.step f c k t) s =
      .next (responded s (oscStep build f c k t s.regs).regs
        (rspFrameOf .ok (oscStep build f c k t s.regs).syncOut (oscStep build f c k t s.regs).sample)) := by
  simp only [exec, execStep, stepIn, h, if_true, complete_eq]

/-- With no sync active and no trigger, STEP is items 5 to 8 of R110 at the clamped frequency operand. -/
theorem exec_step_ready {s : State} (h : Ready s) (f c k : Bin64) :
    exec (.step f c k false) s =
      .next (responded s (advance build (plainFreq s f) (clipInternal build c) (skewInternal build s.regs k) s.regs).regs
        (rspFrameOf .ok (advance build (plainFreq s f) (clipInternal build c) (skewInternal build s.regs k) s.regs).syncOut
          (advance build (plainFreq s f) (clipInternal build c) (skewInternal build s.regs k) s.regs).sample)) := by
  have ha : ∀ x, arm build false x s.regs = s.regs := fun _ => rfl
  have hr : ∀ x, rampFreq build x s.regs = x := fun x => by simp [rampFreq, ready_syncActive h]
  have hd : rampAdvance build s.regs = s.regs := by simp [rampAdvance, ready_syncActive h]
  have ho : oscStep build f c k false s.regs =
      advance build (plainFreq s f) (clipInternal build c) (skewInternal build s.regs k) s.regs := by
    simp only [oscStep, signTest_off build rfl, ha, hr, hd]; rfl
  rw [exec_step_configured h.1, ho]

/-- On the normal path `advance` runs the segment, advances the phase and checks the wrap (R117 to R133). -/
theorem advance_normal {s : State} {f : Bin64} (h : Normal s f) (c k : Bin64) :
    advance build (plainFreq s f) (clipInternal build c) (skewInternal build s.regs k) s.regs =
      { regs := wrap build (plainFreq s f) (plainInc s f) (plainGeometry s f c k)
          (advancePhase build (plainInc s f)
            (normalPath build (plainInc s f) (plainGeometry s f c k) s.regs).regs)
        syncOut := wrapDue build (advancePhase build (plainInc s f)
            (normalPath build (plainInc s f) (plainGeometry s f c k) s.regs).regs)
        sample := (normalPath build (plainInc s f) (plainGeometry s f c k) s.regs).sample } := by
  have hf : onFastPath build s.regs (plainFreq s f) = false := h
  simp only [advance, hf, Bool.false_eq_true, if_false]
  rfl

/-! ### SETPHASE (R171) -/

/-- On a configured core SETPHASE completes with the seeded registers (R171). -/
theorem exec_setphase_configured {s : State} (h : s.regs.configured = true) (f c k p : Bin64) :
    exec (.setphase f c k p) s = .next (responded s (seed build p f c k s.regs) 0) := by
  simp only [exec, execSetphase, setphaseIn, h, if_true, complete_eq]
  exact congrArg (fun w => Host.Outcome.next (responded s _ w)) rspFrameOf_ok_zero

end Sys2Proof.Machine
end

