-- ==== Sys2Proof/Tests/Slice0.lean ====
section
/-! SUPPORT. Tests. Expected values come from the spec: the encodings of 30_encoding.md, the worked examples of
41_step_phase_shaping.md R139, 43_phase_seeding.md R173, 44_through_zero.md R188 and the vectors of 95_test_vectors.md.
After them, for each obligation with hypotheses, a concrete case that meets them (`witness_<obligation>`). -/

namespace Sys2Proof.Tests

open Sys2Proof.Machine Sys2Proof.Config Sys2Proof.Safety

-- The kernel evaluations below would each start a thread with a stack of its own.
set_option Elab.async false

/-! ### Well-formedness: what each check refuses -/

/-- R72: STEP with `rsv = 1`. -/
theorem test_ill_formed_frame_reserved_bits : frameWellFormed 0x13 = false := by decide +kernel

/-- R72: NOP with `rsv = 8`. -/
theorem test_ill_formed_frame_top_reserved_bit : frameWellFormed 0x80 = false := by decide +kernel

/-- R68: status codes 4 to 7 never appear. -/
theorem test_ill_formed_response_status : rspWellFormed 0x04 = false := by decide

/-- R68: bits `[7:4]` are 0. -/
theorem test_ill_formed_response_zeros : rspWellFormed 0x10 = false := by decide

/-- R68, R193: an error has `value = +0`. -/
theorem test_ill_formed_response_error_value : rspWellFormed 0x3FF000000000000001 = false := by decide

/-- R68, R193: an error has `sync_out = 0`. -/
theorem test_ill_formed_response_error_sync : rspWellFormed 0x0B = false := by decide

/-- 30_encoding.md section 9: `OK`, `sync_out = 1`, `sample = +1`. -/
theorem test_well_formed_response : rspWellFormed 0x3FF0000000000000_08 = true := by decide

/-- No command is ill-formed (R67): here the NaNs of T-CLAMP-1. -/
theorem test_well_formed_step_nan :
    Instr.wellFormed (.step 0x7FF8000000000000 0x7FF8000000000000 0x7FF8000000000000 false) = true := by decide

/-! ### Decoding: words written out from 30_encoding.md section 9 and 95_test_vectors.md -/

theorem test_decode_nop : decode 0x00 = .ok .nop := by decide +kernel

/-- T-ENC: NOP ignores `t`. -/
theorem test_decode_nop_t : decode 0x08 = .ok .nop := by decide +kernel

/-- `CONFIG 4, 1024, 2` of Program 3. -/
theorem test_decode_config :
    decode 0x4000000000000000_0000000000000000_4090000000000000_4010000000000000_01
      = .ok (.config 0x4010000000000000 0x4090000000000000 0x4000000000000000) := by decide +kernel

/-- `SETPHASE 16, 1, 0, 0.125`. -/
theorem test_decode_setphase :
    decode 0x3FC0000000000000_0000000000000000_3FF0000000000000_4030000000000000_02
      = .ok (.setphase 0x4030000000000000 0x3FF0000000000000 0 0x3FC0000000000000) := by decide +kernel

/-- `STEP -7, 2, -3, 0` of Program 4. -/
theorem test_decode_step :
    decode 0x0000000000000000_C008000000000000_4000000000000000_C01C000000000000_03
      = .ok (.step 0xC01C000000000000 0x4000000000000000 0xC008000000000000 false) := by decide +kernel

/-- `STEP 16, 1, 0, 1`. -/
theorem test_decode_step_trigger :
    decode 0x0000000000000000_0000000000000000_3FF0000000000000_4030000000000000_0B
      = .ok (.step 0x4030000000000000 0x3FF0000000000000 0 true) := by decide +kernel

theorem test_decode_getms : decode 0x04 = .ok .getms := by decide +kernel

theorem test_decode_reserved5 : decode 0x05 = .ok .reserved5 := by decide +kernel

theorem test_decode_reserved6 : decode 0x06 = .ok .reserved6 := by decide +kernel

theorem test_decode_reserved7 : decode 0x07 = .ok .reserved7 := by decide +kernel

/-- T-ERR-8: STEP with `rsv = 2`. -/
theorem test_decode_reserved_bits : decode 0x23 = .error .reservedBits := by decide +kernel

/-- The frame of `STEP 440, 0.5, 0, 0` in Program 1. -/
theorem test_encode_step :
    encode (.step 0x407B800000000000 0x3FE0000000000000 0 false)
      = 0x0000000000000000_0000000000000000_3FE0000000000000_407B800000000000_03 := by decide +kernel

/-- The frame of `SETPHASE 16, 1, 0, 1.5` in Program 2. -/
theorem test_encode_setphase :
    encode (.setphase 0x4030000000000000 0x3FF0000000000000 0 0x3FF8000000000000)
      = 0x3FF8000000000000_0000000000000000_3FF0000000000000_4030000000000000_02 := by decide +kernel

/-- The frame of `CONFIG nan, 1024, -1` in Program 4. -/
theorem test_encode_config :
    encode (.config 0x7FF8000000000000 0x4090000000000000 0xBFF0000000000000)
      = 0xBFF0000000000000_0000000000000000_4090000000000000_7FF8000000000000_01 := by decide +kernel

/-- A row of the table, its upper bits absent. -/
theorem test_decode_table_word : decodeTableWord 8 0x06 = some .reserved6 := by decide +kernel

/-! ### Text (R77, R78) -/

theorem test_read_config_line :
    readLine "CONFIG nan, 1e-308, -1 ; hostile".toList
      = some (.plain (.config 0x7FF8000000000000 0x000730D67819E8D2 0xBFF0000000000000)) := by decide +kernel

theorem test_read_step_line :
    readLine "STEP 440, 0.5, 0, 1".toList
      = some (.plain (.step 0x407B800000000000 0x3FE0000000000000 0 true)) := by decide +kernel

/-- R78: `RESEED p` takes the operands of the STEP before it. -/
theorem test_assemble_reseed :
    assemble [.sync 0x4030000000000000 0x3FF0000000000000 0, .reseed 0x3FC0000000000000]
      = some [0x0000000000000000_0000000000000000_3FF0000000000000_4030000000000000_0B,
          0x3FC0000000000000_0000000000000000_3FF0000000000000_4030000000000000_02] := by decide +kernel

/-! ### Statuses before configuration: T-ERR-1 to T-ERR-8, as first commands after reset -/

/-- The response of an outcome, and the registers after it. -/
def responseOf (o : Host.Outcome State Fault Refusal) : Option RspFrame :=
  match o with
  | .next s => some s.rspFrame
  | .fault _ => none
  | .refused _ => none

def regsOf (o : Host.Outcome State Fault Refusal) : Option (Regs Bin64) :=
  match o with
  | .next s => some s.regs
  | .fault _ => none
  | .refused _ => none

theorem test_step_unconfigured :
    responseOf (Machine.step (State.reset.withFetchWord 264
      0x0000000000000000_0000000000000000_3FE0000000000000_407B800000000000_03)) = some 0x01 := by decide +kernel

theorem test_getms_unconfigured :
    responseOf (Machine.step (State.reset.withFetchWord 264 0x04)) = some 0x01 := by decide +kernel

theorem test_nop_unconfigured :
    responseOf (Machine.step (State.reset.withFetchWord 264 0x00)) = some 0x00 := by decide +kernel

theorem test_reserved_bits_before_unconfigured :
    responseOf (Machine.step (State.reset.withFetchWord 264 0x23)) = some 0x03 := by decide +kernel

theorem test_reserved_opcode :
    responseOf (Machine.step (State.reset.withFetchWord 264 0x07)) = some 0x03 := by decide +kernel

/-- T-ERR-9: `CONFIG 8, 1e-308, 0`, where `2 / 1e-308` overflows. -/
theorem test_config_tiny_rate :
    responseOf (exec (.config 0x4020000000000000 0x000730D67819E8D2 0) State.reset) = some 0x02 := by decide +kernel

/-! ### Commands on a configured core: the parameters of 95_test_vectors.md (the defaults of R96 and R97) -/

/-- The four values of `COS` that Program 1 uses. -/
def tableCos (x : Bin64) : Bin64 :=
  if x = 0x3FE921FB54442D18 then 0x3FE6A09E667F3BCD
  else if x = 0x3FF921FB54442D18 then 0x3C91A62633145C07
  else if x = 0x4002D97C7F3321D2 then 0xBFE6A09E667F3BCC
  else 0x3FF0000000000000

/-- The vectors' build, with `ln 4` for the logarithm. -/
def vectors (tz : Bool) : Build Bin64 := vectorBuild tableCos (fun _ => 0x3FF62E42FEFA39EF) tz

/-- T-CFG-1, with the two constants that are open parameters. -/
def cfg1 (maxSync syncInc : Bin64) : Regs Bin64 where
  phase := 0
  warpedPhase := 0
  hardsyncPhase := 0
  hardsyncIncrement := 0
  minSweep := 0x4010000000000000
  sampleRate := 0x4090000000000000
  maxWarpInc := 0x3FD0000000000000
  phaseIncPerHz := 0x3F60000000000000
  maxSweepFreq := 0x4060000000000000
  maxSyncFreq := maxSync
  syncPhaseIncrement := syncInc
  freqMax := 0x4080000000000000
  configured := true
  neg := false

/-- The state after T-CFG-1 with the clocks at `phase` and `wp`. -/
def at1 (phase wp : Bin64) : State :=
  State.reset.setRegs { cfg1 0x4060000000000000 0x3FE0B2A51B79A453 with phase := phase, warpedPhase := wp }

/-- The two clocks and the response after an outcome. -/
def clocksOf (o : Host.Outcome State Fault Refusal) : Option (Bin64 × Bin64 × RspFrame) :=
  match o with
  | .next s => some (s.regs.phase, s.regs.warpedPhase, s.rspFrame)
  | .fault _ => none
  | .refused _ => none

/-- T-CFG-1. -/
theorem test_config_constants :
    regsOf (configIn (vectors false) 0x4010000000000000 0x4090000000000000 0 State.reset)
      = some (cfg1 0x4060000000000000 0x3FE0B2A51B79A453) := by decide +kernel

/-- Program 1: GETMS after `CONFIG 2, 1024, 0` answers the clamped 4.0. -/
theorem test_getms_clamped :
    responseOf (exec .getms (at1 0 0)) = some 0x4010000000000000_00 := by decide +kernel

/-- R139. -/
theorem test_step_worked_example :
    clocksOf (stepIn (vectors false) 0x4030000000000000 0x3FF0000000000000 0 false (at1 0 0))
      = some (0x3FA0000000000000, 0x3FD0000000000000, 0x3FF0000000000000_00) := by decide +kernel

/-! ### Parts of a STEP -/

/-- T-SQ-1, `n = 1`: the sample of a sweep-down is taken before the advance. -/
theorem test_sweep_down_sample :
    (sweepDown (vectors false) 0x3FA0000000000000
        { msf := 0x3FC0000000000000, mid := 0x3FF0000000000000, dlen := 0x3FC0000000000000,
          ulen := 0x3FC0000000000000 } (at1 0x3FA0000000000000 0x3FD0000000000000).regs).sample
      = 0x3FE6A09E667F3BCD := by decide +kernel

/-- T-CARRY-1, `n = 21`: the overshoot of the sweep-down, carried over the empty flat. -/
theorem test_sweep_down_carry :
    (fun r : Regs Bin64 => (r.phase, r.warpedPhase)) (sweepDown (vectors false) 0x3FA8000000000000
        { msf := 0x3FC8000000000000, mid := 0x3FF0000000000000, dlen := 0x3FF0000000000000,
          ulen := 0x3FF0000000000000 } (at1 0x3FEF800000000000 0x3FEF800000000000).regs).regs
      = (0x3FEF800000000000, 0x3FF0800000000000) := by decide +kernel

/-- T-WRAP-3: the pathological remainder, half an increment. -/
theorem test_wrap_remainder_pathological :
    wrapRemainder (vectors false) 0x3FA0000000000000 0x4004400000000000 = 0x3F90000000000000 := by decide +kernel

/-- T-SYNC-2: a trigger on the terminal flat snaps `phase` to 2. -/
theorem test_arm_terminal_flat :
    arm (vectors false) true 0x4030000000000000 (at1 0x3FF4000000000000 0x4000000000000000).regs
      = (at1 0x4000000000000000 0x4000000000000000).regs := by decide +kernel

/-- T-SYNC-4: a trigger at exactly `max_sync_freq` arms, and the ramp takes its first step. -/
theorem test_arm_at_max_sync_freq :
    (fun r : Regs Bin64 => (r.hardsyncPhase, r.hardsyncIncrement))
        (rampAdvance (vectors false) (arm (vectors false) true 0x4060000000000000 (at1 0 0).regs))
      = (0x3FE90BF7A936767C, 0x3FE0B2A51B79A453) := by decide +kernel

/-! ### SETPHASE -/

/-- T-SEED-10: a target past the range, on the flat-high. -/
theorem test_setphase_past_range :
    clocksOf (exec (.setphase 0x4030000000000000 0x3FE0000000000000 0x3FE0000000000000 0x7FF8000000000000) (at1 0 0))
      = some (0x3FF4000000000000, 0x4000000000000000, 0) := by decide +kernel

/-- T-SEED-10: the sentinel. -/
theorem test_setphase_sentinel :
    clocksOf (exec (.setphase 0x4030000000000000 0x3FE0000000000000 0x3FE0000000000000 0xBFF0000000000000) (at1 0 0))
      = some (0x3FE6000000000000, 0x3FF4000000000000, 0) := by decide +kernel

/-- R188, T-TZ-1: the flip that a negative frequency makes in the through-zero build, before the path runs. -/
theorem test_through_zero_flip :
    signTest (vectors true) 0xC030000000000000
        { cfg1 0x4060000000000000 0x3FE0B2A51B79A453 with
          phase := 0x3FD0000000000000, warpedPhase := 0x3FE0000000000000 }
      = { cfg1 0x4060000000000000 0x3FE0B2A51B79A453 with
          phase := 0x3FE8000000000000, warpedPhase := 0x3FF8000000000000, neg := true } := by decide +kernel

/-- R215, R216: `rst` on a configured core. -/
theorem test_rst :
    Machine.step { at1 0 0 with host := [{ rst := true, cmdValid := true, cmdFrame := 0x04 }] }
      = .next { State.reset with cmdReady := false } := rfl

/-! ## Witnesses: the hypotheses of the obligations, met

`hw` is this hardware (`build`) after `CONFIG 4, 1024, 0`, its two open constants left as they are. -/

/-- The state of this hardware after T-CFG-1, with the clocks at `phase` and `wp`. -/
def hw (phase wp : Bin64) : State :=
  State.reset.setRegs
    { cfg1 (maxSyncFreq 0x4010000000000000 0x4090000000000000) (syncPhaseInc 0x4010000000000000) with
      phase := phase, warpedPhase := wp }

/-- The same with a sync at `hardsync_phase = h` and no increment. -/
def hwSync (h : Bin64) : State := State.reset.setRegs { (hw 0 0).regs with hardsyncPhase := h }

/-- The geometry of `STEP 16, 1, 0` on `hw` (T-SQ-1). -/
abbrev squareGeometry (phase wp : Bin64) : Geometry Bin64 :=
  plainGeometry (hw phase wp) 0x4030000000000000 0x3FF0000000000000 0

theorem hw_constants : ConstantsAgree build (hw 0 0).regs :=
  ⟨by decide +kernel, by decide +kernel, by decide +kernel, by decide +kernel, by decide +kernel, by decide +kernel,
    by decide +kernel, rfl, rfl⟩

/-! ### Encoding and ports -/

theorem witness_DecodeEncodeGivesCommandBack :
    Instr.wellFormed (.step 0x7FF8000000000000 0x8000000000000000 0 true) = true := rfl

theorem witness_DecoderIsTotal_reserved : rsvField 0x13 ≠ 0 := by decide +kernel

theorem witness_DecoderIsTotal_command : rsvField 0x0F = 0 := by decide +kernel

theorem witness_ResponseFieldsReadBack_ok : Status.ok = .ok ∨ (true = false ∧ (1 : Bin64) = 0) := .inl rfl

theorem witness_ResponseFieldsReadBack_error :
    Status.errReserved = .ok ∨ (false = false ∧ (0 : Bin64) = 0) := .inr ⟨rfl, rfl⟩

theorem witness_StepRunsTheAcceptedCommand :
    (State.reset.present 0x0C).host = [presenting 0x0C] ∧ (presenting 0x0C).rst = false ∧
      (presenting 0x0C).cmdValid = true ∧ decode (presenting 0x0C).cmdFrame = .ok .getms :=
  ⟨rfl, rfl, rfl, by decide +kernel⟩

theorem witness_ReservedBitsAnswerAsReservedOpcode_lowest : rsvField 0x10 ≠ 0 := by decide +kernel

theorem witness_ReservedBitsAnswerAsReservedOpcode_highest : rsvField 0x80 ≠ 0 := by decide +kernel

theorem witness_RstUnconfigures :
    ({ hw 0 0 with host := [{ rst := true, cmdValid := true, cmdFrame := 4 }] } : State).host
      = [{ rst := true, cmdValid := true, cmdFrame := 4 }] := rfl

theorem witness_IdleInstantHoldsTheResponse_no_input : State.reset.host = [] := rfl

theorem witness_IdleInstantHoldsTheResponse_no_command :
    ({ hw 0 0 with host := [{ rst := false, cmdValid := false, cmdFrame := 4 }] } : State).host
      = [{ rst := false, cmdValid := false, cmdFrame := 4 }] := rfl

theorem witness_UnspecifiedRegistersAreUnobservable :
    State.reset.regs.configured = false ∧ ({ (hw 0 0).regs with configured := false }).configured = false :=
  ⟨rfl, rfl⟩

/-! ### Statuses and configuration -/

theorem witness_UnconfiguredCoreAnswers : State.reset.regs.configured = false ∧ rsvField 0x23 ≠ 0 :=
  ⟨rfl, by decide +kernel⟩

theorem witness_FailedCommandWritesNothing :
    exec .getms State.reset = .next (responded State.reset State.reset.regs 1) ∧
      rspStatus (responded State.reset State.reset.regs 1).rspFrame ≠ 0 := ⟨rfl, by decide +kernel⟩

theorem witness_OnlyStepSetsSyncOut :
    (∀ f c k t, Instr.getms ≠ .step f c k t) ∧
      exec .getms State.reset = .next (responded State.reset State.reset.regs 1) := ⟨nofun, rfl⟩

/-- The opcodes next to the bound: 5, the first reserved one, and 7, the last. -/
theorem witness_ReservedOpcodesAnswerErrReserved : 5 ≤ (5 : BitVec 3).toNat ∧ 5 ≤ (7 : BitVec 3).toNat := by decide

theorem witness_GetmsAnswersMinSweep :
    (hw 0 0).regs.configured = true ∧ State.reset.regs.configured = false := ⟨rfl, rfl⟩

/-- The first illegal value below, a zero. -/
theorem witness_IllegalSampleRateIsRefused_zero : B64.lt 0 0x8000000000000000 = false := by decide +kernel

theorem witness_IllegalSampleRateIsRefused_infinity :
    B64.lt 0x7FF0000000000000 0x7FF0000000000000 = false := by decide +kernel

/-- The largest sample rate whose `2 / sr` overflows. -/
theorem witness_IllegalSampleRateIsRefused_overflow :
    B64.lt (B64.div 0x4000000000000000 0x0008000000000000) 0x7FF0000000000000 = false := by decide +kernel

/-- The smallest legal sample rate. -/
theorem witness_LegalConfigConstructs_smallest :
    B64.lt 0 0x0008000000000001 = true ∧ B64.lt 0x0008000000000001 0x7FF0000000000000 = true ∧
      B64.lt (B64.div 0x4000000000000000 0x0008000000000001) 0x7FF0000000000000 = true := by decide +kernel

/-- The largest finite sample rate. -/
theorem witness_LegalConfigConstructs_largest :
    B64.lt 0 0x7FEFFFFFFFFFFFFF = true ∧ B64.lt 0x7FEFFFFFFFFFFFFF 0x7FF0000000000000 = true ∧
      B64.lt (B64.div 0x4000000000000000 0x7FEFFFFFFFFFFFFF) 0x7FF0000000000000 = true := by decide +kernel

/-- A legal CONFIG answers a next state. -/
theorem config_answers {sr : Bin64} (h : sampleRateLegal build sr = true) (ms ph : Bin64) (s : State) :
    ∃ s', exec (.config ms sr ph) s = .next s' := by
  simp only [exec, execConfig, configIn, h, if_true]
  exact ⟨_, rfl⟩

theorem rate1024_legal : sampleRateLegal build 0x4090000000000000 = true := by decide +kernel

theorem witness_ConfigSeedsBothClocksAtTarget :
    sampleRateLegal build 0x4090000000000000 = true ∧
      ∃ s', exec (.config 0x4010000000000000 0x4090000000000000 0xBFF0000000000000) State.reset = .next s' :=
  ⟨rate1024_legal, config_answers rate1024_legal _ _ _⟩

theorem witness_ReconfigurationIsConstruction_others :
    (∀ a b c, Instr.getms ≠ .config a b c) ∧
      exec .getms State.reset = .next (responded State.reset State.reset.regs 1) := ⟨nofun, rfl⟩

theorem witness_ReconfigurationIsConstruction_legal :
    sampleRateLegal build 0x4090000000000000 = true ∧
      (∃ s', exec (.config 0x4010000000000000 0x4090000000000000 0) State.reset = .next s') ∧
      ∃ s', exec (.config 0x4010000000000000 0x4090000000000000 0) (hwSync 0x3FF0000000000000) = .next s' :=
  ⟨rate1024_legal, config_answers rate1024_legal _ _ _, config_answers rate1024_legal _ _ _⟩

theorem witness_ReconfigurationIsConstruction_illegal :
    sampleRateLegal build 0x0008000000000000 = false ∧
      ∃ s', exec (.config 0 0x0008000000000000 0) (hw 0 0) = .next s' := by
  have h : sampleRateLegal build 0x0008000000000000 = false := by decide +kernel
  refine ⟨h, ?_⟩
  simp only [exec, execConfig, configIn, h, Bool.false_eq_true, if_false]
  exact ⟨_, rfl⟩

/-! ### SETPHASE -/

/-- The least negative value. -/
theorem witness_SeedTargetIsSentinelOrClamp_negative : B64.lt 0x8000000000000001 0 = true := by decide +kernel

/-- Both ends of the range, `-0` among them. -/
theorem witness_SeedTargetIsSentinelOrClamp_range :
    (B64.le 0 0x8000000000000000 = true ∧ B64.le 0x8000000000000000 0x4000000000000000 = true) ∧
      B64.le 0 0x4000000000000000 = true ∧ B64.le 0x4000000000000000 0x4000000000000000 = true := by
  decide +kernel

theorem witness_SeedTargetIsSentinelOrClamp_above :
    B64.isNaN 0x7FF0000000000001 = true ∧ B64.le 0x4000000000000000 0x4000000000000001 = true := by decide +kernel

/-- 128 is `max_sweep_freq` itself. -/
theorem witness_SetphaseOnFastPath :
    (hw 0 0).regs.configured = true ∧
      B64.le (hw 0 0).regs.maxSweepFreq (plainFreq (hw 0 0) 0x4060000000000000) = true :=
  ⟨rfl, by decide +kernel⟩

/-- The four lines of R169, each at a target next to its bounds. -/
theorem witness_SetphaseInvertsTheSegments :
    (hw 0 0).regs.configured = true ∧ B64.le (hw 0 0).regs.maxSweepFreq (plainFreq (hw 0 0) 0x4030000000000000) = false ∧
      B64.lt (seedTarget build 0) 0x3FF0000000000000 = true ∧
      B64.lt (seedTarget build 0x3FEFFFFFFFFFFFFF) 0x3FF0000000000000 = true ∧
      B64.eq (seedTarget build 0x3FF0000000000000) 0x3FF0000000000000 = true ∧
      (B64.lt 0x3FF0000000000000 (seedTarget build 0x3FF0000000000001) = true ∧
        B64.lt (seedTarget build 0x3FF0000000000001) 0x4000000000000000 = true) ∧
      (B64.lt 0x3FF0000000000000 (seedTarget build 0x3FFFFFFFFFFFFFFF) = true ∧
        B64.lt (seedTarget build 0x3FFFFFFFFFFFFFFF) 0x4000000000000000 = true) ∧
      B64.eq (seedTarget build 0x4000000000000000) 0x4000000000000000 = true := by
  refine ⟨rfl, ?_⟩; decide +kernel

/-- A SETPHASE on a configured core answers, and leaves it configured. -/
theorem setphase_answers {s : State} (h : s.regs.configured = true) (f c k p : Bin64) :
    ∃ s1, exec (.setphase f c k p) s = .next s1 ∧ s1.regs.configured = true :=
  ⟨_, exec_setphase_configured h f c k p, (seed_frame build p f c k s.regs).1.2.2.2.2.2.2.2.2.1.trans h⟩

/-- A SETPHASE and a STEP with the same operands both answer. -/
theorem seed_then_step_answers {s : State} (h : s.regs.configured = true) (f c k p : Bin64) :
    ∃ s1 s2, exec (.setphase f c k p) s = .next s1 ∧ exec (.step f c k false) s1 = .next s2 :=
  (setphase_answers h f c k p).elim fun s1 h1 => ⟨s1, _, h1.1, exec_step_configured h1.2 f c k false⟩

theorem witness_SetphaseWritesOnlyTheClocks :
    ∃ s', exec (.setphase 0x4030000000000000 0x3FF0000000000000 0 0x3FF8000000000000) (hw 0 0) = .next s' :=
  (setphase_answers rfl _ _ _ _).imp fun _ h => h.1

theorem witness_SetphaseIsIdempotent :
    ∃ s1 s2, exec (.setphase 0x4030000000000000 0x3FF0000000000000 0 0x3FF8000000000000) (hw 0 0) = .next s1 ∧
      exec (.setphase 0x4030000000000000 0x3FF0000000000000 0 0x3FF8000000000000) s1 = .next s2 :=
  (setphase_answers rfl _ _ _ _).imp fun _ h => (setphase_answers h.2 _ _ _ _).imp fun _ k => ⟨h.1, k.1⟩

theorem hw_ready (phase wp : Bin64) : Ready (hw phase wp) := ⟨rfl, by
  change B64.eq 0 0 = true
  decide +kernel⟩

/-- On the fast path. -/
theorem witness_SeedThenStepEmitsTheTarget_fast :
    Ready (hw 0 0) ∧ B64.le (hw 0 0).regs.maxSweepFreq (plainFreq (hw 0 0) 0x4060000000000000) = true ∧
      ∃ s1 s2, exec (.setphase 0x4060000000000000 0 0 0x3FF8000000000000) (hw 0 0) = .next s1 ∧
        exec (.step 0x4060000000000000 0 0 false) s1 = .next s2 :=
  ⟨hw_ready 0 0, by decide +kernel, seed_then_step_answers rfl _ _ _ _⟩

theorem hw_normal (phase wp : Bin64) : Normal (hw phase wp) 0x4030000000000000 := by
  change B64.le 0x4060000000000000 (clamp B64.sys 0x4030000000000000 0 0x4080000000000000) = false
  decide +kernel

/-- On the normal path: an empty flat-low, at the target 1 (`STEP 16, 0, 0`). -/
theorem witness_SeedThenStepEmitsTheTarget_empty_flat :
    Ready (hw 0 0) ∧ Normal (hw 0 0) 0x4030000000000000 ∧
      B64.eq (seedTarget build 0x3FF0000000000000) 0x3FF0000000000000 = true ∧
      B64.eq (plainGeometry (hw 0 0) 0x4030000000000000 0 0).dlen (plainGeometry (hw 0 0) 0x4030000000000000 0 0).mid
        = true ∧
      ConstantsAgree build (hw 0 0).regs ∧
      ∃ s1 s2, exec (.setphase 0x4030000000000000 0 0 0x3FF0000000000000) (hw 0 0) = .next s1 ∧
        exec (.step 0x4030000000000000 0 0 false) s1 = .next s2 :=
  ⟨hw_ready 0 0, hw_normal 0 0, by decide +kernel, by decide +kernel, hw_constants, seed_then_step_answers rfl _ _ _ _⟩

/-- On the normal path: a flat-low that is not empty, at the target 1. -/
theorem witness_SeedThenStepEmitsTheTarget_normal :
    Ready (hw 0 0) ∧ Normal (hw 0 0) 0x4030000000000000 ∧
      B64.eq (seedTarget build 0x3FF0000000000000) 0x3FF0000000000000 = true ∧
      B64.lt (squareGeometry 0 0).dlen (squareGeometry 0 0).mid = true ∧
      ∃ s1 s2, exec (.setphase 0x4030000000000000 0x3FF0000000000000 0 0x3FF0000000000000) (hw 0 0) = .next s1 ∧
        exec (.step 0x4030000000000000 0x3FF0000000000000 0 false) s1 = .next s2 :=
  ⟨hw_ready 0 0, hw_normal 0 0, by decide +kernel, by decide +kernel, seed_then_step_answers rfl _ _ _ _⟩

/-- The other lines: the targets of `witness_SetphaseInvertsTheSegments` next to their bounds, with a sweep and with the
start of flat-high. -/
theorem witness_SeedThenStepEmitsTheTarget_sweeps :
    Ready (hw 0 0) ∧ Normal (hw 0 0) 0x4030000000000000 ∧
      B64.lt (seedTarget build 0x3FEFFFFFFFFFFFFF) 0x3FF0000000000000 = true ∧
      B64.lt 0x3FF0000000000000 (seedTarget build 0x3FF0000000000001) = true ∧
      B64.lt (seedTarget build 0x3FF0000000000001) 0x4000000000000000 = true ∧
      B64.eq (seedTarget build 0x4000000000000000) 0x4000000000000000 = true :=
  ⟨hw_ready 0 0, hw_normal 0 0, by decide +kernel⟩

/-! ### STEP -/


/-- `STEP 128` on T-CFG-1: `inc = 1/4`. -/
theorem witness_StepOnFastPath :
    Ready (hw 0 0) ∧ B64.le (hw 0 0).regs.maxSweepFreq (plainFreq (hw 0 0) 0x4060000000000000) = true ∧
      plainInc (hw 0 0) 0x4060000000000000 = 0x3FD0000000000000 ∧
      bothPastTwo (B64.add (hw 0 0).regs.warpedPhase 0x3FD0000000000000)
        (B64.add (hw 0 0).regs.warpedPhase 0x3FD0000000000000) = false :=
  ⟨hw_ready 0 0, by decide +kernel⟩

/-- T-FAST-1, `n = 7`: the clocks land exactly on 2. -/
theorem witness_StepOnFastPath_wraps :
    Ready (hw 0x3FFC000000000000 0x3FFC000000000000) ∧
      B64.le 0x4060000000000000 (plainFreq (hw 0x3FFC000000000000 0x3FFC000000000000) 0x4060000000000000) = true ∧
      plainInc (hw 0x3FFC000000000000 0x3FFC000000000000) 0x4060000000000000 = 0x3FD0000000000000 ∧
      bothPastTwo (B64.add 0x3FFC000000000000 0x3FD0000000000000) (B64.add 0x3FFC000000000000 0x3FD0000000000000)
        = true :=
  ⟨hw_ready _ _, by decide +kernel⟩

theorem witness_FastPathLeavesClocksEqual :
    (hw 0 0).regs.configured = true ∧
      onFastPath build (hw 0 0).regs (effFreq build ⟨0x4060000000000000, 0, 0, false⟩ (hw 0 0).regs) = true ∧
      ∃ s', exec (.step 0x4060000000000000 0 0 false) (hw 0 0) = .next s' :=
  ⟨rfl, by decide +kernel, _, exec_step_configured rfl _ _ _ _⟩

/-- T-SQ-1, `n = 3`: the advance lands exactly on 1. -/
theorem witness_StepInsideSweepDown :
    Ready (hw 0x3FB8000000000000 0x3FE8000000000000) ∧ Normal (hw 0x3FB8000000000000 0x3FE8000000000000) 0x4030000000000000 ∧
      B64.lt 0x3FE8000000000000 0x3FF0000000000000 = true ∧
      B64.lt 0x3FF0000000000000
        (B64.add 0x3FE8000000000000 (nmin B64.sys
          (wdiv B64.sys (plainInc (hw 0x3FB8000000000000 0x3FE8000000000000) 0x4030000000000000)
            (squareGeometry 0x3FB8000000000000 0x3FE8000000000000).dlen)
          (hw 0x3FB8000000000000 0x3FE8000000000000).regs.maxWarpInc)) = false :=
  ⟨hw_ready _ _, hw_normal _ _, by decide +kernel⟩

/-- T-OVR-1, `n = 3`: the overshoot of 0.125, clamped to the flat. -/
theorem witness_StepPastSweepDown :
    Ready (hw 0x3FBC000000000000 0x3FEC000000000000) ∧ Normal (hw 0x3FBC000000000000 0x3FEC000000000000) 0x4030000000000000 ∧
      plainInc (hw 0x3FBC000000000000 0x3FEC000000000000) 0x4030000000000000 = 0x3FA0000000000000 ∧
      squareGeometry 0x3FBC000000000000 0x3FEC000000000000 =
        { msf := 0x3FC0000000000000, mid := 0x3FF0000000000000, dlen := 0x3FC0000000000000,
          ulen := 0x3FC0000000000000 } ∧
      B64.lt 0x3FEC000000000000 0x3FF0000000000000 = true ∧
      B64.add 0x3FEC000000000000 (nmin B64.sys (wdiv B64.sys 0x3FA0000000000000 0x3FC0000000000000) 0x3FD0000000000000)
        = 0x3FF2000000000000 ∧
      B64.lt 0x3FF0000000000000 0x3FF2000000000000 = true ∧
      B64.le (B64.mul (B64.sub 0x3FF2000000000000 0x3FF0000000000000) 0x3FC0000000000000)
        (B64.sub 0x3FF0000000000000 0x3FC0000000000000) = true ∧
      bothPastTwo 0x3FF0000000000000 0x3FC2000000000000 = false :=
  ⟨hw_ready _ _, hw_normal _ _, by decide +kernel⟩

/-- T-SQ-1, `n = 4`: the start of flat-low. -/
theorem witness_StepInFlatLow :
    Ready (hw 0x3FC0000000000000 0x3FF0000000000000) ∧ Normal (hw 0x3FC0000000000000 0x3FF0000000000000) 0x4030000000000000 ∧
      B64.eq 0x3FF0000000000000 0x3FF0000000000000 = true ∧
      B64.lt 0x3FC0000000000000 (squareGeometry 0x3FC0000000000000 0x3FF0000000000000).mid = true :=
  ⟨hw_ready _ _, hw_normal _ _, by decide +kernel⟩

/-- T-SQ-1, `n = 32`: the end of flat-low, where `phase = mid`. -/
theorem witness_StepInsideSweepUp :
    Ready (hw 0x3FF0000000000000 0x3FF0000000000000) ∧ Normal (hw 0x3FF0000000000000 0x3FF0000000000000) 0x4030000000000000 ∧
      B64.le 0x3FF0000000000000 0x3FF0000000000000 = true ∧ B64.lt 0x3FF0000000000000 0x4000000000000000 = true ∧
      B64.lt 0x3FF0000000000000 (squareGeometry 0x3FF0000000000000 0x3FF0000000000000).mid = false ∧
      B64.add 0x3FF0000000000000 (wdiv B64.sys (nmin B64.sys
          (B64.sub 0x3FF0000000000000 (squareGeometry 0x3FF0000000000000 0x3FF0000000000000).mid) 0x3FA0000000000000)
          (squareGeometry 0x3FF0000000000000 0x3FF0000000000000).ulen) = 0x3FF0000000000000 ∧
      B64.add 0x3FF0000000000000 (nmin B64.sys (wdiv B64.sys
          (plainInc (hw 0x3FF0000000000000 0x3FF0000000000000) 0x4030000000000000)
          (squareGeometry 0x3FF0000000000000 0x3FF0000000000000).ulen) 0x3FD0000000000000) = 0x3FF4000000000000 ∧
      B64.lt 0x4000000000000000 0x3FF4000000000000 = false ∧
      bothPastTwo 0x3FF4000000000000 (B64.add 0x3FF0000000000000 0x3FA0000000000000) = false :=
  ⟨hw_ready _ _, hw_normal _ _, by decide +kernel⟩

/-- The geometry of `STEP f, 0, 0` on `hw`: `mid = dlen = ulen = 1`, no flats (T-SINE-1, T-CARRY-1). -/
abbrev sineGeometry (phase wp f : Bin64) : Geometry Bin64 := plainGeometry (hw phase wp) f 0 0

/-- T-SINE-1, `n = 63`: the advance lands exactly on 2, and `phase` with it. -/
theorem witness_StepInsideSweepUp_wraps :
    Ready (hw 0x3FFF800000000000 0x3FFF800000000000) ∧ Normal (hw 0x3FFF800000000000 0x3FFF800000000000) 0x4030000000000000 ∧
      B64.le 0x3FF0000000000000 0x3FFF800000000000 = true ∧ B64.lt 0x3FFF800000000000 0x4000000000000000 = true ∧
      B64.eq 0x3FFF800000000000 0x3FF0000000000000 = false ∧
      plainInc (hw 0x3FFF800000000000 0x3FFF800000000000) 0x4030000000000000 = 0x3FA0000000000000 ∧
      (sineGeometry 0x3FFF800000000000 0x3FFF800000000000 0x4030000000000000).ulen = 0x3FF0000000000000 ∧
      B64.add 0x3FFF800000000000 (nmin B64.sys (wdiv B64.sys 0x3FA0000000000000 0x3FF0000000000000) 0x3FD0000000000000)
        = 0x4000000000000000 ∧
      B64.lt 0x4000000000000000 0x4000000000000000 = false ∧
      bothPastTwo 0x4000000000000000 (B64.add 0x3FFF800000000000 0x3FA0000000000000) = true :=
  ⟨hw_ready _ _, hw_normal _ _, by decide +kernel⟩

/-- T-CARRY-1, `n = 42`: the overshoot carried over the empty flat-high into the wrap. -/
theorem witness_StepPastSweepUp_wraps :
    Ready (hw 0x3FFF800000000000 0x3FFF800000000000) ∧
      B64.le 0x4060000000000000 (plainFreq (hw 0x3FFF800000000000 0x3FFF800000000000) 0x4038000000000000) = false ∧
      plainInc (hw 0x3FFF800000000000 0x3FFF800000000000) 0x4038000000000000 = 0x3FA8000000000000 ∧
      sineGeometry 0x3FFF800000000000 0x3FFF800000000000 0x4038000000000000 =
        { msf := 0x3FC8000000000000, mid := 0x3FF0000000000000, dlen := 0x3FF0000000000000,
          ulen := 0x3FF0000000000000 } ∧
      B64.add 0x3FFF800000000000 (nmin B64.sys (wdiv B64.sys 0x3FA8000000000000 0x3FF0000000000000) 0x3FD0000000000000)
        = 0x4000200000000000 ∧
      B64.lt 0x4000000000000000 0x4000200000000000 = true ∧
      B64.le (B64.mul (B64.sub 0x4000200000000000 0x4000000000000000) 0x3FF0000000000000)
        (B64.sub 0x4000000000000000 (B64.add 0x3FF0000000000000 0x3FF0000000000000)) = false ∧
      bothPastTwo
        (B64.add 0x4000000000000000 (wdiv B64.sys (B64.sub 0x3F90000000000000 0) 0x3FF0000000000000))
        (B64.add (B64.sub (B64.add 0x4000000000000000 0x3F90000000000000) 0x3FA8000000000000) 0x3FA8000000000000)
        = true :=
  ⟨hw_ready _ _, by decide +kernel⟩

/-- T-OVR-1, `n = 35`: the overshoot of 0.125, clamped to flat-high. -/
theorem witness_StepPastSweepUp :
    Ready (hw 0x3FF1C00000000000 0x3FFE000000000000) ∧ Normal (hw 0x3FF1C00000000000 0x3FFE000000000000) 0x4030000000000000 ∧
      plainInc (hw 0x3FF1C00000000000 0x3FFE000000000000) 0x4030000000000000 = 0x3FA0000000000000 ∧
      squareGeometry 0x3FF1C00000000000 0x3FFE000000000000 =
        { msf := 0x3FC0000000000000, mid := 0x3FF0000000000000, dlen := 0x3FC0000000000000,
          ulen := 0x3FC0000000000000 } ∧
      B64.lt 0x3FF0000000000000 0x3FFE000000000000 = true ∧ B64.lt 0x3FFE000000000000 0x4000000000000000 = true ∧
      B64.add 0x3FFE000000000000 (nmin B64.sys (wdiv B64.sys 0x3FA0000000000000 0x3FC0000000000000) 0x3FD0000000000000)
        = 0x4001000000000000 ∧
      B64.lt 0x4000000000000000 0x4001000000000000 = true ∧
      B64.le (B64.mul (B64.sub 0x4001000000000000 0x4000000000000000) 0x3FC0000000000000)
        (B64.sub 0x4000000000000000 (B64.add 0x3FF0000000000000 0x3FC0000000000000)) = true ∧
      bothPastTwo 0x4000000000000000 0x3FF2400000000000 = false :=
  ⟨hw_ready _ _, hw_normal _ _, by decide +kernel⟩

/-- T-SQ-1, `n = 62`: one increment before the end. -/
theorem witness_StepInFlatHigh_goes_on :
    Ready (hw 0x3FFF000000000000 0x4000000000000000) ∧ Normal (hw 0x3FFF000000000000 0x4000000000000000) 0x4030000000000000 ∧
      B64.le 0x4000000000000000 0x4000000000000000 = true ∧
      B64.le 0x4000000000000000 (B64.add 0x3FFF000000000000 0x3FA0000000000000) = false :=
  ⟨hw_ready _ _, hw_normal _ _, by decide +kernel⟩

/-- T-SQ-1, `n = 63`: `phase` lands exactly on 2. -/
theorem witness_StepInFlatHigh_wraps :
    Ready (hw 0x3FFF800000000000 0x4000000000000000) ∧ Normal (hw 0x3FFF800000000000 0x4000000000000000) 0x4030000000000000 ∧
      B64.le 0x4000000000000000 0x4000000000000000 = true ∧
      plainInc (hw 0x3FFF800000000000 0x4000000000000000) 0x4030000000000000 = 0x3FA0000000000000 ∧
      B64.le 0x4000000000000000 (B64.add 0x3FFF800000000000 0x3FA0000000000000) = true :=
  ⟨hw_ready _ _, hw_normal _ _, by decide +kernel⟩

/-- `sync_out = 0` in a response reads back, whatever its value. -/
theorem rspSyncOut_rspFrameOf (v : Bin64) : rspSyncOut (rspFrameOf .ok false v) = false := by
  unfold rspSyncOut rspFrameOf
  rw [BitVec.getLsbD_append, BitVec.getLsbD_append]
  simp

/-- A STEP that does not wrap answers with `sync_out = 0`. -/
theorem step_answers {s : State} (h : s.regs.configured = true) (f c k : Bin64) (t : Bool)
    (ho : (oscStep build f c k t s.regs).syncOut = false) :
    ∃ s', exec (.step f c k t) s = .next s' ∧ rspSyncOut s'.rspFrame = false :=
  ⟨_, exec_step_configured h f c k t, by
    change rspSyncOut (rspFrameOf .ok _ _) = false
    rw [ho]
    exact rspSyncOut_rspFrameOf _⟩

theorem witness_NoWrapIsMissed :
    (at1 0 0).regs.configured = true ∧
      ∃ s', exec (.step 0x4030000000000000 0x3FF0000000000000 0 false) (at1 0 0) = .next s' ∧
        rspSyncOut s'.rspFrame = false :=
  ⟨rfl, step_answers rfl _ _ _ _ (by decide +kernel)⟩

/-- The least negative frequency, and `-Infinity`. -/
theorem witness_NegativeFrequencyIsZero :
    B64.lt 0x8000000000000001 0 = true ∧ B64.lt 0xFFF0000000000000 0 = true ∧ B64.le 0 (hw 0 0).regs.freqMax = true := by
  decide +kernel

/-! ### Hard sync -/

theorem witness_ArmingFollowsItsFourLines :
    (at1 0 0).regs.configured = true ∧ B64.eq (hwSync 0x3FF0000000000000).regs.hardsyncPhase 0 = false ∧
      B64.eq (at1 0 0).regs.hardsyncPhase 0 = true ∧
      B64.eq (at1 0 0x4000000000000000).regs.warpedPhase 0x4000000000000000 = true ∧
      B64.eq (at1 0 0x3FFFFFFFFFFFFFFF).regs.warpedPhase 0x4000000000000000 = false ∧
      B64.lt (at1 0 0).regs.maxSyncFreq 0x4060000000000001 = true ∧
      B64.lt (at1 0 0).regs.maxSyncFreq 0x4060000000000000 = false := by decide +kernel

/-- A sync in flight, and one that this very STEP arms (T-SYNC-4). -/
theorem witness_SyncRampsTheFrequency :
    (hwSync 0x3FF0000000000000).regs.configured = true ∧
      B64.eq (arm build false (plainFreq (hwSync 0x3FF0000000000000) 0) (hwSync 0x3FF0000000000000).regs).hardsyncPhase 0
        = false ∧
      (at1 0 0).regs.configured = true ∧
      B64.eq (arm build true (plainFreq (at1 0 0) 0x4060000000000000) (at1 0 0).regs).hardsyncPhase 0 = false := by
  decide +kernel

theorem witness_TriggerIgnoredWhileSyncActive :
    B64.eq (hwSync 0x0000000000000001).regs.hardsyncPhase 0 = false := by decide +kernel

/-- The invariant of a configured core with a sync at `h` that has no increment left. -/
theorem hwSync_inv {h : Bin64} (h0 : B64.le 0 h = true) (h1 : B64.le h 0x400921FB54442D18 = true) :
    MachineInv (hwSync h) :=
  ⟨(by decide : rspWellFormed 0 = true), fun _ => ⟨hw_constants, ⟨h0, h1, .inl rfl, fun _ => rfl, fun _ => .inl rfl⟩,
    (by decide +kernel : B64.le 0 0 = true ∧ B64.le 0 0x4020000000000000 = true ∧ B64.le 0 0 = true ∧
      B64.le 0 0x4340000000000000 = true)⟩⟩

/-- The premises of both clauses of the statement: the invariant, and no sync. -/
theorem witness_StepEmitsOneBoundedSample :
    (hwSync 0).regs.configured = true ∧ MachineInv (hwSync 0) ∧ Ready (hwSync 0) :=
  ⟨rfl, hwSync_inv (by decide +kernel) (by decide +kernel), rfl, (by decide +kernel : B64.eq 0 0 = true)⟩

/-- A ramp on its way. -/
theorem witness_SyncEndsOnlyAtTheWrap_ramp :
    MachineInv (hwSync 0x3FF0000000000000) ∧ (hwSync 0x3FF0000000000000).regs.configured = true ∧
      B64.eq (hwSync 0x3FF0000000000000).regs.hardsyncPhase 0 = false ∧
      ∃ s', exec (.step 0 0 0 true) (hwSync 0x3FF0000000000000) = .next s' :=
  ⟨hwSync_inv (by decide +kernel) (by decide +kernel), rfl, by decide +kernel, _, exec_step_configured rfl _ _ _ _⟩

/-- A ramp held at `PI`. -/
theorem witness_SyncEndsOnlyAtTheWrap_held :
    MachineInv (hwSync 0x400921FB54442D18) ∧ (hwSync 0x400921FB54442D18).regs.configured = true ∧
      B64.eq (hwSync 0x400921FB54442D18).regs.hardsyncPhase 0 = false ∧
      ∃ s', exec (.step 0 0 0 true) (hwSync 0x400921FB54442D18) = .next s' :=
  ⟨hwSync_inv (by decide +kernel) (by decide +kernel), rfl, by decide +kernel, _, exec_step_configured rfl _ _ _ _⟩

/-- A configured core meets the invariant, and its next step answers. -/
theorem witness_EveryStepKeepsMachineInv :
    MachineInv (hwSync 0) ∧ ∃ s', Machine.step (hwSync 0) = .next s' :=
  ⟨hwSync_inv (by decide +kernel) (by decide +kernel), _, rfl⟩

/-! ### Numbers -/

theorem witness_ClampGivesNearestBound :
    B64.isFinite 0 = true ∧ B64.isFinite 0x4000000000000000 = true ∧ B64.le 0 0x4000000000000000 = true ∧
      (B64.le 0 0x8000000000000000 = true ∧ B64.le 0x8000000000000000 0x4000000000000000 = true) ∧
      B64.lt 0x8000000000000001 0 = true ∧ B64.lt 0x4000000000000000 0x4000000000000001 = true ∧
      B64.isNaN 0x7FF0000000000001 = true := by decide +kernel

/-- Finite operands, a divisor that is not 0, and sums of both kinds, at the edges of the format. -/
theorem witness_RoundingIsToNearestEven_operands :
    B64.isFinite 0x7FEFFFFFFFFFFFFF = true ∧ B64.isFinite 0x8000000000000001 = true ∧
      B64.units 0x8000000000000001 ≠ 0 ∧ B64.units 0x0000000000000001 + B64.units 0x8000000000000001 = 0 ∧
      B64.units 0x0000000000000001 - B64.units 0x8000000000000001 ≠ 0 := by decide +kernel

/-- Half a unit is a tie between 0 and the smallest subnormal. -/
theorem witness_RoundingIsToNearestEven :
    0 < 2 ∧ B64.roundMag 1 2 < B64.infBits ∧ B64.signBit 0x0000000000000001 = false ∧
      B64.isFinite 0x0000000000000001 = true := by decide +kernel

/-! ### Exact arithmetic, over the rationals -/

/-- Exact arithmetic over the rationals with `PI = 3` and constant open parameters. -/
abbrev rat : Build ℚ := idealBuild ℚ 3 (fun _ => 1) (fun _ _ => 1) (fun _ => 1)

/-- T-CFG-1 over the rationals, with the clocks at `phase` and `wp`. -/
def ratRegs (phase wp : ℚ) : Regs ℚ where
  phase := phase
  warpedPhase := wp
  hardsyncPhase := 0
  hardsyncIncrement := 0
  minSweep := 4
  sampleRate := 1024
  maxWarpInc := 1 / 4
  phaseIncPerHz := 1 / 512
  maxSweepFreq := 128
  maxSyncFreq := 1
  syncPhaseIncrement := 1
  freqMax := 512
  configured := true
  neg := false

theorem rat_params : IdealParams ℚ 3 (fun _ => 1) (fun _ _ => 1) (fun _ => 1) := by
  simp only [IdealParams]; norm_num

theorem rat_constants (phase wp : ℚ) : ConstantsAgree rat (ratRegs phase wp) := by
  simp only [ConstantsAgree, ratRegs, sampleRateLegal, idealBuild, idealSys, decide_eq_true_eq, Bool.and_eq_true]
  norm_num

theorem rat_inv {phase wp : ℚ} (h : 0 ≤ wp ∧ wp ≤ 2 ∧ 0 ≤ phase) : IdealInv rat (ratRegs phase wp) := by
  refine ⟨rfl, rat_constants _ _, ?_, ?_, fun _ => rfl⟩
  · simp only [SyncRange, ratRegs, idealBuild, idealSys, decide_eq_true_eq]; norm_num
  · simp only [ShapeRange, ratRegs, idealBuild, idealSys, decide_eq_true_eq]; exact h

theorem witness_SeedingKeepsClocksInRange :
    IdealParams ℚ 3 (fun _ => 1) (fun _ _ => 1) (fun _ => 1) ∧ sampleRateLegal rat 1024 = true ∧
      IdealInv rat (ratRegs 0 0) := by
  refine ⟨rat_params, ?_, rat_inv (by norm_num)⟩
  simp only [sampleRateLegal, idealBuild, idealSys]; norm_num

theorem witness_StepKeepsClocksInRange :
    IdealParams ℚ 3 (fun _ => 1) (fun _ _ => 1) (fun _ => 1) ∧ IdealInv rat (ratRegs 3 2) :=
  ⟨rat_params, rat_inv (by norm_num)⟩

/-- The frequency 16 of T-SQ-1, on the normal path. -/
theorem witness_SegmentsAreInOrder :
    ConstantsAgree rat (ratRegs 0 0) ∧ (0 : ℚ) ≤ 16 ∧ 16 < (ratRegs 0 0).maxSweepFreq ∧
      (ratRegs 0 0).phaseIncPerHz * 16 = 1 / 32 ∧ (0 : ℚ) < 1 / 32 := by
  refine ⟨rat_constants 0 0, ?_⟩
  simp only [ratRegs]; norm_num

/-- The STEP of T-SQ-1, as often as the longest run of the cases below. -/
abbrev squareRun (n : Nat) : List (StepOps ℚ) := List.replicate n ⟨16, 1, 0, false⟩

/-- The sweep-down: from its start for all of `min_sweep`, and one STEP before its end. -/
theorem witness_NoSweepIsShorterThanMinSweep_down :
    IdealInv rat (ratRegs 0 0) ∧ AllNormal rat (ratRegs 0 0) (squareRun 4) ∧
      ((squareRun 4).length : ℚ) ≤ (1 - (ratRegs 0 0).warpedPhase) * (ratRegs 0 0).minSweep ∧
    IdealInv rat (ratRegs (3 / 32) (3 / 4)) ∧ AllNormal rat (ratRegs (3 / 32) (3 / 4)) (squareRun 1) ∧
      ((squareRun 1).length : ℚ) ≤ (1 - (ratRegs (3 / 32) (3 / 4)).warpedPhase) * (ratRegs (3 / 32) (3 / 4)).minSweep :=
  ⟨rat_inv (by norm_num), by simp only [AllNormal, List.replicate]; decide +kernel, by decide +kernel,
    rat_inv (by norm_num), by simp only [AllNormal, List.replicate]; decide +kernel, by decide +kernel⟩

/-- The sweep-up, one STEP before its end. -/
theorem witness_NoSweepIsShorterThanMinSweep_up :
    IdealInv rat (ratRegs (35 / 32) (7 / 4)) ∧ 1 < (ratRegs (35 / 32) (7 / 4)).warpedPhase ∧
      AllNormal rat (ratRegs (35 / 32) (7 / 4)) (squareRun 1) ∧
      ((squareRun 1).length : ℚ) ≤ (2 - (ratRegs (35 / 32) (7 / 4)).warpedPhase) * (ratRegs (35 / 32) (7 / 4)).minSweep :=
  ⟨rat_inv (by norm_num), by decide +kernel, by simp only [AllNormal, List.replicate]; decide +kernel,
    by decide +kernel⟩

/-- The sweep-up from `warped_phase = 1`: from `phase = mid` for all of `min_sweep`, and one STEP less from past `mid`. -/
theorem witness_NoSweepIsShorterThanMinSweep_entry :
    IdealParams ℚ 3 (fun _ => 1) (fun _ _ => 1) (fun _ => 1) ∧
    IdealInv rat (ratRegs 1 1) ∧ (ratRegs 1 1).warpedPhase = 1 ∧ AllNormal rat (ratRegs 1 1) (squareRun 4) ∧
      (∀ o ∈ (squareRun 4).head?, (ratRegs 1 1).phase ≤ (effGeometry rat o (ratRegs 1 1)).mid) ∧
      ((squareRun 4).length : ℚ) ≤ (ratRegs 1 1).minSweep ∧
    IdealInv rat (ratRegs (33 / 32) 1) ∧ AllNormal rat (ratRegs (33 / 32) 1) (squareRun 3) ∧
      ((squareRun 3).length : ℚ) + 1 ≤ (ratRegs (33 / 32) 1).minSweep :=
  ⟨rat_params, rat_inv (by norm_num), rfl, by simp only [AllNormal, List.replicate]; decide +kernel,
    by simp only [List.replicate, List.head?]; decide +kernel, by decide +kernel,
    rat_inv (by norm_num), by simp only [AllNormal, List.replicate]; decide +kernel, by decide +kernel⟩

/-- A STEP without a wrap, one with a wrap at the terminal flat, and one on the fast path. -/
theorem witness_WarpedPhaseFallsOnlyAtAWrap :
    IdealParams ℚ 3 (fun _ => 1) (fun _ _ => 1) (fun _ => 1) ∧
    IdealInv rat (ratRegs 0 0) ∧ (oscStep rat 16 1 0 false (ratRegs 0 0)).syncOut = false ∧
    IdealInv rat (ratRegs 2 2) ∧ (oscStep rat 16 1 0 false (ratRegs 2 2)).syncOut = true ∧
      onFastPath rat (ratRegs 2 2) (effFreq rat ⟨16, 1, 0, false⟩ (ratRegs 2 2)) = false ∧
    IdealInv rat (ratRegs 0 (7 / 4)) ∧ (oscStep rat 128 0 0 false (ratRegs 0 (7 / 4))).syncOut = true ∧
      onFastPath rat (ratRegs 0 (7 / 4)) (effFreq rat ⟨128, 0, 0, false⟩ (ratRegs 0 (7 / 4))) = true :=
  ⟨rat_params, rat_inv (by norm_num), by decide +kernel, rat_inv (by norm_num), by decide +kernel, by decide +kernel,
    rat_inv (by norm_num), by decide +kernel, by decide +kernel⟩

/-- A wrap with a sync held at `PI`. -/
theorem witness_WarpedPhaseFallsOnlyAtAWrap_sync :
    IdealInv rat { ratRegs 2 2 with hardsyncPhase := 3 } ∧
      (oscStep rat 16 1 0 false { ratRegs 2 2 with hardsyncPhase := 3 }).syncOut = true := by
  refine ⟨⟨rfl, rat_constants 2 2, ?_, ?_, fun _ => rfl⟩, by decide +kernel⟩
  · simp only [SyncRange, ratRegs, idealBuild, idealSys, decide_eq_true_eq]; norm_num
  · simp only [ShapeRange, ratRegs, idealBuild, idealSys, decide_eq_true_eq]; norm_num

theorem witness_ZeroFrequencyHolds :
    IdealParams ℚ 3 (fun _ => 1) (fun _ _ => 1) (fun _ => 1) ∧ IdealInv rat (ratRegs 1 2) ∧
      (ratRegs 1 2).hardsyncPhase = 0 ∧ (0 : ℚ) ≤ 0 ∧ ¬(2 ≤ (ratRegs 1 2).warpedPhase ∧ 2 ≤ (ratRegs 1 2).phase) := by
  refine ⟨rat_params, rat_inv (by norm_num), rfl, le_refl _, ?_⟩
  simp only [ratRegs]; norm_num

theorem witness_RampInterpolates : IdealParams ℚ 3 (fun _ => 1) (fun _ _ => 1) (fun _ => 1) := rat_params

theorem witness_TriggerOnTerminalFlatEndsCycle :
    IdealParams ℚ 3 (fun _ => 1) (fun _ _ => 1) (fun _ => 1) ∧ IdealInv rat (ratRegs 1 2) ∧
      (ratRegs 1 2).hardsyncPhase = 0 ∧ (ratRegs 1 2).warpedPhase = 2 :=
  ⟨rat_params, rat_inv (by norm_num), rfl, rfl⟩

/-! ### The through-zero build -/

theorem witness_FlipIsItsOwnInverse : 0 ≤ (ratRegs 0 1).phase ∧ (ratRegs 0 1).phase < 2 := by
  simp only [ratRegs]; norm_num

theorem witness_SignFlipMirrorsOrIsDeferred :
    (at1 0 0).regs.configured = true ∧ B64.lt 0xC030000000000000 0 ≠ (at1 0 0).regs.neg ∧
      B64.eq (at1 0 0).regs.hardsyncPhase 0 = true := ⟨rfl, by decide +kernel⟩

/-- The deferred flip: the sign changes while a sync is active. -/
theorem witness_SignFlipMirrorsOrIsDeferred_sync :
    (hwSync 0x3FF0000000000000).regs.configured = true ∧
      B64.lt 0xC030000000000000 0 ≠ (hwSync 0x3FF0000000000000).regs.neg ∧
      B64.eq (hwSync 0x3FF0000000000000).regs.hardsyncPhase 0 = false := ⟨rfl, by decide +kernel⟩

theorem witness_NegativeRegionUsesMagnitudeAndInvertedSkew :
    ({ (at1 0 0).regs with neg := true }).neg = true ∧ B64.lt 0xC030000000000000 0 = true ∧
      B64.eq ({ (at1 0 0).regs with neg := true }).hardsyncPhase 0 = true := ⟨rfl, by decide +kernel⟩

end Sys2Proof.Tests
end

section
/-! PROOFS, the numbers of 00_scope.md: what the comparisons of R18 exclude, the three answers of `clamp` (R13), and O48. -/

namespace Sys2Proof.Machine

open Config B64

/-! ### Comparisons (R18) -/

namespace B64

/-- `x < y` of bit patterns that may be infinite: neither is a NaN, and their places in the order are. -/
theorem lt_iff_notNaN_key {x y : Bin64} :
    lt x y = true ↔ isNaN x = false ∧ isNaN y = false ∧ key x < key y := by
  simp [lt, and_assoc]

/-- `x <= y` of bit patterns that may be infinite: neither is a NaN, and their places in the order are. -/
theorem le_iff_notNaN_key {x y : Bin64} :
    le x y = true ↔ isNaN x = false ∧ isNaN y = false ∧ key x ≤ key y := by
  simp [le, and_assoc]

theorem le_eq_false_of_lt {x y : Bin64} (h : lt x y = true) : le y x = false := by
  obtain ⟨_, _, hk⟩ := lt_iff_notNaN_key.1 h
  rw [← Bool.not_eq_true, le_iff_notNaN_key]
  exact fun ⟨_, _, hk'⟩ => hk.not_ge hk'

theorem lt_eq_false_of_le {x y : Bin64} (h : le x y = true) : lt y x = false := by
  obtain ⟨_, _, hk⟩ := le_iff_notNaN_key.1 h
  rw [← Bool.not_eq_true, lt_iff_notNaN_key]
  exact fun ⟨_, _, hk'⟩ => hk.not_gt hk'

theorem le_of_le_of_lt {x y z : Bin64} (h : le x y = true) (h' : lt y z = true) : le x z = true := by
  obtain ⟨hx, _, hxy⟩ := le_iff_notNaN_key.1 h
  obtain ⟨_, hz, hyz⟩ := lt_iff_notNaN_key.1 h'
  exact le_iff_notNaN_key.2 ⟨hx, hz, hxy.trans hyz.le⟩

theorem le_nan_left {x : Bin64} (h : isNaN x = true) (y : Bin64) : le x y = false := by simp [le, h]

theorem lt_nan_left {x : Bin64} (h : isNaN x = true) (y : Bin64) : lt x y = false := by simp [lt, h]

theorem key_posInf : key 0x7FF0000000000000 = (infBits : Int) := rfl

theorem key_negInf : key 0xFFF0000000000000 = -(infBits : Int) := rfl

theorem lt_posInf {x : Bin64} (h : isFinite x = true) : lt x 0x7FF0000000000000 = true := by
  have hk := key_natAbs_lt h
  refine lt_iff_notNaN_key.2 ⟨isNaN_of_isFinite h, rfl, ?_⟩
  rw [key_posInf]; omega

theorem negInf_lt {x : Bin64} (h : isFinite x = true) : lt 0xFFF0000000000000 x = true := by
  have hk := key_natAbs_lt h
  refine lt_iff_notNaN_key.2 ⟨rfl, isNaN_of_isFinite h, ?_⟩
  rw [key_negInf]; omega

/-- `-0` stands in the order where `0` stands. -/
theorem le_negZero_left (y : Bin64) : le 0x8000000000000000 y = le 0 y := rfl

end B64

/-! ### The three answers of `clamp` (R13) -/

section Branches

variable {α : Type} (N : NumSys α) {x lo hi : α}

theorem clamp_eq_self (h1 : N.le lo x = true) (h2 : N.le x hi = true) : clamp N x lo hi = x := by
  simp [clamp, h1, h2]

theorem clamp_eq_lo (h1 : N.le lo x = false) (h2 : N.lt x lo = true) : clamp N x lo hi = lo := by
  simp [clamp, h1, h2]

theorem clamp_eq_hi (h1 : N.le x hi = false) (h2 : N.lt x lo = false) : clamp N x lo hi = hi := by
  simp [clamp, h1, h2]

end Branches

section Bounds

variable {x lo hi : Bin64}

theorem clamp_of_lt_lo (h : B64.lt x lo = true) : clamp B64.sys x lo hi = lo :=
  clamp_eq_lo B64.sys (le_eq_false_of_lt h) h

theorem clamp_of_hi_lt (hb : B64.le lo hi = true) (h : B64.lt hi x = true) : clamp B64.sys x lo hi = hi :=
  clamp_eq_hi B64.sys (le_eq_false_of_lt h) (lt_eq_false_of_le (le_of_le_of_lt hb h))

theorem clamp_of_isNaN (h : B64.isNaN x = true) : clamp B64.sys x lo hi = hi :=
  clamp_eq_hi B64.sys (le_nan_left h hi) (lt_nan_left h lo)

theorem clamp_negZero (hb : B64.le 0 hi = true) : clamp B64.sys 0x8000000000000000 0 hi = 0x8000000000000000 :=
  clamp_eq_self B64.sys (by decide) ((le_negZero_left hi).trans hb)

end Bounds

/-- Settles O48. An infinity is beyond either finite bound, so its clauses are those of an operand out of range. -/
theorem clampGivesNearestBound : Obligations.ClampGivesNearestBound := by
  unfold Obligations.ClampGivesNearestBound
  refine ⟨fun _ _ _ => rfl, fun x lo hi hlo hhi hb => ⟨?inRange, ?below, ?above, ?nan, ?posInf, ?negInf, ?negZero⟩⟩
  case inRange => exact clamp_eq_self B64.sys
  case below => exact clamp_of_lt_lo
  case above => exact clamp_of_hi_lt hb
  case nan => exact clamp_of_isNaN
  case posInf => exact clamp_of_hi_lt hb (lt_posInf hhi)
  case negInf => exact clamp_of_lt_lo (negInf_lt hlo)
  case negZero =>
    rintro rfl
    exact clamp_negZero hb

end Sys2Proof.Machine
end

section
/-! PROOFS, the encoding of 30_encoding.md: the fields of a frame put together from them (R65), the decoder opcode by
opcode (R66, R70), the answer to what is reserved (R71, R72), the pseudo-commands (R78), and O2, O3, O6, O8, O19. -/

namespace Sys2Proof

/-! ### The fields of a frame (R65) -/

section Fields

variable {f3 f2 f1 f0 : Bin64} {rsv : BitVec 4} {t : Bool} {op : BitVec 3}

theorem tField_mkFrame : tField (mkFrame f3 f2 f1 f0 rsv t op) = t := by
  rw [tField, mkFrame_getLsbD]
  simp

/-- The four lanes stand above the low byte. -/
theorem extractLsb'_mkFrame {start : Nat} (h : 8 ≤ start) :
    (mkFrame f3 f2 f1 f0 rsv t op).extractLsb' start 64 = (f3 ++ f2 ++ f1 ++ f0).extractLsb' (start - 8) 64 := by
  unfold mkFrame
  change @BitVec.extractLsb' (64 + 64 + 64 + 64 + 4 + 1 + 3) _ _ _ = _
  rw [BitVec.extractLsb'_append_eq_of_le (by omega), BitVec.extractLsb'_append_eq_of_le (by omega),
    BitVec.extractLsb'_append_eq_of_le (by omega), Nat.sub_sub, Nat.sub_sub]

theorem lane0_mkFrame : lane0 (mkFrame f3 f2 f1 f0 rsv t op) = f0 := by
  rw [lane0, extractLsb'_mkFrame (by decide)]
  exact BitVec.extractLsb'_append_eq_right

theorem lane1_mkFrame : lane1 (mkFrame f3 f2 f1 f0 rsv t op) = f1 := by
  rw [lane1, extractLsb'_mkFrame (by decide), BitVec.extractLsb'_append_eq_of_le (by decide)]
  exact BitVec.extractLsb'_append_eq_right

theorem lane2_mkFrame : lane2 (mkFrame f3 f2 f1 f0 rsv t op) = f2 := by
  rw [lane2, extractLsb'_mkFrame (by decide), BitVec.extractLsb'_append_eq_of_le (by decide),
    BitVec.extractLsb'_append_eq_of_le (by decide)]
  exact BitVec.extractLsb'_append_eq_right

theorem lane3_mkFrame : lane3 (mkFrame f3 f2 f1 f0 rsv t op) = f3 := by
  rw [lane3, extractLsb'_mkFrame (by decide), BitVec.extractLsb'_append_eq_of_le (by decide),
    BitVec.extractLsb'_append_eq_of_le (by decide)]
  exact BitVec.extractLsb'_append_eq_left

end Fields

/-! ### The decoder, opcode by opcode (R66, R70 to R72) -/

theorem opField_cases (op : BitVec 3) :
    op = 0 ∨ op = 1 ∨ op = 2 ∨ op = 3 ∨ op = 4 ∨ op = 5 ∨ op = 6 ∨ op = 7 := by
  revert op; decide

section Decoder

variable {w : Frame}

theorem decode_of_rsvField_ne_zero (h : rsvField w ≠ 0) : decode w = .error .reservedBits := if_neg h

theorem decode_nop (hr : rsvField w = 0) (ho : opField w = 0) : decode w = .ok .nop := by
  simp [decode, hr, ho]

theorem decode_config (hr : rsvField w = 0) (ho : opField w = 1) :
    decode w = .ok (.config (lane0 w) (lane1 w) (lane3 w)) := by
  simp [decode, hr, ho]

theorem decode_setphase (hr : rsvField w = 0) (ho : opField w = 2) :
    decode w = .ok (.setphase (lane0 w) (lane1 w) (lane2 w) (lane3 w)) := by
  simp [decode, hr, ho]

theorem decode_step (hr : rsvField w = 0) (ho : opField w = 3) :
    decode w = .ok (.step (lane0 w) (lane1 w) (lane2 w) (tField w)) := by
  simp [decode, hr, ho]

theorem decode_getms (hr : rsvField w = 0) (ho : opField w = 4) : decode w = .ok .getms := by
  simp [decode, hr, ho]

theorem decode_reserved5 (hr : rsvField w = 0) (ho : opField w = 5) : decode w = .ok .reserved5 := by
  simp [decode, hr, ho]

theorem decode_reserved6 (hr : rsvField w = 0) (ho : opField w = 6) : decode w = .ok .reserved6 := by
  simp [decode, hr, ho]

theorem decode_reserved7 (hr : rsvField w = 0) (ho : opField w = 7) : decode w = .ok .reserved7 := by
  simp [decode, hr, ho]

/-- Without reserved bits the decoder answers a command, and the opcode field says which (R70). -/
theorem exists_decode_eq_ok (hr : rsvField w = 0) : ∃ i, decode w = .ok i ∧ opcode i = opField w := by
  rcases opField_cases (opField w) with ho | ho | ho | ho | ho | ho | ho | ho
  · exact ⟨_, decode_nop hr ho, ho.symm⟩
  · exact ⟨_, decode_config hr ho, ho.symm⟩
  · exact ⟨_, decode_setphase hr ho, ho.symm⟩
  · exact ⟨_, decode_step hr ho, ho.symm⟩
  · exact ⟨_, decode_getms hr ho, ho.symm⟩
  · exact ⟨_, decode_reserved5 hr ho, ho.symm⟩
  · exact ⟨_, decode_reserved6 hr ho, ho.symm⟩
  · exact ⟨_, decode_reserved7 hr ho, ho.symm⟩

end Decoder

/-- Settles O3: the reserved bits are looked at first, then the opcode, and each of its eight values has a command. -/
theorem decoderIsTotal : Obligations.DecoderIsTotal :=
  fun _ => ⟨decode_of_rsvField_ne_zero, exists_decode_eq_ok⟩

/-- Settles O2: the decoder's equation for the opcode, with the lanes it names read back from the frame. -/
theorem decodeReadsExactlyItsLanes : Obligations.DecodeReadsExactlyItsLanes := by
  intro f3 f2 f1 f0 t
  have hr (op : BitVec 3) : rsvField (mkFrame f3 f2 f1 f0 0 t op) = 0 := rsvField_mkFrame ..
  have ho (op : BitVec 3) : opField (mkFrame f3 f2 f1 f0 0 t op) = op := opField_mkFrame ..
  refine ⟨decode_nop (hr 0) (ho 0), ?config, ?setphase, ?step, decode_getms (hr 4) (ho 4),
    decode_reserved5 (hr 5) (ho 5), decode_reserved6 (hr 6) (ho 6), decode_reserved7 (hr 7) (ho 7)⟩
  case config => rw [decode_config (hr 1) (ho 1), lane0_mkFrame, lane1_mkFrame, lane3_mkFrame]
  case setphase => rw [decode_setphase (hr 2) (ho 2), lane0_mkFrame, lane1_mkFrame, lane2_mkFrame, lane3_mkFrame]
  case step => rw [decode_step (hr 3) (ho 3), lane0_mkFrame, lane1_mkFrame, lane2_mkFrame, tField_mkFrame]

end Sys2Proof

namespace Sys2Proof.Machine

open Sys2Proof.Safety

/-! ### The pseudo-commands (R78) -/

section Assembler

variable {last : Option StepOperands} {l : AsmLine} {is : List Instr}

theorem expandProgram_cons (h : l.expand last = some is) (ls : List AsmLine) :
    expandProgram last (l :: ls) = (expandProgram (is.foldl lastStep last) ls).map (is ++ ·) := by
  simp [expandProgram, h]

theorem expandProgram_singleton (h : l.expand last = some is) : expandProgram last [l] = some is := by
  rw [expandProgram_cons h]
  simp [expandProgram]

end Assembler

/-- Settles O6. RESEED takes the operands of the STEP that its program begins with. -/
theorem pseudoCommandsExpand : Obligations.PseudoCommandsExpand := by
  intro a b c d t n
  refine ⟨expandProgram_singleton rfl, expandProgram_singleton rfl, expandProgram_singleton rfl, ?reseed⟩
  have hreseed : expandProgram (some ⟨a, b, c⟩) [.reseed d] = some [.setphase a b c d] := expandProgram_singleton rfl
  calc expandProgram none [.plain (.step a b c t), .reseed d]
      = (expandProgram (some ⟨a, b, c⟩) [.reseed d]).map ([.step a b c t] ++ ·) := expandProgram_cons rfl _
    _ = some [.step a b c t, .setphase a b c d] := by rw [hreseed]; rfl

/-! ### What is reserved (R71, R72) -/

/-- A presented frame is accepted and performed at the next step (R75, R76). -/
theorem step_present (s : State) (w : Frame) : step (s.present w) = perform w { s with cmdReady := true } := rfl

theorem perform_of_decode_eq_ok {w : Frame} {i : Instr} (h : decode w = .ok i) (s : State) :
    perform w s = exec i s := by
  simp [perform, h]

/-- `ERR_RESERVED` is the frame 3: `sync_out = 0` and the value `+0` (R68, R71). -/
theorem raise_errReserved (s : State) : raise .errReserved s = .next (responded s s.regs 3) := by
  rw [raise_eq]
  exact congrArg (fun w => Host.Outcome.next (responded s s.regs w)) rspFrameOf_reserved

theorem exec_reserved5 (s : State) : exec .reserved5 s = .next (responded s s.regs 3) := raise_errReserved s

theorem exec_reserved6 (s : State) : exec .reserved6 s = .next (responded s s.regs 3) := raise_errReserved s

theorem exec_reserved7 (s : State) : exec .reserved7 s = .next (responded s s.regs 3) := raise_errReserved s

theorem perform_of_rsvField_ne_zero {w : Frame} (h : rsvField w ≠ 0) (s : State) :
    perform w s = .next (responded s s.regs 3) := by
  simp only [perform, decode_of_rsvField_ne_zero h]
  exact raise_errReserved s

/-- A frame without reserved bits and with opcode 5, 6 or 7 is answered `ERR_RESERVED` (R71). -/
theorem perform_of_five_le_opField {w : Frame} (hr : rsvField w = 0) (h : 5 ≤ (opField w).toNat) (s : State) :
    perform w s = .next (responded s s.regs 3) := by
  have hop : opField w = 5 ∨ opField w = 6 ∨ opField w = 7 := by bv_omega
  rcases hop with ho | ho | ho
  · rw [perform_of_decode_eq_ok (decode_reserved5 hr ho), exec_reserved5]
  · rw [perform_of_decode_eq_ok (decode_reserved6 hr ho), exec_reserved6]
  · rw [perform_of_decode_eq_ok (decode_reserved7 hr ho), exec_reserved7]

/-- Settles O19. The frame is decoded to the command of its opcode, whatever its lanes hold. -/
theorem reservedOpcodesAnswerErrReserved : Obligations.ReservedOpcodesAnswerErrReserved := by
  refine ⟨fun s => ⟨exec_reserved5 s, exec_reserved6 s, exec_reserved7 s⟩, fun s f3 f2 f1 f0 t op hop => ?_⟩
  rw [step_present]
  exact perform_of_five_le_opField (rsvField_mkFrame ..) (by rwa [opField_mkFrame]) _

/-- Settles O8: both frames are answered `ERR_RESERVED`, one for its reserved bits and one for its opcode. -/
theorem reservedBitsAnswerAsReservedOpcode : Obligations.ReservedBitsAnswerAsReservedOpcode := by
  intro s w hw
  have hbits : step (s.present w) = .next (responded { s with cmdReady := true } s.regs 3) :=
    perform_of_rsvField_ne_zero hw _
  have hopcode : step (s.present (encode .reserved5)) = .next (responded { s with cmdReady := true } s.regs 3) :=
    reservedOpcodesAnswerErrReserved.2 s 0 0 0 0 false 5 le_rfl
  exact ⟨hbits.trans hopcode.symm, hbits⟩

end Sys2Proof.Machine
end

section
/-! PROOFS, the commands of 40_config_commands.md: what NOP, GETMS and CONFIG answer (R92, R100 to R102), the registers
that a legal CONFIG leaves behind (R91, R98), and O18, O20, O21. -/

namespace Sys2Proof.Machine

open Config Sys2Proof.Safety

/-! ### Answers with the value `+0` (R68, R191) -/

/-- `OK` with `sync_out = 0` and the value `+0` is the frame 0. -/
theorem complete_zero (r : Regs Bin64) (s : State) : complete r false 0 s = .next (responded s r 0) := by
  rw [complete_eq]
  exact congrArg (fun w => Host.Outcome.next (responded s r w)) rspFrameOf_ok_zero

/-- `ERR_UNCONFIGURED` is the frame 1. -/
theorem raise_errUnconfigured (s : State) : raise .errUnconfigured s = .next (responded s s.regs 1) := by
  rw [raise_eq]
  exact congrArg (fun w => Host.Outcome.next (responded s s.regs w)) rspFrameOf_unconfigured

/-- `ERR_BAD_CONFIG` is the frame 2. -/
theorem raise_errBadConfig (s : State) : raise .errBadConfig s = .next (responded s s.regs 2) := by
  rw [raise_eq]
  exact congrArg (fun w => Host.Outcome.next (responded s s.regs w)) rspFrameOf_badConfig

/-! ### NOP (R102) -/

theorem exec_nop (s : State) : exec .nop s = .next (responded s s.regs 0) := complete_zero s.regs s

/-! ### GETMS (R101) -/

section Getms

variable {s : State}

theorem exec_getms_configured (h : s.regs.configured = true) :
    exec .getms s = .next (responded s s.regs (rspFrameOf .ok false s.regs.minSweep)) := by
  simp only [exec, execGetms, h, if_true, complete_eq]

theorem exec_getms_unconfigured (h : s.regs.configured = false) :
    exec .getms s = .next (responded s s.regs 1) := by
  simp only [exec, execGetms, h, Bool.false_eq_true, if_false, raise_errUnconfigured]

end Getms

/-! ### CONFIG: the tests of the sample rate (R92) -/

theorem sys_belowInf (x : Bin64) : B64.sys.belowInf x = B64.lt x 0x7FF0000000000000 := rfl

theorem sampleRateLegal_build (sr : Bin64) :
    sampleRateLegal build sr = (B64.lt 0 sr && B64.lt sr 0x7FF0000000000000 &&
      B64.lt (B64.div 0x4000000000000000 sr) 0x7FF0000000000000) := by
  simp only [sampleRateLegal, build_toNumSys, sys_zero, sys_two, sys_lt, sys_div, sys_belowInf]

theorem sampleRateLegal_build_eq_true_iff (sr : Bin64) :
    sampleRateLegal build sr = true ↔ B64.lt 0 sr = true ∧ B64.lt sr 0x7FF0000000000000 = true ∧
      B64.lt (B64.div 0x4000000000000000 sr) 0x7FF0000000000000 = true := by
  rw [sampleRateLegal_build, Bool.and_eq_true_iff, Bool.and_eq_true_iff, and_assoc]

theorem sampleRateLegal_build_eq_false_iff (sr : Bin64) :
    sampleRateLegal build sr = false ↔ B64.lt 0 sr = false ∨ B64.lt sr 0x7FF0000000000000 = false ∨
      B64.lt (B64.div 0x4000000000000000 sr) 0x7FF0000000000000 = false := by
  rw [sampleRateLegal_build, Bool.and_eq_false_iff, Bool.and_eq_false_iff, or_assoc]

/-! ### CONFIG: its two outcomes (R100) -/

section Outcomes

variable {sr : Bin64}

theorem exec_config_legal (h : sampleRateLegal build sr = true) (ms ph : Bin64) (s : State) :
    exec (.config ms sr ph) s = .next (responded s (configure build ms sr ph s.regs) 0) := by
  simp only [exec, execConfig, configIn, h, if_true, complete_zero]

theorem exec_config_illegal (h : sampleRateLegal build sr = false) (ms ph : Bin64) (s : State) :
    exec (.config ms sr ph) s = .next (responded s s.regs 2) := by
  simp only [exec, execConfig, configIn, h, Bool.false_eq_true, if_false, raise_errBadConfig]

end Outcomes

/-! ### CONFIG: the registers it leaves behind (R91, R98) -/

section Configure

variable {α : Type} (B : Build α) (ms sr ph : α) (r : Regs α)

/-- The seeding that ends a CONFIG keeps every constant it has written (R99, R170). -/
theorem configure_sameButClocks : SameButClocks (constants B ms sr r) (configure B ms sr ph r) :=
  seed_frame ..

@[simp] theorem configure_configured : (configure B ms sr ph r).configured = true := by
  obtain ⟨⟨_, _, _, _, _, _, _, _, hconfigured, _⟩, _⟩ := configure_sameButClocks B ms sr ph r
  exact hconfigured

@[simp] theorem configure_minSweep : (configure B ms sr ph r).minSweep = minSweepOperand B ms := by
  obtain ⟨⟨hminSweep, _⟩, _⟩ := configure_sameButClocks B ms sr ph r
  exact hminSweep

end Configure

/-- The `min_sweep` operand of this hardware is clamped to `[4, 100]` (R91). -/
theorem minSweepOperand_build (ms : Bin64) :
    minSweepOperand build ms = clamp B64.sys ms 0x4010000000000000 0x4059000000000000 := rfl

/-- Settles O20. Seeding keeps the constants, so what GETMS reads after a legal CONFIG is the clamped operand. -/
theorem getmsAnswersMinSweep : Obligations.GetmsAnswersMinSweep := by
  refine ⟨fun s => ⟨exec_getms_configured, exec_getms_unconfigured⟩, ?ignoresLanes, ?afterConfig⟩
  case ignoresLanes =>
    intro f3 f2 f1 f0 t
    exact decode_getms (rsvField_mkFrame ..) (opField_mkFrame ..)
  case afterConfig =>
    intro s s' ms sr ph hlegal hexec
    rw [exec_config_legal hlegal] at hexec
    obtain rfl := Host.Outcome.next.inj hexec
    have hclamped := configure_minSweep build ms sr ph s.regs
    rw [minSweepOperand_build] at hclamped
    rw [← hclamped]
    exact exec_getms_configured (configure_configured build ms sr ph s.regs)

/-- Settles O18. The decoder looks at the reserved bits and the opcode of a NOP and at nothing else. -/
theorem nopOnlyAnswersOk : Obligations.NopOnlyAnswersOk :=
  ⟨exec_nop, fun _ _ _ _ _ => decode_nop (rsvField_mkFrame ..) (opField_mkFrame ..)⟩

/-- Settles O21: the two cases are the two outcomes of the legality test. -/
theorem illegalSampleRateIsRefused : Obligations.IllegalSampleRateIsRefused := by
  intro s ms sr ph
  refine ⟨fun hillegal => ?refused, fun hlegal => ?performed⟩
  case refused => exact exec_config_illegal ((sampleRateLegal_build_eq_false_iff sr).2 hillegal) ms ph s
  case performed =>
    exact ⟨configure build ms sr ph s.regs, exec_config_legal ((sampleRateLegal_build_eq_true_iff sr).2 hlegal) ms ph s,
      configure_configured ..⟩

end Sys2Proof.Machine
end

section
/-! PROOFS, the hard sync of 42_hardsync.md: the four lines of arming (R151), the ramp of an active sync (R152, R153),
where both stand in a STEP of this hardware (R110), and O42, O43. -/

namespace Sys2Proof.Machine

open Config Sys2Proof.Safety

/-! ### Arming, line by line (R151) -/

section Arming

variable {α : Type} {B : Build α} {f : α} {r : Regs α}

theorem arm_no_trigger (B : Build α) (f : α) (r : Regs α) : arm B false f r = r := rfl

theorem arm_of_syncActive (h : syncActive B r = true) : arm B true f r = r := by
  simp only [arm, h, if_true]

theorem arm_of_warpedPhase_eq_two (hs : syncActive B r = false) (hw : B.eq r.warpedPhase B.two = true) :
    arm B true f r = { r with phase := B.two } := by
  simp only [arm, hs, hw, if_true, Bool.false_eq_true, if_false]

theorem arm_of_maxSyncFreq_lt (hs : syncActive B r = false) (hw : B.eq r.warpedPhase B.two = false)
    (hf : B.lt r.maxSyncFreq f = true) : arm B true f r = r := by
  simp only [arm, hs, hw, hf, if_true, Bool.false_eq_true, if_false]

theorem arm_starts_ramp (hs : syncActive B r = false) (hw : B.eq r.warpedPhase B.two = false)
    (hf : B.lt r.maxSyncFreq f = false) :
    arm B true f r =
      { r with
        hardsyncIncrement := r.syncPhaseIncrement
        hardsyncPhase := B.div r.syncPhaseIncrement B.two } := by
  simp only [arm, hs, hw, hf, if_true, Bool.false_eq_true, if_false]

variable (B f r) (t : Bool)

@[simp] theorem arm_freqMax : (arm B t f r).freqMax = r.freqMax := by
  obtain ⟨_, _, _, _, _, _, _, hfreqMax, _⟩ := arm_sameConfig B t f r
  exact hfreqMax

@[simp] theorem arm_maxSyncFreq : (arm B t f r).maxSyncFreq = r.maxSyncFreq := by
  obtain ⟨_, _, _, _, _, hmaxSyncFreq, _⟩ := arm_sameConfig B t f r
  exact hmaxSyncFreq

@[simp] theorem arm_configured : (arm B t f r).configured = r.configured := by
  obtain ⟨_, _, _, _, _, _, _, _, hconfigured, _⟩ := arm_sameConfig B t f r
  exact hconfigured

end Arming

/-! ### The ramp while a sync is active (R152, R153) -/

section Ramp

variable {α : Type} {B : Build α} {r : Regs α}

theorem rampFreq_of_syncActive (h : syncActive B r = true) (f : α) :
    rampFreq B f r = B.add f (B.mul (rampWeight B r) (B.sub r.maxSyncFreq f)) := by
  simp only [rampFreq, h, if_true]

theorem rampAdvance_of_syncActive (h : syncActive B r = true) :
    rampAdvance B r =
      if B.le B.pi (B.add r.hardsyncPhase r.hardsyncIncrement) then
        { r with hardsyncPhase := B.pi, hardsyncIncrement := B.zero }
      else { r with hardsyncPhase := B.add r.hardsyncPhase r.hardsyncIncrement } := by
  simp only [rampAdvance, h, if_true]

end Ramp

/-! ### This hardware: the sync test, the operands, and the order of a STEP (R31, R110 to R113) -/

theorem syncActive_build_of_eq_zero {r : Regs Bin64} (h : B64.eq r.hardsyncPhase 0 = true) :
    syncActive build r = false := by
  rw [syncActive_build, sys_zero, h]; rfl

theorem syncActive_build_of_ne_zero {r : Regs Bin64} (h : B64.eq r.hardsyncPhase 0 = false) :
    syncActive build r = true := by
  rw [syncActive_build, sys_zero, h]; rfl

theorem freqOperand_build (s : State) (freq : Bin64) : freqOperand build s.regs freq = plainFreq s freq := rfl

theorem clipInternal_build (clip : Bin64) :
    clipInternal build clip = B64.sub 0x3FF0000000000000 (clamp B64.sys clip 0 0x3FF0000000000000) := rfl

/-- Without the through-zero extension the skew depends on no register (R112, R184). -/
theorem skewInternal_build (r : Regs Bin64) (skew : Bin64) :
    skewInternal build r skew =
      B64.sub 0x3FF0000000000000 (clamp B64.sys skew 0xBFF0000000000000 0x3FF0000000000000) := rfl

theorem rampWeight_build (r : Regs Bin64) :
    rampWeight build r = B64.mul 0x3FE0000000000000 (B64.sub 0x3FF0000000000000 (cos r.hardsyncPhase)) := rfl

/-- A STEP without the sign test, which this hardware does not have: arm, ramp, then items 5 to 8 of R110. -/
theorem oscStep_build (freq clip skew : Bin64) (t : Bool) (r : Regs Bin64) :
    oscStep build freq clip skew t r =
      advance build (rampFreq build (freqOperand build r freq) (arm build t (freqOperand build r freq) r))
        (clipInternal build clip) (skewInternal build r skew)
        (rampAdvance build (arm build t (freqOperand build r freq) r)) := by
  simp only [oscStep, signTest_off build build_tz]

/-- Arming changes nothing that the operands are clamped with, so it can be done before the STEP (R110, R151). -/
theorem oscStep_trigger (freq clip skew : Bin64) (r : Regs Bin64) :
    oscStep build freq clip skew true r =
      oscStep build freq clip skew false (arm build true (freqOperand build r freq) r) := by
  have hfreq : freqOperand build (arm build true (freqOperand build r freq) r) freq = freqOperand build r freq := by
    simp only [freqOperand, arm_freqMax]
  simp only [oscStep_build, arm_no_trigger, hfreq, skewInternal_build]

/-- A STEP with a sync active after arming runs at the ramped frequency from the advanced ramp (R113, R152, R153). -/
theorem oscStep_of_syncActive {freq : Bin64} {t : Bool} {r : Regs Bin64}
    (h : syncActive build (arm build t (freqOperand build r freq) r) = true) (clip skew : Bin64) :
    oscStep build freq clip skew t r =
      advance build
        (B64.add (freqOperand build r freq)
          (B64.mul (rampWeight build (arm build t (freqOperand build r freq) r))
            (B64.sub r.maxSyncFreq (freqOperand build r freq))))
        (clipInternal build clip) (skewInternal build r skew)
        (rampAdvance build (arm build t (freqOperand build r freq) r)) := by
  rw [oscStep_build, rampFreq_of_syncActive h, arm_maxSyncFreq, build_toNumSys, sys_add, sys_mul, sys_sub]

/-- A response replaces the registers that were put in place before it. -/
theorem responded_setRegs (s : State) (r r' : Regs Bin64) (w : RspFrame) :
    responded (s.setRegs r) r' w = responded s r' w := rfl

/-! ### The statements -/

/-- Settles O42. The STEP of both sides is the same once arming is seen to leave `freq_max` and `configured` alone; the
four lines are the branches of `arm`. -/
theorem armingFollowsItsFourLines : Obligations.ArmingFollowsItsFourLines := by
  refine ⟨fun s freq clip skew hconfigured => ?armsFirst,
    fun r f => ⟨arm_no_trigger build f r, ?active, ?inactive⟩⟩
  case armsFirst =>
    have harmed : (s.setRegs (arm build true (plainFreq s freq) s.regs)).regs.configured = true := by
      rw [State.setRegs_regs, arm_configured, hconfigured]
    rw [exec_step_configured hconfigured, exec_step_configured harmed, responded_setRegs, State.setRegs_regs,
      oscStep_trigger, freqOperand_build]
  case active => exact fun h => arm_of_syncActive (syncActive_build_of_ne_zero h)
  case inactive =>
    intro h
    have hs : syncActive build r = false := syncActive_build_of_eq_zero h
    exact ⟨arm_of_warpedPhase_eq_two hs, fun hw => ⟨arm_of_maxSyncFreq_lt hs hw, arm_starts_ramp hs hw⟩⟩

/-- Settles O43. With a sync active after arming both tests of the ramp succeed, and what is left of the STEP is
`advance` at the ramped frequency. -/
theorem syncRampsTheFrequency : Obligations.SyncRampsTheFrequency := by
  rintro s freq clip skew _ _ t _ _ _ hconfigured rfl rfl hne rfl rfl rfl
  have hactive : syncActive build (arm build t (freqOperand build s.regs freq) s.regs) = true :=
    syncActive_build_of_ne_zero hne
  rw [exec_step_configured hconfigured, oscStep_of_syncActive hactive, rampAdvance_of_syncActive hactive,
    rampWeight_build, clipInternal_build, skewInternal_build, freqOperand_build]
  rfl

end Sys2Proof.Machine
end

section
/-! PROOFS, the seeding of 43_phase_seeding.md: the target (R166), the inversion line by line (R169), the two branches
of `seed` (R167, R168), what SETPHASE answers (R171), and O25 to O28. -/

namespace Sys2Proof.Machine

open Config Sys2Proof.Safety

/-! ### Comparisons (R18): which tests on one value exclude each other -/

namespace B64

/-- `x == y` of bit patterns: neither is a NaN, and they have one place in the order. -/
theorem eq_iff_notNaN_key {x y : Bin64} :
    eq x y = true ↔ isNaN x = false ∧ isNaN y = false ∧ key x = key y := by
  simp [eq, and_assoc]

theorem le_of_eq_true {x y : Bin64} (h : eq x y = true) : le x y = true := by
  obtain ⟨hx, hy, hk⟩ := eq_iff_notNaN_key.1 h
  exact le_iff_notNaN_key.2 ⟨hx, hy, hk.le⟩

theorem ge_of_eq_true {x y : Bin64} (h : eq x y = true) : le y x = true := by
  obtain ⟨hx, hy, hk⟩ := eq_iff_notNaN_key.1 h
  exact le_iff_notNaN_key.2 ⟨hy, hx, hk.ge⟩

theorem lt_of_lt_of_le {x y z : Bin64} (h : lt x y = true) (h' : le y z = true) : lt x z = true := by
  obtain ⟨hx, _, hxy⟩ := lt_iff_notNaN_key.1 h
  obtain ⟨_, hz, hyz⟩ := le_iff_notNaN_key.1 h'
  exact lt_iff_notNaN_key.2 ⟨hx, hz, hxy.trans_le hyz⟩

theorem eq_eq_false_of_lt {x y : Bin64} (h : lt y x = true) : eq x y = false := by
  rw [← Bool.not_eq_true]
  exact fun he => Bool.false_ne_true ((le_eq_false_of_lt h).symm.trans (le_of_eq_true he))

theorem lt_eq_false_of_lt {x y : Bin64} (h : lt y x = true) : lt x y = false := by
  rw [← Bool.not_eq_true]
  exact fun hlt => Bool.false_ne_true ((le_eq_false_of_lt h).symm.trans (le_of_lt' hlt))

theorem key_of_pos {x : Bin64} (h : 0 < key x) : key x = x.toNat := by
  have hsign : signBit x = false := by
    by_contra hs
    rw [key, if_pos ((Bool.not_eq_false _).mp hs)] at h
    omega
  have hbits : x.toNat < 2 ^ 63 := BitVec.toNat_lt_of_msb_false hsign
  rw [key, hsign, if_neg Bool.false_ne_true, Nat.mod_eq_of_lt hbits]

/-- A place above 0 in the order belongs to one bit pattern; only 0 has two. -/
theorem eq_of_key_eq {x y : Bin64} (h : key x = key y) (hy : 0 < key y) : x = y := by
  have hx : 0 < key x := h ▸ hy
  rw [key_of_pos hx, key_of_pos hy, Nat.cast_inj] at h
  exact BitVec.eq_of_toNat_eq h

end B64

/-! ### The target (R166) -/

section Target

variable {x : Bin64}

theorem seedTarget_of_neg (h : B64.lt x 0 = true) : seedTarget build x = 0x3FF4000000000000 := if_pos h

theorem seedTarget_of_not_neg (h : B64.lt x 0 = false) :
    seedTarget build x = clamp B64.sys x 0 0x4000000000000000 :=
  if_neg (Bool.eq_false_iff.1 h)

end Target

/-- A value of 2 or more clamps to 2; the value 2 itself stands, which is the same bit pattern. -/
theorem clamp_of_two_le {x : Bin64} (h : B64.le 0x4000000000000000 x = true) :
    clamp B64.sys x 0 0x4000000000000000 = 0x4000000000000000 := by
  obtain ⟨hnan2, hnan, hkey⟩ := B64.le_iff_notNaN_key.1 h
  rcases hkey.lt_or_eq with hlt | heq
  · exact clamp_of_hi_lt (by decide) (B64.lt_iff_notNaN_key.2 ⟨hnan2, hnan, hlt⟩)
  · obtain rfl := B64.eq_of_key_eq heq.symm (by decide)
    exact clamp_eq_self B64.sys (by decide) h

/-- Settles O25. A value that is not negative is clamped: within the range it stands, and a NaN or a value from 2 on
gives the upper bound. -/
theorem seedTargetIsSentinelOrClamp : Obligations.SeedTargetIsSentinelOrClamp := by
  intro x
  refine ⟨seedTarget_of_neg, fun h0 h2 => ?inRange, ?nanOrAbove⟩
  case inRange =>
    rw [seedTarget_of_not_neg (B64.lt_eq_false_of_le h0)]
    exact clamp_eq_self B64.sys h0 h2
  case nanOrAbove =>
    rintro (hnan | habove)
    · rw [seedTarget_of_not_neg (B64.lt_nan_left hnan 0)]
      exact clamp_of_isNaN hnan
    · have hpos : B64.lt 0 x = true := B64.lt_of_lt_of_le (by decide) habove
      rw [seedTarget_of_not_neg (B64.lt_eq_false_of_lt hpos)]
      exact clamp_of_two_le habove

/-! ### The inversion, line by line (R169) -/

section Inversion

variable {α : Type} {B : Build α} {p : α} (g : Geometry α) (r : Regs α)

theorem seedAt_of_lt_one (h : B.lt p B.one = true) :
    seedAt B p g r = { r with warpedPhase := p, phase := B.mul p g.dlen } := by
  simp only [seedAt, h, if_true]

theorem seedAt_of_eq_one (hlt : B.lt p B.one = false) (heq : B.eq p B.one = true) :
    seedAt B p g r = { r with warpedPhase := B.one, phase := g.dlen } := by
  simp only [seedAt, hlt, heq, if_true, Bool.false_eq_true, if_false]

theorem seedAt_of_lt_two (hlt : B.lt p B.one = false) (heq : B.eq p B.one = false) (h : B.lt p B.two = true) :
    seedAt B p g r = { r with warpedPhase := p, phase := B.add g.mid (B.mul (B.sub p B.one) g.ulen) } := by
  simp only [seedAt, hlt, heq, h, if_true, Bool.false_eq_true, if_false]

theorem seedAt_of_last (hlt : B.lt p B.one = false) (heq : B.eq p B.one = false) (h : B.lt p B.two = false) :
    seedAt B p g r = { r with warpedPhase := B.two, phase := B.add g.mid g.ulen } := by
  simp only [seedAt, hlt, heq, h, Bool.false_eq_true, if_false]

end Inversion

/-! ### The two branches of `seed` (R167, R168) -/

theorem seed_of_onFastPath {α : Type} {B : Build α} {f : α} {r : Regs α}
    (h : onFastPath B r (freqOperand B r f) = true) (ph c k : α) :
    seed B ph f c k r = { r with warpedPhase := seedTarget B ph, phase := seedTarget B ph } := by
  simp only [seed, h, if_true]

/-- Below `max_sweep_freq` the target is inverted over the geometry that a STEP without a sync has. -/
theorem seed_of_normal {s : State} {freq : Bin64} (h : Normal s freq) (ph clip skew : Bin64) :
    seed build ph freq clip skew s.regs =
      seedAt build (seedTarget build ph) (plainGeometry s freq clip skew) s.regs := by
  have hpath : onFastPath build s.regs (freqOperand build s.regs freq) = false := h
  simp only [seed, hpath, Bool.false_eq_true, if_false]
  rfl

/-! ### What SETPHASE answers (R171) -/

theorem exec_setphase_unconfigured {s : State} (h : s.regs.configured = false) (freq clip skew ph : Bin64) :
    exec (.setphase freq clip skew ph) s = .next (responded s s.regs 1) := by
  simp only [exec, execSetphase, setphaseIn, h, Bool.false_eq_true, if_false, raise_errUnconfigured]

theorem exec_setphase_normal {s : State} {freq : Bin64} (hconfigured : s.regs.configured = true)
    (hnormal : Normal s freq) (clip skew ph : Bin64) :
    exec (.setphase freq clip skew ph) s = .next (responded s
      (seedAt build (seedTarget build ph) (plainGeometry s freq clip skew) s.regs) 0) := by
  rw [exec_setphase_configured hconfigured, seed_of_normal hnormal]

theorem sameButClocks_refl {α : Type} (r : Regs α) : SameButClocks r r := ⟨SameConfig.rfl' r, rfl, rfl⟩

/-- SETPHASE ends with a response and registers that differ in the clocks at most, configured or not (R170, R193). -/
theorem exec_setphase_eq_responded (s : State) (freq clip skew ph : Bin64) :
    ∃ (r : Regs Bin64) (w : RspFrame), exec (.setphase freq clip skew ph) s = .next (responded s r w) ∧
      SameButClocks s.regs r := by
  cases hconfigured : s.regs.configured with
  | false => exact ⟨_, _, exec_setphase_unconfigured hconfigured .., sameButClocks_refl s.regs⟩
  | true => exact ⟨_, _, exec_setphase_configured hconfigured .., seed_frame ..⟩

/-! ### The statements -/

/-- Settles O26: at or above `max_sweep_freq` there are no segments to invert. -/
theorem setphaseOnFastPath : Obligations.SetphaseOnFastPath := by
  intro s freq clip skew ph hconfigured hfast
  have hpath : onFastPath build s.regs (freqOperand build s.regs freq) = true := hfast
  rw [exec_setphase_configured hconfigured, seed_of_onFastPath hpath]

/-- Settles O28: seeding is the only write, and an unconfigured core refuses it. -/
theorem setphaseWritesOnlyTheClocks : Obligations.SetphaseWritesOnlyTheClocks := by
  intro s s' freq clip skew ph hexec
  obtain ⟨r, w, hanswer, hclocks⟩ := exec_setphase_eq_responded s freq clip skew ph
  obtain rfl := Host.Outcome.next.inj (hanswer.symm.trans hexec)
  exact ⟨hclocks, rfl, rfl⟩

/-- Settles O27. Each clause is one line of `seedAt`, and its hypothesis on the target excludes the lines before it. -/
theorem setphaseInvertsTheSegments : Obligations.SetphaseInvertsTheSegments := by
  intro s freq clip skew ph p f inc ci si msf mid dlen ulen hconfigured hnormal hp hf hinc hci hsi hmsf hmid hdlen hulen
  have hgeometry : plainGeometry s freq clip skew = { msf := msf, mid := mid, dlen := dlen, ulen := ulen } := by
    subst hf hinc hci hsi hmsf hmid hdlen hulen
    rfl
  have hexec := exec_setphase_normal hconfigured hnormal clip skew ph
  rw [← hp, hgeometry] at hexec
  rw [hexec]
  refine ⟨hgeometry, fun hlt => ?sweepDown, fun heq => ?flatLow, fun hgt hlt => ?sweepUp, fun heq => ?flatHigh⟩
  case sweepDown => rw [seedAt_of_lt_one _ _ hlt]; rfl
  case flatLow => rw [seedAt_of_eq_one _ _ (B64.lt_eq_false_of_le (B64.ge_of_eq_true heq)) heq]; rfl
  case sweepUp =>
    rw [seedAt_of_lt_two _ _ (B64.lt_eq_false_of_lt hgt) (B64.eq_eq_false_of_lt hgt) hlt]; rfl
  case flatHigh =>
    have hge := B64.ge_of_eq_true heq
    have hgt : B64.lt 0x3FF0000000000000 p = true := B64.lt_of_lt_of_le (by decide) hge
    rw [seedAt_of_last _ _ (B64.lt_eq_false_of_lt hgt) (B64.eq_eq_false_of_lt hgt)
      (B64.lt_eq_false_of_le hge)]; rfl

end Sys2Proof.Machine
end

section
/-! PROOFS, the unconfigured core of 70_reset_and_hazards.md (R218): the refusal of STEP (R192), and O15. -/

namespace Sys2Proof.Machine

open Sys2Proof.Safety

/-! ### STEP on an unconfigured core (R192) -/

theorem exec_step_unconfigured {s : State} (h : s.regs.configured = false) (freq clip skew : Bin64) (t : Bool) :
    exec (.step freq clip skew t) s = .next (responded s s.regs 1) := by
  simp only [exec, execStep, stepIn, h, Bool.false_eq_true, if_false, raise_errUnconfigured]

/-- Settles O15. Only SETPHASE, STEP and GETMS look at `configured`; NOP and what is reserved answer as in every state. -/
theorem unconfiguredCoreAnswers : Obligations.UnconfiguredCoreAnswers := by
  intro s hunconfigured
  refine ⟨?setphase, ?step, exec_getms_unconfigured hunconfigured, exec_nop s, exec_reserved5 s, exec_reserved6 s,
    exec_reserved7 s, ?reservedBits⟩
  case setphase => exact exec_setphase_unconfigured hunconfigured
  case step => exact exec_step_unconfigured hunconfigured
  case reservedBits => exact fun _ hbits => perform_of_rsvField_ne_zero hbits s

end Sys2Proof.Machine
end

section
/-! PROOFS, frames that read back (30_encoding.md R65, R68, R191): the fields of a response frame, and O1, O4, O5, O11. -/

namespace Sys2Proof

/-- Settles O1. The encoder's frame is `mkFrame` of the operands in their lanes, so the command comes back opcode by
opcode. -/
theorem decodeEncodeGivesCommandBack : Obligations.DecodeEncodeGivesCommandBack := by
  intro i _
  cases i with
  | nop => exact decode_nop (rsvField_mkFrame ..) (opField_mkFrame ..)
  | config ms sr ph =>
    obtain ⟨_, hconfig, _⟩ := decodeReadsExactlyItsLanes ph 0 sr ms false
    exact hconfig
  | setphase f c k p =>
    obtain ⟨_, _, hsetphase, _⟩ := decodeReadsExactlyItsLanes p k c f false
    exact hsetphase
  | step f c k t =>
    obtain ⟨_, _, _, hstep, _⟩ := decodeReadsExactlyItsLanes 0 k c f t
    exact hstep
  | getms => exact decode_getms (rsvField_mkFrame ..) (opField_mkFrame ..)
  | reserved5 => exact decode_reserved5 (rsvField_mkFrame ..) (opField_mkFrame ..)
  | reserved6 => exact decode_reserved6 (rsvField_mkFrame ..) (opField_mkFrame ..)
  | reserved7 => exact decode_reserved7 (rsvField_mkFrame ..) (opField_mkFrame ..)

/-- Settles O4: seven closed frames. -/
theorem workedFramesDecode : Obligations.WorkedFramesDecode := by
  unfold Obligations.WorkedFramesDecode
  decide +kernel

end Sys2Proof

namespace Sys2Proof.Machine

/-! ### The fields of a response frame (R68) -/

section Response

variable (st : Status) (so : Bool) (v : Bin64)

@[simp] theorem rspStatus_rspFrameOf : rspStatus (rspFrameOf st so v) = st.code := by
  unfold rspStatus rspFrameOf
  exact BitVec.extractLsb'_append_eq_right

@[simp] theorem rspSyncOut_rspFrameOf : rspSyncOut (rspFrameOf st so v) = so := by
  unfold rspSyncOut rspFrameOf
  refine (BitVec.getLsbD_append (x := v ++ (0 : BitVec 4) ++ BitVec.ofBool so)).trans ?_
  rw [BitVec.getLsbD_append, BitVec.getLsbD_ofBool]
  simp

/-- What lies above the three status bits. -/
theorem extractLsb'_rspFrameOf {start len : Nat} (h : 4 ≤ start) :
    (rspFrameOf st so v).extractLsb' start len = (v ++ (0 : BitVec 4)).extractLsb' (start - 4) len := by
  unfold rspFrameOf
  change @BitVec.extractLsb' (64 + 4 + 1 + 3) _ _ _ = _
  rw [BitVec.extractLsb'_append_eq_of_le (by omega), BitVec.extractLsb'_append_eq_of_le (by omega), Nat.sub_sub]

@[simp] theorem rspZeros_rspFrameOf : rspZeros (rspFrameOf st so v) = 0 := by
  rw [rspZeros, extractLsb'_rspFrameOf st so v (by decide)]
  exact BitVec.extractLsb'_append_eq_right

@[simp] theorem rspValue_rspFrameOf : rspValue (rspFrameOf st so v) = v := by
  rw [rspValue, extractLsb'_rspFrameOf st so v (by decide)]
  exact BitVec.extractLsb'_append_eq_left

variable {st so v}

theorem rspWellFormed_of_ok_or_zero (h : st = .ok ∨ (so = false ∧ v = 0)) :
    rspWellFormed (rspFrameOf st so v) = true := by
  have hcode : st.code.toNat ≤ 3 := by cases st <;> decide
  have hvalue : st.code = 0 ∨ (so = false ∧ v = 0) := h.imp_left fun hok => by rw [hok]; rfl
  simpa [rspWellFormed, hcode] using hvalue

end Response

/-- Settles O5. -/
theorem responseFieldsReadBack : Obligations.ResponseFieldsReadBack := fun st so v =>
  ⟨rspStatus_rspFrameOf st so v, rspSyncOut_rspFrameOf st so v, rspZeros_rspFrameOf st so v,
    rspValue_rspFrameOf st so v, rspWellFormed_of_ok_or_zero⟩

/-- Settles O11: one closed state. -/
theorem resetStateAsTheSpecGivesIt : Obligations.ResetStateAsTheSpecGivesIt :=
  ⟨rfl, by decide, by decide, by decide, rfl, rfl⟩

end Sys2Proof.Machine
end

section
/-! PROOFS, the ports and the answers: how a command ends (60_exceptions.md R190, R193), what one instant does
(30_encoding.md R76, 70_reset_and_hazards.md R215), and O7, O9, O10, O12, O13, O16, O17. -/

namespace Sys2Proof.Machine

open Config Sys2Proof.Safety

/-! ### The four commands that make a test (R92, R110, R171, R192) -/

section Tests

variable (s : State)

theorem exec_config (ms sr ph : Bin64) : exec (.config ms sr ph) s =
    if sampleRateLegal build sr then complete (configure build ms sr ph s.regs) false 0 s
    else raise .errBadConfig s := rfl

theorem exec_setphase (f c k p : Bin64) : exec (.setphase f c k p) s =
    if s.regs.configured then complete (seed build p f c k s.regs) false 0 s else raise .errUnconfigured s := rfl

theorem exec_step (f c k : Bin64) (t : Bool) : exec (.step f c k t) s =
    if s.regs.configured then
      complete (oscStep build f c k t s.regs).regs (oscStep build f c k t s.regs).syncOut
        (oscStep build f c k t s.regs).sample s
    else raise .errUnconfigured s := rfl

theorem exec_getms : exec .getms s =
    if s.regs.configured then complete s.regs false s.regs.minSweep s else raise .errUnconfigured s := rfl

end Tests

/-! ### How a command ends (R68, R193) -/

/-- The two ends of a command from state `s`: it is performed and answers `OK`, or it answers another status, with
`sync_out = 0` and the value `+0`, and writes no register (R193). -/
inductive Answers (s : State) : Host.Outcome State Fault Refusal → Prop
  | performed (r : Regs Bin64) (so : Bool) (v : Bin64) : Answers s (.next (responded s r (rspFrameOf .ok so v)))
  | failed (st : Status) : Answers s (.next (responded s s.regs (rspFrameOf st false 0)))

/-- Every command ends in one of the two ways. -/
theorem exec_answers (i : Instr) (s : State) : Answers s (exec i s) := by
  cases i with
  | nop => exact .performed ..
  | config ms sr ph => rw [exec_config]; split; exacts [.performed .., .failed _]
  | setphase f c k p => rw [exec_setphase]; split; exacts [.performed .., .failed _]
  | step f c k t => rw [exec_step]; split; exacts [.performed .., .failed _]
  | getms => rw [exec_getms]; split; exacts [.performed .., .failed _]
  | reserved5 => exact .failed _
  | reserved6 => exact .failed _
  | reserved7 => exact .failed _

/-- So does every accepted frame, one with reserved bits among them. -/
theorem perform_answers (w : Frame) (s : State) : Answers s (perform w s) := by
  by_cases h : rsvField w = 0
  · obtain ⟨i, hi, _⟩ := exists_decode_eq_ok h
    rw [perform_of_decode_eq_ok hi]
    exact exec_answers i s
  · simp only [perform, decode_of_rsvField_ne_zero h]
    exact .failed _

/-- Either way the response is one that R68 allows, and nothing but registers and response port changes. -/
theorem Answers.exists_responded {s : State} {o : Host.Outcome State Fault Refusal} (h : Answers s o) :
    ∃ r w, o = .next (responded s r w) ∧ rspWellFormed w = true := by
  cases h with
  | performed r so v => exact ⟨_, _, rfl, rspWellFormed_of_ok_or_zero (.inl rfl)⟩
  | failed st => exact ⟨_, _, rfl, rspWellFormed_of_ok_or_zero (.inr ⟨rfl, rfl⟩)⟩

/-- Settles O16: an answer with a status other than `OK` is a failure. -/
theorem failedCommandWritesNothing : Obligations.FailedCommandWritesNothing := by
  intro i s s' hexec hstatus
  have hanswers := exec_answers i s
  rw [hexec] at hanswers
  cases hanswers with
  | performed r so v => exact absurd (rspStatus_rspFrameOf .ok so v) hstatus
  | failed st => exact ⟨rfl, rspSyncOut_rspFrameOf .., rspValue_rspFrameOf .., rfl, rfl⟩

/-- What a command other than CONFIG and STEP does: its response has `sync_out = 0`, and its registers differ in the
clocks at most (R29, R35). -/
theorem exec_eq_responded {i : Instr} (hconfig : ∀ a b c, i ≠ .config a b c) (hstep : ∀ f c k t, i ≠ .step f c k t)
    (s : State) : ∃ r st v, exec i s = .next (responded s r (rspFrameOf st false v)) ∧ SameButClocks s.regs r := by
  have hself := sameButClocks_refl s.regs
  cases i with
  | nop => exact ⟨_, _, _, rfl, hself⟩
  | config ms sr ph => exact absurd rfl (hconfig ms sr ph)
  | setphase f c k p =>
    rw [exec_setphase]
    split
    · exact ⟨_, _, _, rfl, seed_frame ..⟩
    · exact ⟨_, _, _, rfl, hself⟩
  | step f c k t => exact absurd rfl (hstep f c k t)
  | getms => rw [exec_getms]; split <;> exact ⟨_, _, _, rfl, hself⟩
  | reserved5 => exact ⟨_, _, _, rfl, hself⟩
  | reserved6 => exact ⟨_, _, _, rfl, hself⟩
  | reserved7 => exact ⟨_, _, _, rfl, hself⟩

/-- CONFIG answers with `sync_out = 0`, performed or refused (R29, R100). -/
theorem exec_config_eq_responded (ms sr ph : Bin64) (s : State) :
    ∃ r st v, exec (.config ms sr ph) s = .next (responded s r (rspFrameOf st false v)) := by
  rw [exec_config]
  split <;> exact ⟨_, _, _, rfl⟩

/-- Settles O17. -/
theorem onlyStepSetsSyncOut : Obligations.OnlyStepSetsSyncOut := by
  intro i s s' hstep hexec
  have hanswer : ∃ r st v, exec i s = .next (responded s r (rspFrameOf st false v)) := by
    by_cases hconfig : ∃ a b c, i = .config a b c
    · obtain ⟨ms, sr, ph, rfl⟩ := hconfig
      exact exec_config_eq_responded ms sr ph s
    · push Not at hconfig
      obtain ⟨r, st, v, hresponded, _⟩ := exec_eq_responded hconfig hstep s
      exact ⟨r, st, v, hresponded⟩
  obtain ⟨r, st, v, hresponded⟩ := hanswer
  obtain rfl := Host.Outcome.next.inj (hresponded.symm.trans hexec)
  exact rspSyncOut_rspFrameOf ..

/-! ### One instant of the ports (R75, R76, R215) -/

section Instant

variable {s : State} {i : HostInput} {rest : List HostInput}

theorem step_no_input (h : s.host = []) : step s = .next { s.idle with cmdReady := true } := by
  simp only [step, nextInstant, h]

theorem step_rst (h : s.host = i :: rest) (hrst : i.rst = true) : step s = .next (s.takeInput i rest).assertRst := by
  simp only [step, nextInstant, h, instant, hrst, if_true]

theorem step_no_command (h : s.host = i :: rest) (hrst : i.rst = false) (hvalid : i.cmdValid = false) :
    step s = .next (s.takeInput i rest).idle := by
  simp only [step, nextInstant, h, instant, hrst, acceptedAt, hvalid, Bool.false_and, Bool.false_eq_true, if_false]

theorem step_command (h : s.host = i :: rest) (hrst : i.rst = false) (hvalid : i.cmdValid = true) :
    step s = perform i.cmdFrame { s with cmdReady := true, host := rest } := by
  simp only [step, nextInstant, h, instant, hrst, acceptedAt, hvalid, readyAt, State.takeInput, Bool.not_false,
    Bool.and_self, Bool.false_eq_true, if_true, if_false]

end Instant

/-- What one step of the machine can be: reset, no command, or an accepted frame. -/
theorem step_cases (s : State) :
    (∃ s', step s = .next s' ∧ s'.regs = Regs.reset ∧ s'.rspFrame = 0) ∨
      (∃ s', step s = .next s' ∧ s'.regs = s.regs ∧ s'.rspFrame = s.rspFrame) ∨
      ∃ w rest, step s = perform w { s with cmdReady := true, host := rest } := by
  cases hhost : s.host with
  | nil => exact .inr (.inl ⟨_, step_no_input hhost, rfl, rfl⟩)
  | cons i rest =>
    cases hrst : i.rst with
    | true => exact .inl ⟨_, step_rst hhost hrst, rfl, rfl⟩
    | false =>
      cases hvalid : i.cmdValid with
      | false => exact .inr (.inl ⟨_, step_no_command hhost hrst hvalid, rfl, rfl⟩)
      | true => exact .inr (.inr ⟨_, _, step_command hhost hrst hvalid⟩)

/-- Settles O7. -/
theorem stepRunsTheAcceptedCommand : Obligations.StepRunsTheAcceptedCommand := by
  intro s i rest c hhost hrst hvalid hdecode
  rw [step_command hhost hrst hvalid, perform_of_decode_eq_ok hdecode]

/-- Settles O9. -/
theorem rstUnconfigures : Obligations.RstUnconfigures := fun s i rest hhost hrst =>
  ⟨(s.takeInput i rest).assertRst, step_rst hhost hrst, rfl, rfl, rfl, rfl, rfl⟩

/-- Settles O10. With `rst` at 0 the core is ready. -/
theorem idleInstantHoldsTheResponse : Obligations.IdleInstantHoldsTheResponse := by
  intro s
  refine ⟨step_no_input, fun i rest hhost hrst hvalid => ?_⟩
  rw [step_no_command hhost hrst hvalid]
  simp only [State.takeInput, State.idle, readyAt, hrst, Bool.not_false]

/-- Settles O12. -/
theorem everyStepAnswers : Obligations.EveryStepAnswers := by
  intro s
  rcases step_cases s with ⟨s', hnext, _⟩ | ⟨s', hnext, _⟩ | ⟨w, rest, hperform⟩
  · exact ⟨s', hnext⟩
  · exact ⟨s', hnext⟩
  · obtain ⟨r, w', hanswer, _⟩ := (perform_answers w { s with cmdReady := true, host := rest }).exists_responded
    exact ⟨_, hperform.trans hanswer⟩

/-! ### Sequences of frames (R76) -/

/-- A presented frame is answered at its own instant, by a response that R68 allows. -/
theorem step_present_eq_responded (s : State) (w : Frame) :
    ∃ r v, step (s.present w) = .next (responded { s with cmdReady := true } r v) ∧ rspWellFormed v = true := by
  rw [step_present]
  exact (perform_answers w _).exists_responded

theorem transcript_cons {s s' : State} {w : Frame} (h : step (s.present w) = .next s') (hv : s'.rspValid = true)
    (ws : List Frame) : transcript s (w :: ws) = s'.rspFrame :: transcript s' ws := by
  have h' : nextInstant (s.present w) = .next s' := h
  simp only [transcript, h', hv, if_true]

/-- Settles O13. -/
theorem oneResponseForEachFrame : Obligations.OneResponseForEachFrame := by
  refine ⟨fun s w => ?each, fun ws => ?sequence⟩
  case each =>
    obtain ⟨r, v, hstep, hv⟩ := step_present_eq_responded s w
    exact ⟨_, hstep, rfl, hv, rfl, rfl⟩
  case sequence =>
    induction ws with
    | nil => exact fun _ => rfl
    | cons w ws ih =>
      intro s
      obtain ⟨r, v, hstep, _⟩ := step_present_eq_responded s w
      rw [transcript_cons hstep rfl, List.length_cons, List.length_cons, ih]

end Sys2Proof.Machine
end

section
/-! PROOFS, what a command leaves alone (10_state.md R26, R35, R36; 40_config_commands.md R103): the configuration under
STEP, the clocks that seeding forgets, the bit `neg` that this hardware does not have, and O14, O22, O24, O29, O46. -/

namespace Sys2Proof.Machine

open Config Sys2Proof.Safety

variable {α : Type}

/-! ### STEP leaves the configuration alone (R26) -/

theorem advance_sameConfig (B : Build α) (f ci si : α) (r : Regs α) : SameConfig r (advance B f ci si r).regs :=
  have hpath := (emitted_frame B f (phaseIncrement B r f) (geometry B r (phaseIncrement B r f) ci si) r).1
  have hphase : ∀ (inc : α) (r : Regs α), SameConfig r (advancePhase B inc r) := fun _ r => SameConfig.rfl' r
  SameConfig.trans' (SameConfig.trans' hpath (hphase _ _)) (wrap_sameConfig ..)

theorem oscStep_sameConfig {B : Build α} (htz : B.tz = false) (f c k : α) (t : Bool) (r : Regs α) :
    SameConfig r (oscStep B f c k t r).regs := by
  simp only [oscStep, signTest_off B htz]
  exact SameConfig.trans' (SameConfig.trans' (arm_sameConfig ..) (rampAdvance_frame ..).1) (advance_sameConfig ..)

/-! ### Seeding forgets the clocks it finds (R169, R172) -/

theorem eq_of_sameButClocks {r r' : Regs α} (h : SameButClocks r r') :
    r' = { r with phase := r'.phase, warpedPhase := r'.warpedPhase } := by
  obtain ⟨⟨hms, hsr, hwi, hph, hswf, hsyf, hspi, hfm, hconf, hneg⟩, hsp, hsi⟩ := h
  cases r'
  simp_all

theorem seed_forgets_clocks (B : Build α) (ph f c k p w : α) (r : Regs α) :
    seed B ph f c k { r with phase := p, warpedPhase := w } = seed B ph f c k r := rfl

theorem seed_seed (B : Build α) (ph f c k : α) (r : Regs α) :
    seed B ph f c k (seed B ph f c k r) = seed B ph f c k r := by
  conv_lhs => rw [eq_of_sameButClocks (seed_frame B ph f c k r)]
  exact seed_forgets_clocks ..

/-- Settles O29: the second seeding forgets the clocks of the first, and an unconfigured core refuses both. -/
theorem setphaseIsIdempotent : Obligations.SetphaseIsIdempotent := by
  intro s s1 s2 freq clip skew ph h1 h2
  cases hconfigured : s.regs.configured with
  | false =>
    rw [exec_setphase_unconfigured hconfigured] at h1
    obtain rfl := Host.Outcome.next.inj h1
    rw [exec_setphase_unconfigured (show (responded s s.regs 1).regs.configured = false from hconfigured)] at h2
    exact (Host.Outcome.next.inj h2).symm
  | true =>
    rw [exec_setphase_configured hconfigured] at h1
    obtain rfl := Host.Outcome.next.inj h1
    obtain ⟨⟨_, _, _, _, _, _, _, _, hkept, _⟩, _⟩ := seed_frame build ph freq clip skew s.regs
    rw [exec_setphase_configured (hkept.trans hconfigured)] at h2
    obtain rfl := Host.Outcome.next.inj h2
    exact congrArg (responded s · 0) (seed_seed ..)

/-! ### What a legal CONFIG leaves behind (R91 to R98) -/

/-- Settles O22: the seeding that ends CONFIG keeps all that the writes before it have put in place. -/
theorem legalConfigConstructs : Obligations.LegalConfigConstructs := by
  intro s ms sr ph hpos hfin hrec
  have hlegal := (sampleRateLegal_build_eq_true_iff sr).2 ⟨hpos, hfin, hrec⟩
  obtain ⟨⟨hms, hsr, hwi, hpi, hswf, hsyf, hspi, hfm, hconf, hneg⟩, hsp, hsi⟩ :=
    configure_sameButClocks build ms sr ph s.regs
  have hexec := exec_config_legal hlegal ms ph s
  generalize configure build ms sr ph s.regs = r at *
  simp only [constants, build_toNumSys, build_freqMax, build_maxSyncFreq, build_syncPhaseInc, build_tz, sys_zero, sys_one,
    sys_two, sys_div, sys_mul, Bool.false_eq_true, if_false] at hms hwi hpi hswf hfm hsyf hspi hsp hsi hneg
  rw [← hms] at hwi hswf hsyf hspi
  exact ⟨r, hexec, hconf, hsp, hsi, hneg, hms, hsr, hwi, hpi, hswf, hfm, hsyf, hspi⟩

/-! ### The bit `neg` (R36, log 12) -/

/-- The registers with `neg` at `b`. -/
def withNeg (b : Bool) (r : Regs α) : Regs α := { r with neg := b }

theorem sameButNeg_iff {r r' : Regs α} : SameButNeg r r' ↔ ∃ b, r' = withNeg b r :=
  ⟨fun h => ⟨r'.neg, h⟩, fun ⟨_, h⟩ => by subst h; rfl⟩

section WithNeg

variable {B : Build α} (b : Bool) (r : Regs α)

theorem arm_withNeg (t : Bool) (f : α) : arm B t f (withNeg b r) = withNeg b (arm B t f r) := by
  simp only [arm, apply_ite (withNeg b)]
  rfl

theorem rampAdvance_withNeg : rampAdvance B (withNeg b r) = withNeg b (rampAdvance B r) := by
  simp only [rampAdvance, apply_ite (withNeg b)]
  rfl

theorem sweepDown_withNeg (inc : α) (g : Geometry α) :
    sweepDown B inc g (withNeg b r) = ⟨withNeg b (sweepDown B inc g r).regs, (sweepDown B inc g r).sample⟩ := by
  simp only [sweepDown, apply_ite (withNeg b)]
  rfl

theorem sweepUp_withNeg (inc : α) (g : Geometry α) :
    sweepUp B inc g (withNeg b r) = ⟨withNeg b (sweepUp B inc g r).regs, (sweepUp B inc g r).sample⟩ := by
  simp only [sweepUp, apply_ite (withNeg b)]
  rfl

theorem normalPath_withNeg (inc : α) (g : Geometry α) :
    normalPath B inc g (withNeg b r) = ⟨withNeg b (normalPath B inc g r).regs, (normalPath B inc g r).sample⟩ := by
  have hclass : classify B g (withNeg b r) = classify B g r := rfl
  simp only [normalPath, hclass]
  cases classify B g r with
  | sweepDown => exact sweepDown_withNeg ..
  | flatLow => rfl
  | sweepUp => exact sweepUp_withNeg ..
  | flatHigh => rfl

theorem wrap_withNeg (f inc : α) (g : Geometry α) : wrap B f inc g (withNeg b r) = withNeg b (wrap B f inc g r) := by
  simp only [wrap, apply_ite (withNeg b)]
  rfl

theorem advance_withNeg (f ci si : α) :
    advance B f ci si (withNeg b r) =
      ⟨withNeg b (advance B f ci si r).regs, (advance B f ci si r).syncOut, (advance B f ci si r).sample⟩ := by
  have hfast : onFastPath B (withNeg b r) f = onFastPath B r f := rfl
  have hadvance : ∀ inc r, advancePhase B inc (withNeg b r) = withNeg b (advancePhase B inc r) := fun _ _ => rfl
  have hinc : phaseIncrement B (withNeg b r) f = phaseIncrement B r f := rfl
  have hgeometry : ∀ inc, geometry B (withNeg b r) inc ci si = geometry B r inc ci si := fun _ => rfl
  simp only [advance, hfast, hinc, hgeometry]
  split
  · exact congrArg (Stepped.mk · _ _)
      (wrap_withNeg b (advancePhase B (phaseIncrement B r f) (fastPath B (phaseIncrement B r f) r).regs) ..)
  · simp only [normalPath_withNeg, hadvance, wrap_withNeg]
    rfl

variable (htz : B.tz = false)
include htz

theorem skewInternal_withNeg (skew : α) : skewInternal B (withNeg b r) skew = skewInternal B r skew := by
  simp only [skewInternal, htz, Bool.false_and]

/-- Without the through-zero extension STEP neither reads nor writes `neg` (R180). -/
theorem oscStep_withNeg (f c k : α) (t : Bool) :
    oscStep B f c k t (withNeg b r) =
      ⟨withNeg b (oscStep B f c k t r).regs, (oscStep B f c k t r).syncOut, (oscStep B f c k t r).sample⟩ := by
  have hfreq : freqOperand B (withNeg b r) f = freqOperand B r f := rfl
  have hramp : ∀ x r, rampFreq B x (withNeg b r) = rampFreq B x r := fun _ _ => rfl
  simp only [oscStep, signTest_off B htz, hfreq, arm_withNeg, hramp, rampAdvance_withNeg, skewInternal_withNeg b r htz,
    advance_withNeg]

/-- Nor does seeding. -/
theorem seed_withNeg (ph f c k : α) : seed B ph f c k (withNeg b r) = withNeg b (seed B ph f c k r) := by
  simp only [seed, seedAt, skewInternal_withNeg b r htz, apply_ite (withNeg b)]
  rfl

/-- CONFIG builds on nothing of the old registers but `neg` (R103). -/
theorem configure_eq_withNeg (ms sr ph : α) (r0 : Regs α) :
    configure B ms sr ph r = withNeg r.neg (configure B ms sr ph r0) := by
  have hconstants : constants B ms sr r =
      { withNeg r.neg (constants B ms sr r0) with phase := r.phase, warpedPhase := r.warpedPhase } := by
    simp only [constants, withNeg, htz, Bool.false_eq_true, if_false]
  rw [configure, hconstants, seed_forgets_clocks, seed_withNeg _ _ htz]
  rfl

end WithNeg

/-- Settles O24. -/
theorem reconfigurationIsConstruction : Obligations.ReconfigurationIsConstruction := by
  refine ⟨fun i s s' hconfig hexec => ?others, fun s t s' t' ms sr ph hlegal hs ht => ?legal,
    fun s s' ms sr ph hillegal hexec => ?illegal⟩
  case others =>
    by_cases hstep : ∃ f c k t, i = .step f c k t
    · obtain ⟨f, c, k, t, rfl⟩ := hstep
      cases hconfigured : s.regs.configured with
      | false =>
        rw [exec_step_unconfigured hconfigured] at hexec
        obtain rfl := Host.Outcome.next.inj hexec
        exact SameConfig.rfl' s.regs
      | true =>
        rw [exec_step_configured hconfigured] at hexec
        obtain rfl := Host.Outcome.next.inj hexec
        exact oscStep_sameConfig build_tz ..
    · push Not at hstep
      obtain ⟨r, st, v, hresponded, hsame⟩ := exec_eq_responded hconfig hstep s
      obtain rfl := Host.Outcome.next.inj (hresponded.symm.trans hexec)
      exact hsame.1
  case legal =>
    rw [exec_config_legal hlegal] at hs ht
    obtain rfl := Host.Outcome.next.inj hs
    obtain rfl := Host.Outcome.next.inj ht
    exact sameButNeg_iff.2 ⟨_, configure_eq_withNeg t.regs build_tz ms sr ph s.regs⟩
  case illegal =>
    rw [exec_config_illegal hillegal] at hexec
    obtain rfl := Host.Outcome.next.inj hexec
    rfl

/-! ### What cannot be observed (R216) -/

/-- Registers that no sequence of frames tells apart: of two unconfigured cores, or equal but for `neg`. -/
def Alike (a b : Regs Bin64) : Prop := (a.configured = false ∧ b.configured = false) ∨ ∃ n, b = withNeg n a

/-- Two answers that nobody tells apart: the same response, and registers that are alike. -/
def SameAnswer (s : State) (b : Regs Bin64) (o o' : Host.Outcome State Fault Refusal) : Prop :=
  ∃ a' b' w, o = .next (responded s a' w) ∧ o' = .next (responded (s.setRegs b) b' w) ∧ Alike a' b'

section Alike

variable {s : State} {b : Regs Bin64}

/-- A response that depends on no register and writes none. -/
theorem sameAnswer_of_const (h : Alike s.regs b) {F : State → Host.Outcome State Fault Refusal} {w : RspFrame}
    (hF : ∀ s, F s = .next (responded s s.regs w)) : SameAnswer s b (F s) (F (s.setRegs b)) :=
  ⟨_, _, w, hF s, hF _, h⟩

theorem alike_cases {a b : Regs Bin64} (h : Alike a b) :
    (a.configured = false ∧ b.configured = false) ∨
      (a.configured = true ∧ b.configured = true ∧ ∃ n, b = withNeg n a) := by
  rcases h with h | ⟨n, rfl⟩
  · exact .inl h
  · cases ha : a.configured with
    | false => exact .inl ⟨rfl, ha⟩
    | true => exact .inr ⟨rfl, ha, n, rfl⟩

/-- CONFIG makes cores alike, whatever they were (R103). -/
theorem exec_config_sameAnswer (h : Alike s.regs b) (ms sr ph : Bin64) :
    SameAnswer s b (exec (.config ms sr ph) s) (exec (.config ms sr ph) (s.setRegs b)) := by
  cases hlegal : sampleRateLegal build sr with
  | false => exact sameAnswer_of_const h fun _ => exec_config_illegal hlegal ..
  | true =>
    exact ⟨_, _, _, exec_config_legal hlegal .., exec_config_legal hlegal ..,
      .inr ⟨_, configure_eq_withNeg b build_tz ms sr ph s.regs⟩⟩

/-- Two unconfigured cores answer every command alike. -/
theorem exec_sameAnswer_unconfigured (hs : s.regs.configured = false) (hb : b.configured = false) (i : Instr) :
    SameAnswer s b (exec i s) (exec i (s.setRegs b)) := by
  have h : Alike s.regs b := .inl ⟨hs, hb⟩
  cases i with
  | nop => exact sameAnswer_of_const h exec_nop
  | config ms sr ph => exact exec_config_sameAnswer h ms sr ph
  | setphase f c k p =>
    exact ⟨_, _, _, exec_setphase_unconfigured hs .., exec_setphase_unconfigured (s := s.setRegs b) hb .., h⟩
  | step f c k t => exact ⟨_, _, _, exec_step_unconfigured hs .., exec_step_unconfigured (s := s.setRegs b) hb .., h⟩
  | getms => exact ⟨_, _, _, exec_getms_unconfigured hs, exec_getms_unconfigured (s := s.setRegs b) hb, h⟩
  | reserved5 => exact sameAnswer_of_const h exec_reserved5
  | reserved6 => exact sameAnswer_of_const h exec_reserved6
  | reserved7 => exact sameAnswer_of_const h exec_reserved7

/-- So do two configured cores whose registers are equal but for `neg`. -/
theorem exec_sameAnswer_withNeg (hs : s.regs.configured = true) (n : Bool) (i : Instr) :
    SameAnswer s (withNeg n s.regs) (exec i s) (exec i (s.setRegs (withNeg n s.regs))) := by
  have hb : (s.setRegs (withNeg n s.regs)).regs.configured = true := hs
  have h : Alike s.regs (withNeg n s.regs) := .inr ⟨n, rfl⟩
  cases i with
  | nop => exact sameAnswer_of_const h exec_nop
  | config ms sr ph => exact exec_config_sameAnswer h ms sr ph
  | setphase f c k p =>
    exact ⟨_, _, _, exec_setphase_configured hs .., exec_setphase_configured hb ..,
      .inr ⟨n, seed_withNeg n s.regs build_tz p f c k⟩⟩
  | step f c k t =>
    have hstep := exec_step_configured hb f c k t
    rw [State.setRegs_regs, oscStep_withNeg n s.regs build_tz] at hstep
    exact ⟨_, _, _, exec_step_configured hs .., hstep, .inr ⟨n, rfl⟩⟩
  | getms => exact ⟨_, _, _, exec_getms_configured hs, exec_getms_configured hb, h⟩
  | reserved5 => exact sameAnswer_of_const h exec_reserved5
  | reserved6 => exact sameAnswer_of_const h exec_reserved6
  | reserved7 => exact sameAnswer_of_const h exec_reserved7

/-- Cores that are alike answer every command alike. -/
theorem exec_sameAnswer (h : Alike s.regs b) (i : Instr) : SameAnswer s b (exec i s) (exec i (s.setRegs b)) := by
  rcases alike_cases h with ⟨hs, hb⟩ | ⟨hs, _, n, rfl⟩
  · exact exec_sameAnswer_unconfigured hs hb i
  · exact exec_sameAnswer_withNeg hs n i

/-- And every accepted frame. -/
theorem perform_sameAnswer (h : Alike s.regs b) (w : Frame) :
    SameAnswer s b (perform w s) (perform w (s.setRegs b)) := by
  by_cases hr : rsvField w = 0
  · obtain ⟨i, hi, _⟩ := exists_decode_eq_ok hr
    rw [perform_of_decode_eq_ok hi, perform_of_decode_eq_ok hi]
    exact exec_sameAnswer h i
  · exact sameAnswer_of_const h fun _ => perform_of_rsvField_ne_zero hr _

end Alike

/-- Settles O14: being alike is kept from frame to frame. -/
theorem unspecifiedRegistersAreUnobservable : Obligations.UnspecifiedRegistersAreUnobservable := by
  have key : ∀ (ws : List Frame) (s : State) (r : Regs Bin64), Alike s.regs r →
      transcript (s.setRegs r) ws = transcript s ws := by
    intro ws
    induction ws with
    | nil => exact fun _ _ _ => rfl
    | cons w ws ih =>
      intro s r halike
      obtain ⟨a, b, v, hs, hr, hab⟩ := perform_sameAnswer (s := { s with cmdReady := true }) halike w
      have hs' : step (s.present w) = .next (responded { s with cmdReady := true } a v) := hs
      have hr' : step ((s.setRegs r).present w) =
          .next ((responded { s with cmdReady := true } a v).setRegs b) := hr
      rw [transcript_cons hs' rfl, transcript_cons hr' rfl, ih _ _ hab]
      rfl
  exact fun ws s r hs hr => key ws s r (.inl ⟨hs, hr⟩)

/-- Settles O46. After reset the response port holds `OK`, and the core is not configured. -/
theorem machineInvAtReset : Obligations.MachineInvAtReset :=
  ⟨by decide, fun h => absurd h Bool.false_ne_true⟩

end Sys2Proof.Machine
end

section
/-! PROOFS, the end of a STEP (41_step_phase_shaping.md R129 to R136, 42_hardsync.md R151 to R156): the registers before
the wrap check, what the check does to them, where the operands and the trigger enter, and O33, O40, O41, O44. -/

namespace Sys2Proof.Machine

open Config Sys2Proof.Safety

variable {α : Type}

/-! ### Before the wrap check (R129, R130) -/

/-- What the path of a STEP gives (R115). -/
def pathOf (B : Build α) (f ci si : α) (r : Regs α) : Emitted α :=
  if onFastPath B r f then fastPath B (phaseIncrement B r f) r
  else normalPath B (phaseIncrement B r f) (geometry B r (phaseIncrement B r f) ci si) r

/-- The registers of a STEP before its wrap check. -/
def beforeWrap (B : Build α) (f ci si : α) (r : Regs α) : Regs α :=
  advancePhase B (phaseIncrement B r f) (pathOf B f ci si r).regs

section Advance

variable (B : Build α) (f ci si : α) (r : Regs α)

theorem advance_eq :
    advance B f ci si r =
      { regs := wrap B f (phaseIncrement B r f) (geometry B r (phaseIncrement B r f) ci si) (beforeWrap B f ci si r)
        syncOut := wrapDue B (beforeWrap B f ci si r)
        sample := (pathOf B f ci si r).sample } := rfl

theorem beforeWrap_sameButClocks : SameButClocks r (beforeWrap B f ci si r) :=
  emitted_frame B f (phaseIncrement B r f) (geometry B r (phaseIncrement B r f) ci si) r

theorem onFastPath_of_sameConfig {r r' : Regs α} (h : SameConfig r r') : onFastPath B r' f = onFastPath B r f := by
  obtain ⟨_, _, _, _, hmsf, _⟩ := h
  rw [onFastPath, onFastPath, hmsf]

theorem syncActive_of_sameButClocks {r r' : Regs α} (h : SameButClocks r r') : syncActive B r' = syncActive B r := by
  obtain ⟨_, hphase, _⟩ := h
  rw [syncActive, syncActive, hphase]

variable {B f ci si r}

theorem pathOf_fast (h : onFastPath B r f = true) : pathOf B f ci si r = fastPath B (phaseIncrement B r f) r := if_pos h

theorem pathOf_normal (h : onFastPath B r f = false) :
    pathOf B f ci si r = normalPath B (phaseIncrement B r f) (geometry B r (phaseIncrement B r f) ci si) r :=
  if_neg (Bool.eq_false_iff.1 h)

/-- A STEP that does not signal leaves the registers as they were before the wrap check. -/
theorem advance_regs_of_not_due (h : (advance B f ci si r).syncOut = false) :
    (advance B f ci si r).regs = beforeWrap B f ci si r := wrap_not_due h

/-- A wrap with a sync active ends the sync, with both clocks at 0 (R133, R154). -/
theorem advance_regs_of_due_sync (h : (advance B f ci si r).syncOut = true) (hs : syncActive B r = true) :
    (advance B f ci si r).regs = wrapSync B (beforeWrap B f ci si r) :=
  wrap_sync h ((syncActive_of_sameButClocks B (beforeWrap_sameButClocks B f ci si r)).trans hs)

/-- A wrap without a sync carries the remainder (R131, R132). -/
theorem advance_regs_of_due_plain (h : (advance B f ci si r).syncOut = true) (hs : syncActive B r = false) :
    (advance B f ci si r).regs =
      wrapPlain B f (phaseIncrement B r f) (geometry B r (phaseIncrement B r f) ci si) (beforeWrap B f ci si r) := by
  rcases wrap_cases B f (phaseIncrement B r f) (geometry B r (phaseIncrement B r f) ci si) (beforeWrap B f ci si r) with
    ⟨hd, _⟩ | ⟨_, ha, _⟩ | ⟨_, _, he⟩
  · exact absurd (hd.symm.trans h) Bool.false_ne_true
  · rw [syncActive_of_sameButClocks B (beforeWrap_sameButClocks B f ci si r), hs] at ha
    exact absurd ha Bool.false_ne_true
  · exact he

/-- With no sync active a STEP writes the two clocks at most. -/
theorem advance_sameButClocks (hs : syncActive B r = false) : SameButClocks r (advance B f ci si r).regs := by
  have hb := beforeWrap_sameButClocks B f ci si r
  cases hd : (advance B f ci si r).syncOut with
  | false => rw [advance_regs_of_not_due hd]; exact hb
  | true => rw [advance_regs_of_due_plain hd hs]; exact hb

/-- After a STEP that did not signal, the wrap is not due (R130). -/
theorem wrapDue_advance_of_not_due (h : (advance B f ci si r).syncOut = false) :
    wrapDue B (advance B f ci si r).regs = false := by
  rw [advance_regs_of_not_due h]; exact h

/-- The fast path leaves the clocks equal, whatever the wrap does (R116, R132, R133). -/
theorem advance_clocks_eq_of_fast (h : onFastPath B r f = true) :
    (advance B f ci si r).regs.phase = (advance B f ci si r).regs.warpedPhase := by
  have hb : (beforeWrap B f ci si r).phase = (beforeWrap B f ci si r).warpedPhase := by
    rw [beforeWrap, pathOf_fast h]; rfl
  cases hd : (advance B f ci si r).syncOut with
  | false => rw [advance_regs_of_not_due hd, hb]
  | true =>
    cases hs : syncActive B r with
    | true => rw [advance_regs_of_due_sync hd hs]; rfl
    | false =>
      rw [advance_regs_of_due_plain hd hs]
      simp only [wrapPlain, onFastPath_of_sameConfig B f (beforeWrap_sameButClocks B f ci si r).1, h, if_true]

end Advance

/-! ### Where the operands and the trigger enter a STEP of this hardware (R110, R111) -/

/-- The registers that the path of a STEP starts from: armed, with the ramp advanced. -/
def rampedRegs (B : Build α) (t : Bool) (freq : α) (r : Regs α) : Regs α :=
  rampAdvance B (arm B t (freqOperand B r freq) r)

theorem rampedRegs_sameConfig (B : Build α) (t : Bool) (freq : α) (r : Regs α) :
    SameConfig r (rampedRegs B t freq r) :=
  SameConfig.trans' (arm_sameConfig ..) (rampAdvance_frame ..).1

section NoSignTest

variable {B : Build α} (htz : B.tz = false)
include htz

theorem effFreq_eq (freq clip skew : α) (t : Bool) (r : Regs α) :
    effFreq B ⟨freq, clip, skew, t⟩ r =
      rampFreq B (freqOperand B r freq) (arm B t (freqOperand B r freq) r) := by
  simp only [effFreq, signTest_off B htz]

/-- A STEP is items 5 to 8 of R110 at the effective frequency. -/
theorem oscStep_eq_advance (freq clip skew : α) (t : Bool) (r : Regs α) :
    oscStep B freq clip skew t r =
      advance B (effFreq B ⟨freq, clip, skew, t⟩ r) (clipInternal B clip) (skewInternal B r skew)
        (rampedRegs B t freq r) := by
  rw [effFreq_eq htz]
  simp only [oscStep, signTest_off B htz, rampedRegs]

end NoSignTest

/-- A STEP uses the frequency operand after its clamp only (R111). -/
theorem exec_step_congr_freq {s : State} {freq freq' : Bin64}
    (h : freqOperand build s.regs freq = freqOperand build s.regs freq') (clip skew : Bin64) (t : Bool) :
    exec (.step freq clip skew t) s = exec (.step freq' clip skew t) s := by
  rw [exec_step, exec_step, oscStep_build, oscStep_build, h]

/-- Settles O33. -/
theorem fastPathLeavesClocksEqual : Obligations.FastPathLeavesClocksEqual := by
  intro s s' freq clip skew t hconfigured hfast hexec
  rw [exec_step_configured hconfigured, oscStep_eq_advance build_tz] at hexec
  obtain rfl := Host.Outcome.next.inj hexec
  refine advance_clocks_eq_of_fast ?_
  rw [onFastPath_of_sameConfig build _ (rampedRegs_sameConfig build t freq s.regs), hfast]

/-- Settles O40: a STEP that does not signal has looked at the very registers it leaves. -/
theorem noWrapIsMissed : Obligations.NoWrapIsMissed := by
  intro s s' freq clip skew t hconfigured hexec hsync
  rw [exec_step_configured hconfigured] at hexec
  obtain rfl := Host.Outcome.next.inj hexec
  have hsyncOut := (rspSyncOut_rspFrameOf ..).symm.trans hsync
  rw [oscStep_build] at hsyncOut
  have hdue := wrapDue_advance_of_not_due hsyncOut
  rw [← oscStep_build] at hdue
  exact hdue

/-- Settles O41: both frequencies clamp to 0. -/
theorem negativeFrequencyIsZero : Obligations.NegativeFrequencyIsZero := by
  intro s freq clip skew t hneg hmax
  have hfreq : freqOperand build s.regs freq = 0 := clamp_of_lt_lo hneg
  have hzero : freqOperand build s.regs 0 = 0 := clamp_eq_self B64.sys (by decide) hmax
  exact exec_step_congr_freq (hfreq.trans hzero.symm) clip skew t

/-- Settles O44: with a sync active arming does nothing, trigger or not. -/
theorem triggerIgnoredWhileSyncActive : Obligations.TriggerIgnoredWhileSyncActive := by
  intro s freq clip skew hactive
  rw [exec_step, exec_step, oscStep_trigger, arm_of_syncActive (syncActive_build_of_ne_zero hactive)]

end Sys2Proof.Machine
end

section
/-! PROOFS, one sample of STEP (41_step_phase_shaping.md R115 to R134): the two outcomes of the wrap check on each path,
the segments that the tests on the clocks select, and O32, O34 to O39. -/

namespace Sys2Proof.Machine

open Config Sys2Proof.Safety

/-! ### A STEP without a sync, by path (R115, R130 to R132) -/

section Paths

variable {s : State} {f : Bin64} (c k : Bin64)

/-- On the normal path a STEP ends with the registers `r` that the segment and the phase advance give, or with the
remainder of the wrap mapped into the sweep-down. -/
theorem exec_step_normal (hready : Ready s) (hnormal : Normal s f) {e : Emitted Bin64} {r : Regs Bin64}
    (he : normalPath build (plainInc s f) (plainGeometry s f c k) s.regs = e)
    (hr : advancePhase build (plainInc s f) e.regs = r) :
    (bothPastTwo r.warpedPhase r.phase = false →
      exec (.step f c k false) s = .next (responded s r (rspFrameOf .ok false e.sample))) ∧
    (bothPastTwo r.warpedPhase r.phase = true →
      exec (.step f c k false) s = .next (responded s
        { r with
          phase := remainder (plainInc s f) r.phase
          warpedPhase := wdiv B64.sys (remainder (plainInc s f) r.phase) (plainGeometry s f c k).dlen }
        (rspFrameOf .ok true e.sample))) := by
  have hpath : onFastPath build s.regs (plainFreq s f) = false := hnormal
  have hframe : SameButClocks s.regs r := by
    have hb := beforeWrap_sameButClocks build (plainFreq s f) (clipInternal build c) (skewInternal build s.regs k) s.regs
    rw [beforeWrap, pathOf_normal hpath] at hb
    change SameButClocks s.regs (advancePhase build (plainInc s f)
      (normalPath build (plainInc s f) (plainGeometry s f c k) s.regs).regs) at hb
    rwa [he, hr] at hb
  rw [exec_step_ready hready, advance_normal hnormal, he, hr]
  refine ⟨fun hdue => ?notDue, fun hdue => ?due⟩
  case notDue =>
    have hdue' : wrapDue build r = false := hdue
    rw [wrap_not_due hdue', hdue']
  case due =>
    have hdue' : wrapDue build r = true := hdue
    rw [wrap_plain_normal hdue' ((syncActive_of_sameButClocks build hframe).trans (ready_syncActive hready))
      ((onFastPath_of_sameConfig build _ hframe.1).trans hpath), hdue']
    rfl

/-- On the fast path both clocks become `warped_phase + inc`, or the remainder of the wrap (R116, R132). -/
theorem exec_step_fast (hready : Ready s) (hfast : B64.le s.regs.maxSweepFreq (plainFreq s f) = true) {wp : Bin64}
    (hwp : B64.add s.regs.warpedPhase (plainInc s f) = wp) :
    (bothPastTwo wp wp = false →
      exec (.step f c k false) s = .next (responded s { s.regs with phase := wp, warpedPhase := wp }
        (rspFrameOf .ok false (cosPi build s.regs.warpedPhase)))) ∧
    (bothPastTwo wp wp = true →
      exec (.step f c k false) s = .next (responded s
        { s.regs with phase := remainder (plainInc s f) wp, warpedPhase := remainder (plainInc s f) wp }
        (rspFrameOf .ok true (cosPi build s.regs.warpedPhase)))) := by
  have hpath : onFastPath build s.regs (plainFreq s f) = true := hfast
  have hbefore : beforeWrap build (plainFreq s f) (clipInternal build c) (skewInternal build s.regs k) s.regs =
      { s.regs with phase := wp, warpedPhase := wp } := by
    rw [beforeWrap, pathOf_fast hpath, ← hwp]
    rfl
  rw [exec_step_ready hready, advance_eq, hbefore, pathOf_fast hpath]
  refine ⟨fun hdue => ?notDue, fun hdue => ?due⟩
  case notDue =>
    have hdue' : wrapDue build { s.regs with phase := wp, warpedPhase := wp } = false := hdue
    rw [wrap_not_due hdue', hdue']
    rfl
  case due =>
    have hdue' : wrapDue build { s.regs with phase := wp, warpedPhase := wp } = true := hdue
    rw [wrap_plain_fast hdue' (ready_syncActive hready) hpath, hdue']
    rfl

end Paths

/-- Settles O32. -/
theorem stepOnFastPath : Obligations.StepOnFastPath := by
  rintro s freq clip skew _ _ _ hready hfast rfl rfl rfl
  exact exec_step_fast clip skew hready hfast rfl

/-! ### The wrap is not due while `warped_phase` is below 2 (R130) -/

theorem bothPastTwo_of_lt_two {wp : Bin64} (h : B64.lt wp 0x4000000000000000 = true) (p : Bin64) :
    bothPastTwo wp p = false := by
  have hle : B64.le B64.sys.two wp = false := B64.le_eq_false_of_lt h
  rw [bothPastTwo, hle, Bool.false_and]

theorem bothPastTwo_of_not_one_lt {wp : Bin64} (h : B64.lt 0x3FF0000000000000 wp = false) (p : Bin64) :
    bothPastTwo wp p = false := by
  have hle : B64.le B64.sys.two wp = false := by
    rw [← Bool.not_eq_true]
    intro htwo
    exact Bool.false_ne_true (h.symm.trans (B64.lt_of_lt_of_le (y := 0x4000000000000000) (by decide) htwo))
  rw [bothPastTwo, hle, Bool.false_and]

theorem bothPastTwo_of_two_le {wp : Bin64} (h : B64.le 0x4000000000000000 wp = true) (p : Bin64) :
    bothPastTwo wp p = B64.le 0x4000000000000000 p := by
  have hle : B64.le B64.sys.two wp = true := h
  rw [bothPastTwo, hle, Bool.true_and]
  rfl

/-! ### The statements, segment by segment -/

/-- Settles O34. -/
theorem stepInsideSweepDown : Obligations.StepInsideSweepDown := by
  rintro s freq clip skew _ w _ hready hnormal rfl rfl hsegment hw hinside
  have hpath := (normalPath_of_sweepDown hsegment).trans
    (sweepDown_inside (B := build) (inc := plainInc s freq) (g := plainGeometry s freq clip skew) hw hinside)
  exact (exec_step_normal clip skew hready hnormal hpath rfl).1 (bothPastTwo_of_not_one_lt hinside _)

/-- Settles O35. -/
theorem stepPastSweepDown : Obligations.StepPastSweepDown := by
  rintro s freq clip skew _ w _ _ _ _ _ hready hnormal rfl rfl hsegment hw hpast rfl rfl rfl rfl hdue
  have hpath := (normalPath_of_sweepDown hsegment).trans
    (sweepDown_past (B := build) (inc := plainInc s freq) (g := plainGeometry s freq clip skew) hw hpast)
  obtain ⟨hstays, _⟩ := exec_step_normal clip skew hready hnormal hpath rfl
  exact hstays hdue

/-- Settles O36. -/
theorem stepInFlatLow : Obligations.StepInFlatLow := by
  intro s freq clip skew hready hnormal hone hmid
  have hpath := normalPath_of_flatLow (B := build) (inc := plainInc s freq)
    (B64.lt_eq_false_of_le (B64.ge_of_eq_true hone)) hone hmid
  have hbelow : B64.lt s.regs.warpedPhase 0x4000000000000000 = true :=
    B64.lt_iff_notNaN_key.2 (by
      obtain ⟨hnan, _, hkey⟩ := B64.eq_iff_notNaN_key.1 hone
      exact ⟨hnan, by decide, hkey.trans_lt (by decide)⟩)
  exact (exec_step_normal clip skew hready hnormal hpath rfl).1 (bothPastTwo_of_lt_two hbelow _)

/-- Settles O37. -/
theorem stepInsideSweepUp : Obligations.StepInsideSweepUp := by
  rintro s freq clip skew _ w0 w _ _ _ hready hnormal rfl rfl rfl rfl hlo hhi hmid hw0 hw hinside
  have hpath := (normalPath_of_sweepUp (B64.lt_eq_false_of_le hlo) hmid hhi).trans
    (sweepUp_inside (B := build) (inc := plainInc s freq) (g := plainGeometry s freq clip skew) hw0 hw hinside)
  exact exec_step_normal clip skew hready hnormal hpath rfl

/-- Settles O38. -/
theorem stepPastSweepUp : Obligations.StepPastSweepUp := by
  intro s freq clip skew inc w0 w flat excess phase wp rem g hready hnormal hinc hg hlo hhi hmid hw0 hw hpast hflat
    hexcess hphase hwp hrem
  subst hinc hg
  have hpath := (normalPath_of_sweepUp (B64.lt_eq_false_of_le hlo) hmid hhi).trans
    (sweepUp_past (B := build) (inc := plainInc s freq) (g := plainGeometry s freq clip skew) hw0 hw hpast)
  have hregs : advancePhase build (plainInc s freq) (reconcile build (plainInc s freq) build.two
      (plainGeometry s freq clip skew).ulen
      (build.add (plainGeometry s freq clip skew).mid (plainGeometry s freq clip skew).ulen)
      (build.sub build.two (build.add (plainGeometry s freq clip skew).mid (plainGeometry s freq clip skew).ulen))
      (plainGeometry s freq clip skew).dlen w s.regs) = { s.regs with phase := phase, warpedPhase := wp } := by
    subst hphase hwp hexcess hflat
    rfl
  subst hrem
  exact exec_step_normal clip skew hready hnormal hpath hregs

/-- What `warped_phase >= 2` says of the two tests before it (R118). -/
theorem flatHigh_tests {wp : Bin64} (h : B64.le 0x4000000000000000 wp = true) :
    B64.lt wp 0x3FF0000000000000 = false ∧ B64.eq wp 0x3FF0000000000000 = false ∧
      B64.lt wp 0x4000000000000000 = false := by
  have hone : B64.lt 0x3FF0000000000000 wp = true := B64.lt_of_lt_of_le (by decide) h
  exact ⟨B64.lt_eq_false_of_lt hone, B64.eq_eq_false_of_lt hone, B64.lt_eq_false_of_le h⟩

/-- Settles O39: in flat-high the wrap is due as soon as `phase` is at 2. -/
theorem stepInFlatHigh : Obligations.StepInFlatHigh := by
  rintro s freq clip skew _ _ _ hready hnormal rfl hsegment rfl rfl
  obtain ⟨hlt, heq, hlt2⟩ := flatHigh_tests hsegment
  have hpath := normalPath_of_flatHigh (B := build) (inc := plainInc s freq)
    (g := plainGeometry s freq clip skew) hlt heq hlt2
  rw [← bothPastTwo_of_two_le hsegment]
  exact exec_step_normal clip skew hready hnormal hpath rfl

end Sys2Proof.Machine
end

section
/-! PROOFS, the machine invariant (10_state.md R14, R23, R24, R34): what SETPHASE, CONFIG and STEP do to the constants, the
hard-sync registers and the clocks, the end of a sync (42_hardsync.md R153, R154), and O31, O45, O47. -/

namespace Sys2Proof.Machine

open Config Sys2Proof.Safety

variable {α : Type}

/-! ### What the two clauses on registers read -/

theorem constantsAgree_of_sameConfig {B : Build α} {r r' : Regs α} (h : SameConfig r r') (hc : ConstantsAgree B r) :
    ConstantsAgree B r' := by
  obtain ⟨hms, hsr, hwi, hpi, hswf, hsyf, hspi, hfm, _⟩ := h
  unfold ConstantsAgree at hc ⊢
  rwa [hms, hsr, hwi, hpi, hswf, hsyf, hspi, hfm]

theorem syncRange_of_sameButClocks {B : Build α} {r r' : Regs α} (h : SameButClocks r r') (hs : SyncRange B r) :
    SyncRange B r' := by
  obtain ⟨⟨_, _, _, _, _, _, hspi, _⟩, hphase, hinc⟩ := h
  unfold SyncRange at hs ⊢
  rwa [hphase, hinc, hspi]

theorem configured_of_sameConfig {r r' : Regs α} (h : SameConfig r r') : r'.configured = r.configured := by
  obtain ⟨_, _, _, _, _, _, _, _, hconfigured, _⟩ := h
  exact hconfigured

/-- No sync in flight (R98, R154). -/
theorem syncRange_of_zero {r : Regs Bin64} (hp : r.hardsyncPhase = build.zero) (hi : r.hardsyncIncrement = build.zero) :
    SyncRange build r := by
  unfold SyncRange
  rw [hp, hi]
  exact ⟨by decide +kernel, by decide +kernel, .inl rfl, fun _ => rfl, fun _ => .inl rfl⟩

/-- A ramp held at its end (R153). -/
theorem syncRange_of_pi {r : Regs Bin64} (hp : r.hardsyncPhase = build.pi) (hi : r.hardsyncIncrement = build.zero) :
    SyncRange build r := by
  unfold SyncRange
  rw [hp, hi]
  exact ⟨by decide +kernel, by decide +kernel, .inl rfl, fun _ => rfl, fun _ => .inl rfl⟩

/-- What a configured core keeps, and nothing of a core that is not. -/
def RegsInv (r : Regs Bin64) : Prop :=
  r.configured = true → ConstantsAgree build r ∧ SyncRange build r ∧ ClockRange r

/-! ### SETPHASE and CONFIG (R91 to R99, R170) -/

theorem seed_regsInv {r : Regs Bin64} (h : RegsInv r) (ph f c k : Bin64) : RegsInv (seed build ph f c k r) := by
  intro hconfigured
  have hframe := seed_frame build ph f c k r
  obtain ⟨hc, hs, _⟩ := h ((configured_of_sameConfig hframe.1).symm.trans hconfigured)
  exact ⟨constantsAgree_of_sameConfig hframe.1 hc, syncRange_of_sameButClocks hframe hs,
    clockRange_iff.2 (seed_clocks hc ph f c k)⟩

/-- The `min_sweep` operand is in `[4, 100]`, for a NaN too (R91). -/
theorem minSweepOperand_range (ms : Bin64) :
    B64.le 0x4010000000000000 (minSweepOperand build ms) = true ∧
      B64.le (minSweepOperand build ms) 0x4059000000000000 = true := by
  have h := clamp_within ms (lo := 0x4010000000000000) (hi := 0x4059000000000000) rfl rfl
    (by rw [B64.val_four, B64.val_hundred]; norm_num)
  exact h.le_of rfl rfl

theorem constants_agree {sr : Bin64} (hlegal : sampleRateLegal build sr = true) (ms : Bin64) (r : Regs Bin64) :
    ConstantsAgree build (constants build ms sr r) := by
  obtain ⟨h4, h100⟩ := minSweepOperand_range ms
  exact ⟨h4, h100, hlegal, rfl, rfl, rfl, rfl, rfl, rfl⟩

/-- Right after CONFIG no sync is in flight (R98). -/
theorem constants_syncRange (ms sr : Bin64) (r : Regs Bin64) : SyncRange build (constants build ms sr r) :=
  syncRange_of_zero rfl rfl

theorem configure_regsInv {sr : Bin64} (hlegal : sampleRateLegal build sr = true) (ms ph : Bin64) (r : Regs Bin64) :
    RegsInv (configure build ms sr ph r) := fun _ =>
  have hc := constants_agree hlegal ms r
  have hframe := configure_sameButClocks build ms sr ph r
  ⟨constantsAgree_of_sameConfig hframe.1 hc, syncRange_of_sameButClocks hframe (constants_syncRange ms sr r),
    clockRange_iff.2 (seed_clocks hc ..)⟩

/-! ### The hard-sync registers in a STEP (R151 to R154) -/

/-- Half of a `SYNC_PHASE_INC` is in `[0, PI)`: arming starts the ramp before its end. -/
theorem half_syncPhaseInc_range (ms : Bin64) :
    B64.le 0 (B64.div (syncPhaseInc ms) 0x4000000000000000) = true ∧
      B64.lt (B64.div (syncPhaseInc ms) 0x4000000000000000) 0x400921FB54442D18 = true := by
  obtain ⟨hpos, hpi⟩ := syncPhaseInc_range ms
  have hw := B64.within_of_le (b := 0x400921FB54442D18) (rfl : B64.isFinite 0 = true) rfl (le_of_lt' hpos) hpi
  rw [B64.val_zero] at hw
  obtain ⟨_, hpi4⟩ := pi_le_four
  have hr := B64.rounds_div (y := 0x4000000000000000) hw.1 rfl (by rw [B64.val_two]; exact two_ne_zero)
  rw [B64.val_two] at hr
  have h0 := hr.ge_of 0 rfl (by rw [B64.val_zero]; linarith [hw.2.1])
  have h2 := hr.le_of 0x4000000000000000 rfl (by rw [B64.val_two]; linarith [hw.2.2])
  refine ⟨h0, ?_⟩
  obtain ⟨hn, _, hk⟩ := B64.le_iff_notNaN_key.1 h2
  exact B64.lt_iff_notNaN_key.2 ⟨hn, by decide, hk.trans_lt (by decide)⟩

/-- Arming keeps the hard-sync registers in range (R151). -/
theorem arm_syncRange {r : Regs Bin64} (hc : ConstantsAgree build r) (hs : SyncRange build r) (t : Bool) (f : Bin64) :
    SyncRange build (arm build t f r) := by
  rcases arm_cases build t f r with h | ⟨_, _, _, h⟩ | ⟨_, _, _, _, h⟩ <;> rw [h]
  · exact hs
  · exact hs
  · obtain ⟨_, _, _, _, _, _, _, _, hspi⟩ := hc
    obtain ⟨h0, hlt⟩ := half_syncPhaseInc_range r.minSweep
    have hinc : r.syncPhaseIncrement = syncPhaseInc r.minSweep := hspi
    rw [← hinc] at h0 hlt
    exact ⟨h0, le_of_lt' hlt, .inr rfl,
      fun hpi => absurd ((B64.lt_eq_false_of_le (B64.ge_of_eq_true hpi)).symm.trans hlt) Bool.false_ne_true,
      fun hzero => .inr hzero⟩

/-- So does the ramp's advance (R153). -/
theorem rampAdvance_syncRange {r : Regs Bin64} (hv : SyncValues r) (hs : SyncRange build r) :
    SyncRange build (rampAdvance build r) := by
  have hactive := rampAdvance_active hv
  rcases rampAdvance_cases build r with ⟨_, h⟩ | ⟨_, _, h⟩ | ⟨ha, hpi, h⟩
  · rw [h]; exact hs
  · rw [h]; exact syncRange_of_pi rfl rfl
  · rw [h, ha] at hactive
    rw [h]
    obtain ⟨_, _, hinc, _⟩ := hs
    have hge0 := add_nonneg' hv.hardsyncPhase.1 hv.hardsyncPhase.2.1
      ((B64.le_iff (x := 0) rfl hv.hardsyncIncrement.1).2 (by rw [B64.val_zero]; exact hv.hardsyncIncrement.2.1))
    obtain ⟨_, hn, _⟩ := B64.le_iff_notNaN_key.1 hge0
    have hlt : B64.lt (B64.add r.hardsyncPhase r.hardsyncIncrement) 0x400921FB54442D18 = true := by
      have hnle : ¬B64.le 0x400921FB54442D18 (B64.add r.hardsyncPhase r.hardsyncIncrement) = true :=
        Bool.eq_false_iff.1 hpi
      rw [B64.le_iff_notNaN_key] at hnle
      exact B64.lt_iff_notNaN_key.2 ⟨hn, by decide, not_le.1 fun hk => hnle ⟨by decide, hn, hk⟩⟩
    refine ⟨hge0, le_of_lt' hlt, hinc, fun heq => ?_, fun heq => ?_⟩
    · exact absurd ((B64.lt_eq_false_of_le (B64.ge_of_eq_true heq)).symm.trans hlt) Bool.false_ne_true
    · exact absurd ((syncActive_build_of_eq_zero heq).symm.trans hactive) Bool.false_ne_true

/-- And the rest of a STEP: a wrap ends a sync with both registers at 0 (R154). -/
theorem advance_syncRange {r : Regs Bin64} (hs : SyncRange build r) (f ci si : Bin64) :
    SyncRange build (advance build f ci si r).regs := by
  cases ha : syncActive build r with
  | false => exact syncRange_of_sameButClocks (advance_sameButClocks ha) hs
  | true =>
    cases hd : (advance build f ci si r).syncOut with
    | false =>
      rw [advance_regs_of_not_due hd]
      exact syncRange_of_sameButClocks (beforeWrap_sameButClocks build f ci si r) hs
    | true =>
      rw [advance_regs_of_due_sync hd ha]
      exact syncRange_of_zero rfl rfl

theorem syncValues_arm {r : Regs Bin64} (hc : ConstantsAgree build r) (hs : SyncRange build r) (t : Bool) (f : Bin64) :
    SyncValues (arm build t f r) :=
  syncValues (constantsAgree_of_sameConfig (arm_sameConfig build t f r) hc) (arm_syncRange hc hs t f)

theorem oscStep_syncRange {r : Regs Bin64} (hc : ConstantsAgree build r) (hs : SyncRange build r)
    (f c k : Bin64) (t : Bool) : SyncRange build (oscStep build f c k t r).regs := by
  rw [oscStep_build]
  exact advance_syncRange (rampAdvance_syncRange (syncValues_arm hc hs ..) (arm_syncRange hc hs ..)) ..

theorem oscStep_regsInv {r : Regs Bin64} (h : RegsInv r) (f c k : Bin64) (t : Bool) :
    RegsInv (oscStep build f c k t r).regs := by
  intro hconfigured
  have hsame := oscStep_sameConfig build_tz f c k t r
  obtain ⟨hc, hs, hr⟩ := h ((configured_of_sameConfig hsame).symm.trans hconfigured)
  exact ⟨constantsAgree_of_sameConfig hsame hc, oscStep_syncRange hc hs f c k t,
    clockRange_iff.2 (oscStep_clocks hc hs (clockRange_iff.1 hr) f c k t)⟩

/-! ### Every step (R76, R215) -/

/-- What a command answers, and that it keeps the invariant of the registers. -/
def KeepsRegsInv (s : State) (o : Host.Outcome State Fault Refusal) : Prop :=
  ∃ r w, o = .next (responded s r w) ∧ (RegsInv s.regs → RegsInv r)

theorem exec_keepsRegsInv (i : Instr) (s : State) : KeepsRegsInv s (exec i s) := by
  cases i with
  | nop => exact ⟨_, _, exec_nop s, id⟩
  | config ms sr ph =>
    cases hlegal : sampleRateLegal build sr with
    | false => exact ⟨_, _, exec_config_illegal hlegal .., id⟩
    | true => exact ⟨_, _, exec_config_legal hlegal .., fun _ => configure_regsInv hlegal ms ph s.regs⟩
  | setphase f c k p =>
    cases hconfigured : s.regs.configured with
    | false => exact ⟨_, _, exec_setphase_unconfigured hconfigured .., id⟩
    | true => exact ⟨_, _, exec_setphase_configured hconfigured .., fun h => seed_regsInv h p f c k⟩
  | step f c k t =>
    cases hconfigured : s.regs.configured with
    | false => exact ⟨_, _, exec_step_unconfigured hconfigured .., id⟩
    | true => exact ⟨_, _, exec_step_configured hconfigured .., fun h => oscStep_regsInv h f c k t⟩
  | getms =>
    cases hconfigured : s.regs.configured with
    | false => exact ⟨_, _, exec_getms_unconfigured hconfigured, id⟩
    | true => exact ⟨_, _, exec_getms_configured hconfigured, id⟩
  | reserved5 => exact ⟨_, _, exec_reserved5 s, id⟩
  | reserved6 => exact ⟨_, _, exec_reserved6 s, id⟩
  | reserved7 => exact ⟨_, _, exec_reserved7 s, id⟩

theorem perform_keepsRegsInv (w : Frame) (s : State) : KeepsRegsInv s (perform w s) := by
  by_cases hr : rsvField w = 0
  · obtain ⟨i, hi, _⟩ := exists_decode_eq_ok hr
    rw [perform_of_decode_eq_ok hi]
    exact exec_keepsRegsInv i s
  · exact ⟨_, _, perform_of_rsvField_ne_zero hr s, id⟩

/-- Settles O47. Reset leaves an unconfigured core, an instant without a command changes nothing the invariant reads, and
an accepted frame is answered by a response that R68 allows and keeps the invariant of the registers. -/
theorem everyStepKeepsMachineInv : Obligations.EveryStepKeepsMachineInv := by
  rintro s s' ⟨hrsp, hregs⟩ hstep
  rcases step_cases s with ⟨t, hnext, hr, hf⟩ | ⟨t, hnext, hr, hf⟩ | ⟨w, rest, hperform⟩
  · obtain rfl := Host.Outcome.next.inj (hnext.symm.trans hstep)
    refine ⟨by rw [hf]; decide, fun hconfigured => ?_⟩
    rw [hr] at hconfigured
    exact absurd hconfigured Bool.false_ne_true
  · obtain rfl := Host.Outcome.next.inj (hnext.symm.trans hstep)
    unfold MachineInv
    rw [hr, hf]
    exact ⟨hrsp, hregs⟩
  · rw [hperform] at hstep
    obtain ⟨r, v, hanswer, hkeeps⟩ := perform_keepsRegsInv w { s with cmdReady := true, host := rest }
    obtain ⟨r', v', hanswer', hv⟩ := (perform_answers w { s with cmdReady := true, host := rest }).exists_responded
    have hframe := congrArg State.rspFrame (Host.Outcome.next.inj (hanswer'.symm.trans hstep))
    obtain rfl := Host.Outcome.next.inj (hanswer.symm.trans hstep)
    exact ⟨(congrArg rspWellFormed hframe).symm.trans hv, hkeeps hregs⟩

/-! ### The end of a sync (R153, R154) -/

/-- With a sync active a STEP ignores the trigger and runs from the advanced ramp. -/
theorem oscStep_of_active {r : Regs Bin64} (h : syncActive build r = true) (f c k : Bin64) (t : Bool) :
    ∃ x, oscStep build f c k t r = advance build x (clipInternal build c) (skewInternal build r k) (rampAdvance build r) := by
  have harm : arm build t (freqOperand build r f) r = r := by
    cases t with
    | false => exact arm_no_trigger ..
    | true => exact arm_of_syncActive h
  exact ⟨_, by rw [oscStep_build, harm]⟩

/-- Settles O45: the ramp advances first and stays active, so a wrap in the same STEP is a wrap with a sync. -/
theorem syncEndsOnlyAtTheWrap : Obligations.SyncEndsOnlyAtTheWrap := by
  rintro s s' freq clip skew t ⟨_, hregs⟩ hconfigured hne hexec
  obtain ⟨hc, hs, _⟩ := hregs hconfigured
  have hactive := syncActive_build_of_ne_zero hne
  have hstill := (rampAdvance_active (syncValues hc hs)).trans hactive
  obtain ⟨x, hx⟩ := oscStep_of_active hactive freq clip skew t
  rw [exec_step_configured hconfigured, hx] at hexec
  obtain rfl := Host.Outcome.next.inj hexec
  cases hd : (advance build x (clipInternal build clip) (skewInternal build s.regs skew)
      (rampAdvance build s.regs)).syncOut with
  | true =>
    left
    have hwrap := advance_regs_of_due_sync hd hstill
    refine ⟨rspSyncOut_rspFrameOf .., ?_⟩
    simp only [responded, hwrap]
    exact ⟨rfl, rfl, rfl, rfl⟩
  | false =>
    right
    have hframe := beforeWrap_sameButClocks build x (clipInternal build clip) (skewInternal build s.regs skew)
      (rampAdvance build s.regs)
    rw [← advance_regs_of_not_due hd] at hframe
    obtain ⟨_, hphase, hinc⟩ := hframe
    refine ⟨rspSyncOut_rspFrameOf .., ?_⟩
    simp only [responded, hphase, hinc]
    rw [rampAdvance_of_syncActive hactive, build_toNumSys, sys_le, sys_add, sys_pi, sys_zero]
    split <;> exact ⟨rfl, rfl⟩

end Sys2Proof.Machine
end

section
/-! PROOFS, the sample of a STEP (41_step_phase_shaping.md R123, R134, R136): where its cosine is taken, the registers that
a STEP leaves alone, and O31. -/

namespace Sys2Proof.Machine

open Config Sys2Proof.Safety

variable {α : Type}

/-! ### The sample of a path (R116 to R128) -/

/-- The normal path emits `-1`, `+1`, the cosine of the shape clock, or that of the sweep-up entry (R119 to R128). -/
theorem normalPath_sample (B : Build α) (inc : α) (g : Geometry α) (r : Regs α) :
    (normalPath B inc g r).sample = B.negOne ∨ (normalPath B inc g r).sample = B.one ∨
      (normalPath B inc g r).sample = cosPi B r.warpedPhase ∨
      (normalPath B inc g r).sample = cosPi B (sweepUpEntry B inc g r) := by
  unfold normalPath
  cases classify B g r with
  | sweepDown => exact .inr (.inr (.inl rfl))
  | flatLow => exact .inl rfl
  | sweepUp => exact .inr (.inr (.inr rfl))
  | flatHigh => exact .inr (.inl rfl)

/-- The sweep-up entry is the shape clock itself but at 1 (R123). -/
theorem sweepUpEntry_cases (B : Build α) (inc : α) (g : Geometry α) (r : Regs α) :
    (B.eq r.warpedPhase B.one = false ∧ sweepUpEntry B inc g r = r.warpedPhase) ∨
      (B.eq r.warpedPhase B.one = true ∧ sweepUpEntry B inc g r =
        B.add B.one (wdiv B.toNumSys (nmin B.toNumSys (B.sub r.phase g.mid) inc) g.ulen)) := by
  cases h : B.eq r.warpedPhase B.one with
  | false => exact .inl ⟨rfl, by simp only [sweepUpEntry, h, Bool.false_eq_true, if_false]⟩
  | true => exact .inr ⟨rfl, by simp only [sweepUpEntry, h, if_true]⟩

/-! ### The registers that the path of a STEP starts from (R151, R153) -/

section Ramped

variable (B : Build α) (t : Bool) (freq : α) (r : Regs α)

@[simp] theorem rampedRegs_warpedPhase : (rampedRegs B t freq r).warpedPhase = r.warpedPhase := by
  obtain ⟨_, _, hwp⟩ := rampAdvance_frame B (arm B t (freqOperand B r freq) r)
  refine hwp.trans ?_
  rcases arm_cases B t (freqOperand B r freq) r with h | ⟨_, _, _, h⟩ | ⟨_, _, _, _, h⟩ <;> rw [h]

variable {B r}

/-- Arming moves `phase` only where `warped_phase` is 2. -/
theorem rampedRegs_phase (h : B.eq r.warpedPhase B.two = false) : (rampedRegs B t freq r).phase = r.phase := by
  obtain ⟨_, hphase, _⟩ := rampAdvance_frame B (arm B t (freqOperand B r freq) r)
  refine hphase.trans ?_
  rcases arm_cases B t (freqOperand B r freq) r with he | ⟨_, _, htwo, _⟩ | ⟨_, _, _, _, he⟩
  · rw [he]
  · exact absurd (h.symm.trans htwo) Bool.false_ne_true
  · rw [he]

/-- With no sync active and no trigger there is nothing to arm or to advance. -/
theorem rampedRegs_ready (h : syncActive B r = false) : rampedRegs B false freq r = r := by
  rw [rampedRegs, arm_no_trigger, rampAdvance, h]
  rfl

theorem phaseIncrement_rampedRegs (clip skew : α) :
    phaseIncrement B (rampedRegs B t freq r) (effFreq B ⟨freq, clip, skew, t⟩ r) =
      effInc B ⟨freq, clip, skew, t⟩ r := by
  obtain ⟨_, _, _, hpi, _⟩ := rampedRegs_sameConfig B t freq r
  rw [phaseIncrement, hpi]
  rfl

theorem geometry_rampedRegs (htz : B.tz = false) (clip skew : α) :
    geometry B (rampedRegs B t freq r) (effInc B ⟨freq, clip, skew, t⟩ r) (clipInternal B clip)
        (skewInternal B r skew) = effGeometry B ⟨freq, clip, skew, t⟩ r := by
  obtain ⟨hms, _⟩ := rampedRegs_sameConfig B t freq r
  unfold geometry effGeometry
  rw [hms, signTest_off B htz]
  rfl

end Ramped

/-- A value equal to 1 is not equal to 2. -/
theorem eq_two_eq_false {x : Bin64} (h : B64.eq x 0x3FF0000000000000 = true) :
    B64.eq x 0x4000000000000000 = false := by
  rw [← Bool.not_eq_true]
  intro htwo
  obtain ⟨_, hone, _⟩ := flatHigh_tests (B64.ge_of_eq_true htwo)
  exact Bool.false_ne_true (hone.symm.trans h)

section Sample

variable (t : Bool) (freq : Bin64) (r : Regs Bin64)

/-- What a STEP of this hardware emits, by the registers it finds. -/
theorem oscStep_sample_cases (clip skew : Bin64) :
    (oscStep build freq clip skew t r).sample = 0xBFF0000000000000 ∨
      (oscStep build freq clip skew t r).sample = 0x3FF0000000000000 ∨
      (oscStep build freq clip skew t r).sample = cosPi build r.warpedPhase ∨
      (B64.eq r.warpedPhase 0x3FF0000000000000 = true ∧
        (oscStep build freq clip skew t r).sample =
          cosPi build (B64.add 0x3FF0000000000000 (wdiv B64.sys
            (nmin B64.sys (B64.sub r.phase (effGeometry build ⟨freq, clip, skew, t⟩ r).mid)
              (effInc build ⟨freq, clip, skew, t⟩ r)) (effGeometry build ⟨freq, clip, skew, t⟩ r).ulen))) := by
  have hwp := rampedRegs_warpedPhase build t freq r
  have hphase : B64.eq r.warpedPhase 0x4000000000000000 = false → (rampedRegs build t freq r).phase = r.phase :=
    rampedRegs_phase (B := build) t freq
  have hinc := phaseIncrement_rampedRegs (B := build) (r := r) t freq clip skew
  have hgeometry := geometry_rampedRegs (B := build) (r := r) t freq build_tz clip skew
  rw [oscStep_eq_advance build_tz, advance_eq]
  simp only
  cases hfast : onFastPath build (rampedRegs build t freq r) (effFreq build ⟨freq, clip, skew, t⟩ r) with
  | true =>
    rw [pathOf_fast hfast]
    exact .inr (.inr (.inl (congrArg (cosPi build) hwp)))
  | false =>
    rw [pathOf_normal hfast, hinc, hgeometry]
    generalize effGeometry build ⟨freq, clip, skew, t⟩ r = g at *
    generalize effInc build ⟨freq, clip, skew, t⟩ r = inc at *
    generalize rampedRegs build t freq r = r' at *
    rcases normalPath_sample build inc g r' with h | h | h | h
    · exact .inl h
    · exact .inr (.inl h)
    · exact .inr (.inr (.inl (h.trans (congrArg (cosPi build) hwp))))
    · rcases sweepUpEntry_cases build inc g r' with ⟨_, he⟩ | ⟨hone, he⟩
      · exact .inr (.inr (.inl (h.trans (congrArg (cosPi build) (he.trans hwp)))))
      · rw [hwp] at hone
        rw [hphase (eq_two_eq_false hone)] at he
        exact .inr (.inr (.inr ⟨hone, h.trans (congrArg (cosPi build) he)⟩))

end Sample

/-- Settles O31. -/
theorem stepEmitsOneBoundedSample : Obligations.StepEmitsOneBoundedSample := by
  rintro s freq clip skew _ t _ hconfigured rfl rfl
  refine ⟨_, _, _, exec_step_configured hconfigured freq clip skew t, oscStep_sameConfig build_tz .., ?frame,
    oscStep_sample_cases t freq s.regs clip skew, ?bounded⟩
  case frame =>
    rintro hready rfl
    have hs := ready_syncActive hready
    rw [oscStep_eq_advance build_tz, rampedRegs_ready freq hs]
    exact (advance_sameButClocks hs).2
  case bounded =>
    rintro ⟨_, hregs⟩
    obtain ⟨hc, hs, hr⟩ := hregs hconfigured
    exact oscStep_sample_range hc hs (clockRange_iff.1 hr) freq clip skew t

end Sys2Proof.Machine
end

section
/-! PROOFS, the rounding of 00_scope.md R12: the operations on finite operands, the nearest value and the tie, the midpoint
above the largest finite value, and O49. -/

namespace Sys2Proof.Machine.B64

/-! ### The operations as roundings of the exact result -/

section Finite

variable {x y : Bin64}

theorem units_neg (x : Bin64) : units (neg x) = -units x := by
  unfold units
  rw [magnitude_eq, magnitude_eq, magBits_neg, signBit_neg]
  cases signBit x <;> simp

theorem natAbs_units (x : Bin64) : (units x).natAbs = magnitude x := by
  unfold units
  split <;> simp

theorem isZero_of_units_ne_zero (h : units y ≠ 0) : isZero y = false := by
  rw [← Bool.not_eq_true, isZero_iff_val, val]
  exact mul_ne_zero (Int.cast_ne_zero.2 h) unit_pos.ne'

theorem sum_of_isFinite (op : Nat) (hx : isFinite x = true) (hy : isFinite y = true) :
    sum op x y = if units x + units y = 0 then pack (signBit x && signBit y) 0
      else pack (decide (units x + units y < 0)) (roundMag (units x + units y).natAbs 1) := by
  simp only [sum, isNaN_of_isFinite hx, isNaN_of_isFinite hy, isInf_of_isFinite hx, isInf_of_isFinite hy, Bool.or_self,
    Bool.false_eq_true, if_false]

theorem sub_of_isFinite (hx : isFinite x = true) (hy : isFinite y = true) :
    sub x y = if units x - units y = 0 then pack (signBit x && !signBit y) 0
      else pack (decide (units x - units y < 0)) (roundMag (units x - units y).natAbs 1) := by
  rw [sub, sum_of_isFinite 1 hx (by rw [isFinite_neg]; exact hy), units_neg, signBit_neg, ← sub_eq_add_neg]

theorem mul_of_isFinite (hx : isFinite x = true) (hy : isFinite y = true) :
    mul x y = pack (signBit x != signBit y) (roundMag (magnitude x * magnitude y) (2 ^ 1074)) := by
  simp only [mul, isNaN_of_isFinite hx, isNaN_of_isFinite hy, isInf_of_isFinite hx, isInf_of_isFinite hy, Bool.or_self,
    Bool.false_eq_true, if_false]

theorem div_of_isFinite (hx : isFinite x = true) (hy : isFinite y = true) (h0 : isZero y = false) :
    div x y = pack (signBit x != signBit y) (roundMag (magnitude x * 2 ^ 1074) (magnitude y)) := by
  simp only [div, isNaN_of_isFinite hx, isNaN_of_isFinite hy, isInf_of_isFinite hx, isInf_of_isFinite hy, h0, Bool.or_self,
    Bool.false_eq_true, if_false]

end Finite

/-! ### Bit patterns of non-negative values -/

theorem ofNat_magBits {z : Bin64} (h : signBit z = false) : BitVec.ofNat 64 (magBits z) = z := by
  have hlt : z.toNat < 2 ^ 63 := BitVec.toNat_lt_of_msb_false h
  rw [magBits, Nat.mod_eq_of_lt hlt, BitVec.ofNat_toNat, BitVec.setWidth_eq]

theorem magnitude_ofNat {b : Nat} (h : b ≤ infBits) : magnitude (BitVec.ofNat 64 b) = magOf b := by
  rw [magnitude_eq]
  exact congrArg magOf (magBits_pack false h)

theorem eq_of_min_eq {u c b : Nat} (h : min u c = b) (hb : b < c) : u = b := by omega

/-! ### The tie (R12) -/

/-- Where the exact value is the midpoint above the answer, the answer has an even last bit. -/
theorem even_of_roundMag_tie {n d b : Nat} (hd : 0 < d) (hb : b < infBits) (hr : roundMag n d = b)
    (ht : 2 * n = (magOf b + magOf (b + 1)) * d) : b % 2 = 0 := by
  obtain ⟨hpl, hlt, hge⟩ := place_spec n hd
  have hdef : roundMag n d = min ((Nat.log2 (n / d) - 52) * 2 ^ 52 +
      (if decide (d * 2 ^ (Nat.log2 (n / d) - 52) < 2 * (n % (d * 2 ^ (Nat.log2 (n / d) - 52)))) ||
          (decide (d * 2 ^ (Nat.log2 (n / d) - 52) = 2 * (n % (d * 2 ^ (Nat.log2 (n / d) - 52)))) &&
            n / (d * 2 ^ (Nat.log2 (n / d) - 52)) % 2 == 1)
        then n / (d * 2 ^ (Nat.log2 (n / d) - 52)) + 1 else n / (d * 2 ^ (Nat.log2 (n / d) - 52)))) infBits := rfl
  have hdm := Nat.div_add_mod n (d * 2 ^ (Nat.log2 (n / d) - 52))
  have hml := Nat.mod_lt n hpl
  generalize Nat.log2 (n / d) - 52 = q at *
  generalize n / (d * 2 ^ q) = low at *
  generalize n % (d * 2 ^ q) = rest at *
  have hg0 : magOf (q * 2 ^ 52 + low) = low * 2 ^ q := magOf_grid hlt.le hge
  have hg1 : magOf (q * 2 ^ 52 + low + 1) = (low + 1) * 2 ^ q := by
    rw [Nat.add_assoc]; exact magOf_grid hlt (hge.imp_right Nat.le_succ_of_le)
  have hbits := eq_of_min_eq (hdef.symm.trans hr) hb
  clear hdef hr hb
  split at hbits
  · -- rounded up: the midpoint above the answer is above the exact value
    rw [← Nat.add_assoc] at hbits
    have hnext : magOf b < magOf (b + 1) := magOf_strictMono (Nat.lt_succ_self b)
    have hmid : 2 * (magOf b * d) < 2 * n := by
      rw [ht, ← Nat.mul_assoc]; exact Nat.mul_lt_mul_of_pos_right (by omega) hd
    have hup : magOf b * d = d * 2 ^ q * low + d * 2 ^ q := by rw [← hbits, hg1]; ring
    rw [hup] at hmid
    omega
  · rename_i hdown
    have hmid : 2 * n = 2 * (d * 2 ^ q * low) + d * 2 ^ q := by rw [ht, ← hbits, hg0, hg1]; ring
    simp only [Bool.or_eq_true, Bool.and_eq_true, decide_eq_true_eq, beq_iff_eq, not_or, not_and] at hdown
    have hlow : low % 2 ≠ 1 := hdown.2 (by omega)
    omega

/-! ### The nearest value (R12) -/

/-- No bit pattern is nearer to `n / d` units than a finite answer of the rounding, and one as near is the answer itself or
leaves it an even last bit. -/
theorem roundMag_nearest {n d : Nat} (hd : 0 < d) (hfin : roundMag n d < infBits) (b : Nat) :
    |(magOf (roundMag n d) * d : ℤ) - n| ≤ |(magOf b * d : ℤ) - n| ∧
      (|(magOf (roundMag n d) * d : ℤ) - n| = |(magOf b * d : ℤ) - n| → b = roundMag n d ∨ roundMag n d % 2 = 0) := by
  have heven := even_of_roundMag_tie (b := roundMag n d) hd hfin rfl
  obtain ⟨q, low, u, hr, hlo, hlt, _, hc⟩ := roundMag_spec n hd
  have hu : roundMag n d = u := (eq_of_min_eq hr.symm hfin).symm
  rw [hu] at heven ⊢
  have hd' : (0 : ℤ) < d := by exact_mod_cast hd
  -- the products with `d`, in the order of the bit patterns
  have hmono : ∀ a c : Nat, a ≤ c → (magOf a * d : ℤ) ≤ magOf c * d := fun a c h => by
    exact_mod_cast Nat.mul_le_mul_right d (magOf_strictMono.monotone h)
  have hinj : ∀ a c : Nat, (magOf a * d : ℤ) = magOf c * d → a = c := fun a c h =>
    magOf_strictMono.injective (by exact_mod_cast mul_right_cancel₀ hd'.ne' h)
  rcases hc with ⟨hm, hm1, htie⟩ | ⟨v, rfl, hmv, hm, hn, htie, hodd⟩
  · -- rounded down
    have e0 : (magOf u * d : ℤ) = low * (d * 2 ^ q) := by rw [hm]; push_cast; ring
    have e1 : (magOf (u + 1) * d : ℤ) = (low + 1) * (d * 2 ^ q) := by rw [hm1]; push_cast; ring
    zify at hlo htie
    have hleft : |(magOf u * d : ℤ) - n| = n - magOf u * d := by rw [abs_sub_comm, abs_of_nonneg]; linarith
    rw [hleft]
    rcases Nat.lt_or_ge u b with hub | hbu
    · have hbig := hmono (u + 1) b hub
      have hright : |(magOf b * d : ℤ) - n| = magOf b * d - n := by rw [abs_of_nonneg]; linarith
      rw [hright]
      refine ⟨by linarith, fun heq => .inr (heven ?_)⟩
      have : (2 * n : ℤ) = (magOf u + magOf (u + 1)) * d := by linarith
      exact_mod_cast this
    · have hsmall := hmono b u hbu
      have hright : |(magOf b * d : ℤ) - n| = n - magOf b * d := by rw [abs_sub_comm, abs_of_nonneg]; linarith
      rw [hright]
      exact ⟨by linarith, fun heq => .inl (hinj b u (by linarith))⟩
  · -- rounded up
    have e0 : (magOf v * d : ℤ) = low * (d * 2 ^ q) := by rw [hmv]; push_cast; ring
    have e1 : (magOf (v + 1) * d : ℤ) = (low + 1) * (d * 2 ^ q) := by rw [hm]; push_cast; ring
    have hodd' : (2 * low + 1 : ℤ) * (d * 2 ^ q) < 2 * n ∨ v % 2 = 1 := by exact_mod_cast hodd
    zify at hlt hn htie
    have hleft : |(magOf (v + 1) * d : ℤ) - n| = magOf (v + 1) * d - n := by rw [abs_of_nonneg]; linarith
    rw [hleft]
    rcases Nat.lt_or_ge v b with hvb | hbv
    · have hbig := hmono (v + 1) b hvb
      have hright : |(magOf b * d : ℤ) - n| = magOf b * d - n := by rw [abs_of_nonneg]; linarith
      rw [hright]
      exact ⟨by linarith, fun heq => .inl (hinj b (v + 1) (by linarith))⟩
    · have hsmall := hmono b v hbv
      have hright : |(magOf b * d : ℤ) - n| = n - magOf b * d := by rw [abs_sub_comm, abs_of_nonneg]; linarith
      rw [hright]
      refine ⟨by linarith, fun heq => .inr ?_⟩
      have hv : v % 2 = 1 := hodd'.resolve_left (by linarith)
      omega

/-! ### Infinity (R12, log 1) -/

/-- The midpoint between the largest finite magnitude and the next place of its grid. -/
theorem magOf_top_add : magOf (infBits - 1) + magOf infBits = 2 * ((2 ^ 54 - 1) * 2 ^ 2044) := by
  have hinf : infBits = 2045 * 2 ^ 52 + 2 ^ 53 := by norm_num [infBits]
  have htop : infBits - 1 = 2045 * 2 ^ 52 + (2 ^ 53 - 1) := by norm_num [infBits]
  rw [htop, magOf_grid (by norm_num) (.inr (by norm_num)), hinf, magOf_grid le_rfl (.inr (by norm_num)),
    pow_succ 2 2044]
  generalize 2 ^ 2044 = A
  omega

/-- The rounding answers infinity exactly from that midpoint on. -/
theorem roundMag_eq_infBits_iff {n d : Nat} (hd : 0 < d) :
    roundMag n d = infBits ↔ (magOf (infBits - 1) + magOf infBits) * d ≤ 2 * n := by
  have hodd : (infBits - 1) % 2 = 1 := by decide
  have hpos : infBits ≠ 0 := by decide
  have heven := even_of_roundMag_tie (n := n) (b := infBits - 1) hd
  have hspec := roundMag_spec n hd
  generalize infBits = c at *
  obtain ⟨c, rfl⟩ := Nat.exists_eq_add_one_of_ne_zero hpos
  rw [Nat.add_sub_cancel] at *
  have hmono : ∀ a b : Nat, a ≤ b → magOf a * d ≤ magOf b * d := fun a b h =>
    Nat.mul_le_mul_right d (magOf_strictMono.monotone h)
  have hstrict : magOf c * d < magOf (c + 1) * d :=
    Nat.mul_lt_mul_of_pos_right (magOf_strictMono (Nat.lt_succ_self c)) hd
  rw [Nat.add_mul] at heven ⊢
  obtain ⟨q, low, u, hr, hlo, hlt, _, ⟨hm, hm1, htie⟩ | ⟨v, rfl, hmv, hm, hn, htie, _⟩⟩ := hspec
  · -- rounded down
    have e0 : magOf u * d = low * (d * 2 ^ q) := by rw [hm]; ring
    have e1 : magOf u * d + magOf (u + 1) * d = (2 * low + 1) * (d * 2 ^ q) := by rw [hm, hm1]; ring
    constructor
    · intro hinf
      have := hmono (c + 1) u (by omega)
      omega
    · intro hge
      by_contra hfin
      rcases Nat.lt_or_ge u c with hlow | hhigh
      · have := hmono (u + 1) c hlow
        have := hmono u (u + 1) (Nat.le_succ u)
        omega
      · obtain rfl : u = c := by omega
        have := heven (by omega) (by omega) (by omega)
        omega
  · -- rounded up
    have e0 : magOf v * d = low * (d * 2 ^ q) := by rw [hmv]; ring
    have e1 : magOf v * d + magOf (v + 1) * d = (2 * low + 1) * (d * 2 ^ q) := by rw [hmv, hm]; ring
    have e2 : magOf (v + 1) * d = (low + 1) * (d * 2 ^ q) := by rw [hm]; ring
    constructor
    · intro hinf
      have := hmono c v (by omega)
      have := hmono (c + 1) (v + 1) (by omega)
      omega
    · intro hge
      by_contra hfin
      have := hmono (v + 1) c (by omega)
      omega

end Sys2Proof.Machine.B64

namespace Sys2Proof.Machine

open B64

/-- Settles O49. -/
theorem roundingIsToNearestEven : Obligations.RoundingIsToNearestEven := by
  refine ⟨fun x y hx hy => ⟨sum_of_isFinite 0 hx hy, sub_of_isFinite hx hy, ?mul, fun h => ?div⟩,
    fun n d hd => ⟨fun hfin z hsign _ => ?nearest, ?infinity⟩⟩
  case mul => rw [mul_of_isFinite hx hy, Int.natAbs_mul, natAbs_units, natAbs_units]
  case div => rw [div_of_isFinite hx hy (isZero_of_units_ne_zero h), natAbs_units, natAbs_units]
  case nearest =>
    obtain ⟨hnearest, htie⟩ := roundMag_nearest hd hfin (magBits z)
    rw [magnitude_ofNat hfin.le, magnitude_eq]
    refine ⟨hnearest, fun heq => (htie heq).imp_left fun hbits => ?_⟩
    rw [← hbits, ofNat_magBits hsign]
  case infinity =>
    rw [roundMag_eq_infBits_iff hd, magOf_top_add, Nat.mul_assoc]
    exact Nat.mul_le_mul_left_iff two_pos

end Sys2Proof.Machine
end

section
/-! PROOFS, exact results (00_scope.md R12): a representable value is its own rounding, and what follows for the neutral
seeding of CONFIG (40_config_commands.md R99) and for a STEP after a SETPHASE (43_phase_seeding.md R172): O23, O30. -/

namespace Sys2Proof.Machine

open Config Sys2Proof.Safety B64

/-! ### A representable value is its own rounding -/

namespace B64

theorem roundMag_of_exact {b d : Nat} (hd : 0 < d) (hb : b ≤ infBits) : roundMag (magOf b * d) d = b :=
  le_antisymm (roundMag_le hd le_rfl) (le_roundMag hd hb le_rfl)

theorem roundMag_zero {d : Nat} (hd : 0 < d) : roundMag 0 d = 0 := Nat.le_zero.1 (roundMag_le hd (Nat.zero_le _))

theorem pack_signBit_magBits (x : Bin64) : pack (signBit x) (magBits x) = x := by
  cases hs : signBit x with
  | false => exact ofNat_magBits hs
  | true =>
    have hge : 2 ^ 63 ≤ x.toNat := BitVec.toNat_ge_of_msb_true (x := x) hs
    have hlt : x.toNat < 2 ^ 64 := x.isLt
    apply BitVec.eq_of_toNat_eq
    rw [pack, magBits, BitVec.toNat_ofNat, if_pos rfl]
    omega

theorem key_pos_of_val_pos {x : Bin64} (h : 0 < val x) : 0 < key x := by
  rw [val, units_eq] at h
  have hunits : (0 : ℚ) < unitsAt (key x) := (mul_pos_iff_of_pos_right unit_pos).1 h
  have h0 : unitsAt 0 < unitsAt (key x) := by exact_mod_cast hunits
  exact unitsAt_strictMono.lt_iff_lt.1 h0

/-- One bit pattern per positive value. -/
theorem eq_of_val_eq {x y : Bin64} (h : val x = val y) (hy : 0 < val y) : x = y := by
  refine eq_of_key_eq (unitsAt_strictMono.injective ?_) (key_pos_of_val_pos hy)
  rw [val, val, units_eq, units_eq] at h
  exact_mod_cast mul_right_cancel₀ unit_pos.ne' h

/-- The rounding of a representable value has that value. -/
theorem Rounds.exact {q : ℚ} {r b : Bin64} (h : Rounds q r) (hb : isFinite b = true) (hq : q = val b) :
    isFinite r = true ∧ val r = val b := by
  obtain ⟨hf, hlo, hhi⟩ := h.within b b hb hb hq.ge hq.le
  exact ⟨hf, le_antisymm hhi hlo⟩

/-- `x * 1` is `x`, a zero of either sign among them. -/
theorem mul_one_eq {x : Bin64} (hx : isFinite x = true) : mul x 0x3FF0000000000000 = x := by
  have hmag : magnitude 0x3FF0000000000000 = 2 ^ 1074 := by decide +kernel
  have hsign : signBit 0x3FF0000000000000 = false := by decide
  rw [mul_of_isFinite hx rfl, hmag, hsign, magnitude_eq,
    roundMag_of_exact (Nat.two_pow_pos 1074) (isFinite_iff.1 hx).le, Bool.bne_false, pack_signBit_magBits]

/-- A positive value times `+0` is `+0`. -/
theorem mul_zero_eq {x : Bin64} (hx : isFinite x = true) (h0 : 0 < val x) : mul x 0 = 0 ∧ mul 0 x = 0 := by
  have hsign : signBit x = false := by
    by_contra hs
    rw [Bool.not_eq_false] at hs
    have hm : (0 : ℚ) ≤ magnitude x * unit := mul_nonneg (Nat.cast_nonneg _) unit_pos.le
    rw [val_eq_sign_mul, hs, if_pos rfl] at h0
    linarith
  have hmag : magnitude 0 = 0 := by decide
  have hzero : signBit 0 = false := by decide
  rw [mul_of_isFinite hx rfl, mul_of_isFinite rfl hx, hmag, Nat.mul_zero, Nat.zero_mul,
    roundMag_zero (Nat.two_pow_pos 1074), hsign, hzero]
  exact ⟨rfl, rfl⟩

/-- Every whole number of places below `2^53` is a magnitude, whatever the place. -/
theorem exists_magOf_eq (e : Nat) : ∀ {k : Nat}, k < 2 ^ 53 → ∃ c, magOf c = k * 2 ^ e := by
  induction e with
  | zero => exact fun {k} hk => ⟨0 * 2 ^ 52 + k, magOf_grid hk.le (.inl rfl)⟩
  | succ e ih =>
    intro k hk
    rcases Nat.lt_or_ge k (2 ^ 52) with hlow | hhigh
    · obtain ⟨c, hc⟩ := ih (k := 2 * k) (by omega)
      exact ⟨c, by rw [hc, pow_succ]; ring⟩
    · exact ⟨(e + 1) * 2 ^ 52 + k, magOf_grid hk.le (.inr hhigh)⟩

/-- The magnitude of a bit pattern between those of 1 and 2. -/
theorem magOf_between_one_two {b : Nat} (h1 : 0x3FF0000000000000 ≤ b) (h2 : b < 0x4000000000000000) :
    ∃ k < 2 ^ 52, magOf b = magOf 0x3FF0000000000000 + k * 2 ^ 1022 := by
  have h : ∀ k < 2 ^ 52, magOf (1022 * 2 ^ 52 + (2 ^ 52 + k)) = (2 ^ 52 + k) * 2 ^ 1022 := fun k hk =>
    magOf_grid (by omega) (.inr (by omega))
  have hone := h 0 (by norm_num)
  have hb := h (b - 0x3FF0000000000000) (by omega)
  rw [show 1022 * 2 ^ 52 + (2 ^ 52 + 0) = 0x3FF0000000000000 by norm_num] at hone
  rw [show 1022 * 2 ^ 52 + (2 ^ 52 + (b - 0x3FF0000000000000)) = b by omega] at hb
  exact ⟨b - 0x3FF0000000000000, by omega, by rw [hb, hone, Nat.add_zero, Nat.add_mul]⟩

/-- Between 1 and 2 the difference to 1 is exact, and adding 1 gives the value back. -/
theorem one_add_sub_one {p : Bin64} (hp : isFinite p = true) (h1 : 1 < val p) (h2 : val p < 2) :
    isFinite (sub p 0x3FF0000000000000) = true ∧ add 0x3FF0000000000000 (sub p 0x3FF0000000000000) = p := by
  have hkey : key 0x3FF0000000000000 < key p ∧ key p < key 0x4000000000000000 := by
    rw [← val_one] at h1
    rw [← val_two] at h2
    obtain ⟨_, _, hk1⟩ := lt_iff_notNaN_key.1 ((lt_iff (x := 0x3FF0000000000000) rfl hp).2 h1)
    obtain ⟨_, _, hk2⟩ := lt_iff_notNaN_key.1 ((lt_iff (y := 0x4000000000000000) hp rfl).2 h2)
    exact ⟨hk1, hk2⟩
  have hone : key 0x3FF0000000000000 = 0x3FF0000000000000 := rfl
  have htwo : key 0x4000000000000000 = 0x4000000000000000 := rfl
  have hpos : 0 < key p := by omega
  have hmag : magBits p = p.toNat := by rw [magBits_eq_key, key_of_pos hpos]; rfl
  have hsign : val p = magOf p.toNat * unit := by
    rw [val, units_eq, key_of_pos hpos, unitsAt_natCast]; rfl
  have hval1 : (magOf 0x3FF0000000000000 : ℚ) * unit = 1 :=
    (val_of_bits (x := 0x3FF0000000000000) rfl rfl).trans val_one
  rw [key_of_pos hpos, hone, htwo] at hkey
  obtain ⟨k, hk, hmagp⟩ := magOf_between_one_two (b := p.toNat) (by omega) (by omega)
  obtain ⟨c, hc⟩ := exists_magOf_eq 1022 (show k < 2 ^ 53 by omega)
  have hcfin : c < infBits := by
    have hle : magOf c ≤ magOf p.toNat := by rw [hc, hmagp]; exact Nat.le_add_left _ _
    have hcp := magOf_strictMono.le_iff_le.1 hle
    have hpfin := isFinite_iff.1 hp
    rw [hmag] at hpfin
    exact hcp.trans_lt hpfin
  have hvalc : val (pack false c) = val p - 1 := by
    have hcast : (magOf p.toNat : ℚ) = magOf 0x3FF0000000000000 + magOf c := by
      rw [hmagp, hc]; exact Nat.cast_add _ _
    rw [val_pack false hcfin.le, if_neg Bool.false_ne_true, hsign, hcast, add_mul, hval1]
    ring
  have hcf : isFinite (pack false c) = true := isFinite_iff.2 (by rwa [magBits_pack false hcfin.le])
  obtain ⟨hsubf, hsub⟩ := (rounds_sub (y := 0x3FF0000000000000) hp rfl).exact hcf (by rw [hvalc, val_one])
  obtain ⟨_, hadd⟩ := (rounds_add (x := 0x3FF0000000000000) rfl hsubf).exact hp (by
    rw [hsub, hvalc, val_one]; ring)
  exact ⟨hsubf, eq_of_val_eq hadd (by linarith)⟩

/-- `1 + z` is 1 for a zero of either sign. -/
theorem one_add_zero {z : Bin64} (hz : isFinite z = true) (h0 : val z = 0) :
    add 0x3FF0000000000000 z = 0x3FF0000000000000 := by
  obtain ⟨_, hadd⟩ := (rounds_add (x := 0x3FF0000000000000) rfl hz).exact (b := 0x3FF0000000000000) rfl (by rw [h0, add_zero])
  exact eq_of_val_eq hadd (by rw [val_one]; exact one_pos)

end B64

/-! ### The neutral seeding of CONFIG (R99) -/

/-- With no increment and neutral parameters both flats are empty: `mid`, `dlen` and `ulen` are 1 (R117). -/
theorem geometry_neutral {r : Regs Bin64} (hf : isFinite r.minSweep = true) (h0 : 0 < val r.minSweep) :
    geometry build r 0 0x3FF0000000000000 0x3FF0000000000000 =
      { msf := 0, mid := 0x3FF0000000000000, dlen := 0x3FF0000000000000, ulen := 0x3FF0000000000000 } := by
  have hmsf : build.mul 0 r.minSweep = 0 := (mul_zero_eq hf h0).2
  have hmid : clamp B64.sys 0x3FF0000000000000 0 (B64.sub 0x4000000000000000 0) = 0x3FF0000000000000 := by
    decide +kernel
  have hdlen : nmax B64.sys (B64.mul 0x3FF0000000000000 0x3FF0000000000000) 0 = 0x3FF0000000000000 := by
    decide +kernel
  have hulen : nmax B64.sys (B64.mul 0x3FF0000000000000 (B64.sub 0x4000000000000000 0x3FF0000000000000)) 0 =
      0x3FF0000000000000 := by decide +kernel
  simp only [geometry, hmsf]
  simp only [build_toNumSys, sys_two, sys_sub, sys_mul, hmid, hdlen, hulen]

/-- Over that geometry the inversion puts both clocks at the target, bit for bit (R99, R169). -/
theorem seedAt_neutral {p : Bin64} (hp : Within 0 2 p) (r : Regs Bin64) :
    seedAt build p { msf := 0, mid := 0x3FF0000000000000, dlen := 0x3FF0000000000000, ulen := 0x3FF0000000000000 } r =
      { r with warpedPhase := p, phase := p } := by
  have hone := mul_one_eq hp.1
  by_cases hlt : val p < 1
  · have hlt' : B64.lt p 0x3FF0000000000000 = true := (lt_iff hp.1 rfl).2 (by rwa [val_one])
    rw [seedAt_of_lt_one _ _ hlt']
    exact congrArg (fun x => { r with warpedPhase := p, phase := x }) hone
  have hge := not_lt.1 hlt
  have hlt' : B64.lt p 0x3FF0000000000000 = false := (lt_eq_false hp.1 rfl).2 (by rwa [val_one])
  rcases hge.eq_or_lt with heq | hgt
  · obtain rfl : p = 0x3FF0000000000000 := eq_of_val_eq (by rw [← heq, val_one]) (by rw [val_one]; exact one_pos)
    rw [seedAt_of_eq_one _ _ hlt' (by decide +kernel)]
    rfl
  have heq' : B64.eq p 0x3FF0000000000000 = false := (eq_eq_false hp.1 rfl).2 (by rw [val_one]; exact hgt.ne')
  rcases hp.2.2.eq_or_lt with heq | hlt2
  · obtain rfl : p = 0x4000000000000000 := eq_of_val_eq (by rw [heq, val_two]) (by rw [val_two]; exact two_pos)
    have hsum : build.add 0x3FF0000000000000 0x3FF0000000000000 = 0x4000000000000000 := by decide +kernel
    rw [seedAt_of_last _ _ hlt' heq' (by decide +kernel)]
    dsimp only
    rw [hsum]
    rfl
  · have hlt2' : B64.lt p 0x4000000000000000 = true := (lt_iff hp.1 rfl).2 (by rwa [val_two])
    obtain ⟨hsub, hsum⟩ := one_add_sub_one hp.1 hgt hlt2
    rw [seedAt_of_lt_two _ _ hlt' heq' hlt2']
    have hphase : B64.add 0x3FF0000000000000 (B64.mul (B64.sub p 0x3FF0000000000000) 0x3FF0000000000000) = p := by
      rw [mul_one_eq hsub, hsum]
    exact congrArg (fun x => { r with warpedPhase := p, phase := x }) hphase

/-- `seed(ph, 0, 0, 0)` puts both clocks at the target, on the fast path too (R99, R167). -/
theorem seed_neutral {r : Regs Bin64} (hc : ConstantsAgree build r) (ph : Bin64) :
    seed build ph 0 0 0 r = { r with warpedPhase := seedTarget build ph, phase := seedTarget build ph } := by
  obtain ⟨M, S, hv⟩ := constantValues hc
  have hfreq : freqOperand build r 0 = 0 :=
    clamp_eq_self B64.sys (by decide) ((le_iff (x := 0) rfl hv.freqMax.1).2 (by rw [val_zero]; exact hv.freqMax.2.1))
  cases hpath : onFastPath build r (freqOperand build r 0) with
  | true => exact seed_of_onFastPath hpath ph 0 0
  | false =>
    have hinc : phaseIncrement build r 0 = 0 := (mul_zero_eq hv.phaseIncPerHz.1 hv.phaseIncPerHz.2.1).1
    have hclip : clipInternal build 0 = 0x3FF0000000000000 := by decide +kernel
    have hskew : skewInternal build r 0 = 0x3FF0000000000000 := by
      rw [skewInternal_build]; decide +kernel
    have hms : 0 < val r.minSweep := by rw [hv.minSweep.2]; linarith [hv.four_le]
    have hseed : seed build ph 0 0 0 r = seedAt build (seedTarget build ph)
        (geometry build r (phaseIncrement build r (freqOperand build r 0)) (clipInternal build 0)
          (skewInternal build r 0)) r := by
      simp only [seed, hpath, Bool.false_eq_true, if_false]
    rw [hseed, hfreq, hinc, hclip, hskew, geometry_neutral hv.minSweep.1 hms, seedAt_neutral (seedTarget_val ph)]

/-- Settles O23. -/
theorem configSeedsBothClocksAtTarget : Obligations.ConfigSeedsBothClocksAtTarget := by
  intro s s' ms sr ph hlegal hexec
  rw [exec_config_legal hlegal] at hexec
  obtain rfl := Host.Outcome.next.inj hexec
  have hseed : configure build ms sr ph s.regs =
      { constants build ms sr s.regs with warpedPhase := seedTarget build ph, phase := seedTarget build ph } :=
    seed_neutral (constants_agree hlegal ms s.regs) ph
  simp only [responded, hseed]
  exact ⟨rfl, rfl⟩

/-! ### A STEP after a SETPHASE (R172) -/

section Seeded

variable {s s' : State} {freq clip skew a b : Bin64}

/-- What a STEP emits that finds the clocks at `a` and `b`, on the normal path. -/
theorem rspValue_step_normal (hready : Ready s) (hnormal : Normal s freq) {e : Emitted Bin64}
    (he : normalPath build (plainInc s freq) (plainGeometry s freq clip skew)
      { s.regs with warpedPhase := b, phase := a } = e)
    (hexec : exec (.step freq clip skew false) (responded s { s.regs with warpedPhase := b, phase := a } 0) = .next s') :
    rspValue s'.rspFrame = e.sample := by
  have hready' : Ready (responded s { s.regs with warpedPhase := b, phase := a } 0) := hready
  have hnormal' : Normal (responded s { s.regs with warpedPhase := b, phase := a } 0) freq := hnormal
  rw [exec_step_ready hready', advance_normal hnormal'] at hexec
  obtain rfl := Host.Outcome.next.inj hexec
  exact (rspValue_rspFrameOf ..).trans (congrArg Emitted.sample he)

/-- And on the fast path. -/
theorem rspValue_step_fast (hready : Ready s) (hfast : B64.le s.regs.maxSweepFreq (plainFreq s freq) = true)
    (hexec : exec (.step freq clip skew false) (responded s { s.regs with warpedPhase := b, phase := a } 0) = .next s') :
    rspValue s'.rspFrame = cosPi build b := by
  have hready' : Ready (responded s { s.regs with warpedPhase := b, phase := a } 0) := hready
  have hpath : onFastPath build { s.regs with warpedPhase := b, phase := a } (plainFreq s freq) = true := hfast
  rw [exec_step_ready hready'] at hexec
  obtain rfl := Host.Outcome.next.inj hexec
  refine (rspValue_rspFrameOf ..).trans ?_
  exact congrArg Emitted.sample (pathOf_fast hpath)

end Seeded

/-- The geometry of a STEP without a sync below `max_sweep_freq`, by its values (R117). -/
theorem plainGeometry_values {s : State} {freq : Bin64} (hc : ConstantsAgree build s.regs) (hnormal : Normal s freq)
    (clip skew : Bin64) : GeometryValues (plainInc s freq) (plainGeometry s freq clip skew) := by
  obtain ⟨M, S, hv⟩ := constantValues hc
  have hf := freqOperand_val hv freq
  have hlt := (le_eq_false hv.maxSweepFreq.1 hf.1).1 hnormal
  obtain ⟨hi, hiM⟩ := increment_normal hv hf.1 hf.2.1 hlt.le
  exact geometryValues hv.minSweep.1 hv.minSweep.2 hv.four_le hi hiM (clipInternal_val clip)
    (skewInternal_val s.regs skew)

/-- Where flat-low is empty, the sweep-up is entered at 1: nothing is carried (R123). -/
theorem entry_of_empty_flatLow {inc : Bin64} {g : Geometry Bin64} (hg : GeometryValues inc g)
    (h : B64.eq g.dlen g.mid = true) :
    B64.add 0x3FF0000000000000 (wdiv B64.sys (nmin B64.sys (B64.sub g.dlen g.mid) inc) g.ulen) = 0x3FF0000000000000 := by
  have hval := (eq_iff hg.dlen.1 hg.mid.1).1 h
  have hsub := rounds_sub hg.dlen.1 hg.mid.1
  rw [hval, sub_self] at hsub
  obtain ⟨hsubf, hsub0⟩ := hsub.eq_zero
  obtain ⟨hminf, hmin⟩ := nmin_val hsubf hg.inc_range.1
  rw [hsub0, min_eq_left hg.inc_range.2.1] at hmin
  rcases wdiv_cases B64.sys (nmin B64.sys (B64.sub g.dlen g.mid) inc) g.ulen with ⟨hw, _⟩ | ⟨hw, hne⟩ <;> rw [hw]
  · exact one_add_zero rfl val_zero
  · have hu0 := (eq_eq_false hg.ulen.1 rfl).1 hne
    rw [sys_zero, val_zero] at hu0
    have hdiv := rounds_div hminf hg.ulen.1 hu0
    rw [hmin, zero_div] at hdiv
    exact one_add_zero hdiv.eq_zero.1 hdiv.eq_zero.2

/-- Settles O30. Each line of the inversion puts the clocks into the segment whose sample is claimed. -/
theorem seedThenStepEmitsTheTarget : Obligations.SeedThenStepEmitsTheTarget := by
  rintro s s1 s2 freq clip skew ph p g hready hp hg hset hstep
  refine ⟨fun hfast => ?fast, fun hnormal => ?normal⟩
  case fast =>
    rw [setphaseOnFastPath s freq clip skew ph hready.1 hfast, ← hp] at hset
    obtain rfl := Host.Outcome.next.inj hset
    exact rspValue_step_fast hready hfast hstep
  case normal =>
    rw [exec_setphase_normal hready.1 hnormal, ← hp, ← hg] at hset
    obtain rfl := Host.Outcome.next.inj hset
    have hone : build.lt build.one build.one = false := by decide
    have hone' : build.eq build.one build.one = true := by decide
    refine ⟨fun hlt => ?sweepDown, fun heq hflat => ?flatLow, fun heq hempty hc => ?emptyFlat,
      fun hgt hlt => ?sweepUp, fun heq => ?flatHigh⟩
    case sweepDown =>
      rw [seedAt_of_lt_one _ _ hlt] at hstep
      exact rspValue_step_normal hready hnormal (normalPath_of_sweepDown hlt) hstep
    case flatLow =>
      rw [seedAt_of_eq_one _ _ (B64.lt_eq_false_of_le (B64.ge_of_eq_true heq)) heq] at hstep
      rw [hg] at hflat hstep
      exact rspValue_step_normal (a := (plainGeometry s freq clip skew).dlen) (b := build.one) hready hnormal
        (normalPath_of_flatLow hone hone' hflat) hstep
    case emptyFlat =>
      rw [seedAt_of_eq_one _ _ (B64.lt_eq_false_of_le (B64.ge_of_eq_true heq)) heq] at hstep
      rw [hg] at hempty hstep
      have hnot : B64.lt (plainGeometry s freq clip skew).dlen (plainGeometry s freq clip skew).mid = false :=
        B64.lt_eq_false_of_le (B64.ge_of_eq_true hempty)
      refine (rspValue_step_normal (a := (plainGeometry s freq clip skew).dlen) (b := build.one) hready hnormal
        (normalPath_of_sweepUp hone (fun _ => hnot) (by change build.lt build.one build.two = true; decide))
        hstep).trans ?_
      refine congrArg (cosPi build) ?_
      rcases sweepUpEntry_cases build (plainInc s freq) (plainGeometry s freq clip skew)
        { s.regs with warpedPhase := build.one, phase := (plainGeometry s freq clip skew).dlen } with ⟨he, _⟩ | ⟨_, he⟩
      · exact absurd (he.symm.trans hone') Bool.false_ne_true
      · exact he.trans (entry_of_empty_flatLow (plainGeometry_values hc hnormal clip skew) hempty)
    case sweepUp =>
      have hne := B64.eq_eq_false_of_lt hgt
      rw [seedAt_of_lt_two _ _ (B64.lt_eq_false_of_lt hgt) hne hlt] at hstep
      refine (rspValue_step_normal hready hnormal
        (normalPath_of_sweepUp (B64.lt_eq_false_of_lt hgt) (fun h => absurd (hne.symm.trans h) Bool.false_ne_true) hlt)
        hstep).trans ?_
      refine congrArg (cosPi build) ?_
      rcases sweepUpEntry_cases build (plainInc s freq) (plainGeometry s freq clip skew)
        { s.regs with warpedPhase := p, phase := build.add g.mid (build.mul (build.sub p build.one) g.ulen) } with
        ⟨_, he⟩ | ⟨he, _⟩
      · exact he
      · exact absurd (hne.symm.trans he) Bool.false_ne_true
    case flatHigh =>
      obtain ⟨hlt, hne, hlt2⟩ := flatHigh_tests (B64.ge_of_eq_true heq)
      rw [seedAt_of_last _ _ hlt hne hlt2] at hstep
      have htwo1 : build.lt build.two build.one = false := by decide
      have htwo2 : build.eq build.two build.one = false := by decide
      have htwo3 : build.lt build.two build.two = false := by decide
      exact rspValue_step_normal (a := build.add g.mid g.ulen) (b := build.two) hready hnormal
        (normalPath_of_flatHigh htwo1 htwo2 htwo3) hstep

end Sys2Proof.Machine
end

section
/-! PROOFS, the through-zero extension of 44_through_zero.md: the sign test (R182, R186), the operands of the negative
region (R184, R185), the flip in exact arithmetic (R183), and O57 to O59. -/

namespace Sys2Proof.Machine

open Config Sys2Proof.Safety

variable {α : Type}

/-! ### The sign test in a STEP (R182, R186) -/

section SignTest

variable {B : Build α} {f : α} {r : Regs α}

/-- A STEP uses the registers after the sign test only. -/
theorem oscStep_of_signTest_eq {r' : Regs α} (h : signTest B f r' = signTest B f r) (c k : α) (t : Bool) :
    oscStep B f c k t r' = oscStep B f c k t r := by
  simp only [oscStep, h]

theorem signTest_of_same_sign (h : B.lt f B.zero = r.neg) : signTest B f r = r := by
  simp only [signTest, h, bne_self_eq_false, Bool.false_and, Bool.false_eq_true, if_false, ite_self]

theorem signTest_of_active (h : syncActive B r = true) : signTest B f r = r := by
  simp only [signTest, h, Bool.not_true, Bool.and_false, Bool.false_eq_true, if_false, ite_self]

theorem signTest_of_flip (htz : B.tz = true) (hsign : B.lt f B.zero ≠ r.neg) (hs : syncActive B r = false) :
    signTest B f r = { flip B r with neg := B.lt f B.zero } := by
  have htest : (B.lt f B.zero != r.neg && !syncActive B r) = true := by simp [hsign, hs]
  simp only [signTest, htz, htest, if_true]

/-- After the sign test a STEP writes no configuration register, `neg` among them. -/
theorem signTest_sameConfig_oscStep (B : Build α) (f c k : α) (t : Bool) (r : Regs α) :
    SameConfig (signTest B f r) (oscStep B f c k t r).regs :=
  SameConfig.trans' (SameConfig.trans' (arm_sameConfig ..) (rampAdvance_frame ..).1) (advance_sameConfig ..)

/-- With a sync active nothing is armed, trigger or not. -/
theorem arm_of_active (h : syncActive B r = true) (t : Bool) (x : α) : arm B t x r = r := by
  cases t with
  | false => exact arm_no_trigger ..
  | true => exact arm_of_syncActive h

end SignTest

/-! ### The two builds share their number system -/

theorem syncActive_throughZero_of_eq_zero {r : Regs Bin64} (h : B64.eq r.hardsyncPhase 0 = true) :
    syncActive throughZero r = false := syncActive_build_of_eq_zero h

theorem syncActive_throughZero_of_ne_zero {r : Regs Bin64} (h : B64.eq r.hardsyncPhase 0 = false) :
    syncActive throughZero r = true := syncActive_build_of_ne_zero h

theorem freqOperand_throughZero (r : Regs Bin64) (freq : Bin64) :
    freqOperand throughZero r freq = clamp B64.sys (B64.abs freq) 0 r.freqMax := rfl

theorem stepIn_configured {B : Build Bin64} {s : State} (h : s.regs.configured = true) (f c k : Bin64) (t : Bool) :
    stepIn B f c k t s =
      .next (responded s (oscStep B f c k t s.regs).regs
        (rspFrameOf .ok (oscStep B f c k t s.regs).syncOut (oscStep B f c k t s.regs).sample)) := by
  simp only [stepIn, h, if_true, complete_eq]

/-! ### A sign change (R182, R186) -/

/-- The registers after a flip that is not deferred. -/
def flipped (freq : Bin64) (r : Regs Bin64) : Regs Bin64 := { flip throughZero r with neg := B64.lt freq 0 }

/-- A second sign test finds nothing to do. -/
theorem signTest_flipped {freq : Bin64} {r : Regs Bin64} (hsign : B64.lt freq 0 ≠ r.neg)
    (hs : syncActive throughZero r = false) :
    signTest throughZero freq (flipped freq r) = flipped freq r ∧ signTest throughZero freq r = flipped freq r :=
  ⟨signTest_of_same_sign rfl, signTest_of_flip throughZero_tz hsign hs⟩

/-- Settles O58. -/
theorem signFlipMirrorsOrIsDeferred : Obligations.SignFlipMirrorsOrIsDeferred := by
  intro s freq clip skew t hconfigured hsign
  refine ⟨fun hzero => ?mirrors, ?deferred⟩
  case mirrors =>
    obtain ⟨hagain, hflip⟩ := signTest_flipped hsign (syncActive_throughZero_of_eq_zero hzero)
    have hflipped : (s.setRegs (flipped freq s.regs)).regs.configured = true := hconfigured
    have hsame := signTest_sameConfig_oscStep throughZero freq clip skew t s.regs
    rw [hflip] at hsame
    obtain ⟨_, _, _, _, _, _, _, _, _, hneg⟩ := hsame
    refine ⟨?_, _, stepIn_configured hconfigured freq clip skew t, hneg⟩
    rw [stepIn_configured hconfigured, ← flipped, stepIn_configured hflipped, responded_setRegs, State.setRegs_regs,
      oscStep_of_signTest_eq (hagain.trans hflip.symm)]
  case deferred =>
    rintro hzero f o rfl rfl
    have hactive := syncActive_throughZero_of_ne_zero hzero
    have hstep : oscStep throughZero freq clip skew t s.regs =
        advance throughZero (rampFreq throughZero (freqOperand throughZero s.regs freq) s.regs)
          (clipInternal throughZero clip) (skewInternal throughZero s.regs skew) (rampAdvance throughZero s.regs) := by
      simp only [oscStep, signTest_of_active hactive, arm_of_active hactive]
    rw [stepIn_configured hconfigured, hstep, freqOperand_throughZero]
    refine ⟨rfl, ?_⟩
    obtain ⟨_, _, _, _, _, _, _, _, _, hneg⟩ :=
      SameConfig.trans' (rampAdvance_frame throughZero s.regs).1 (advance_sameConfig throughZero
        (rampFreq throughZero (clamp B64.sys (B64.abs freq) 0 s.regs.freqMax) s.regs) (clipInternal throughZero clip)
        (skewInternal throughZero s.regs skew) (rampAdvance throughZero s.regs))
    exact hneg

/-- Settles O59. The sign is remembered, so the sign test does nothing, and there is no sync to arm or to ramp. -/
theorem negativeRegionUsesMagnitudeAndInvertedSkew : Obligations.NegativeRegionUsesMagnitudeAndInvertedSkew := by
  intro r freq clip skew hneg hfreq hzero
  have hs := syncActive_throughZero_of_eq_zero hzero
  have hsign : signTest throughZero freq r = r := signTest_of_same_sign (hfreq.trans hneg.symm)
  have hramp : ∀ f, rampFreq throughZero f r = f := fun f => by
    simp only [rampFreq, hs, Bool.false_eq_true, if_false]
  have hadvance : rampAdvance throughZero r = r := by
    simp only [rampAdvance, hs, Bool.false_eq_true, if_false]
  have hskew : skewInternal throughZero r skew = clamp B64.sys (B64.sub 0x4000000000000000 (B64.sub 0x3FF0000000000000
      (clamp B64.sys skew 0xBFF0000000000000 0x3FF0000000000000))) 0 0x4000000000000000 := by
    simp only [skewInternal, throughZero_tz, hneg, Bool.and_self, if_true]
    rfl
  simp only [oscStep, hsign, arm_no_trigger, hramp, hadvance, hskew, freqOperand_throughZero]
  rfl

/-! ### The flip in exact arithmetic (R183) -/

section Flip

variable {K : Type} [Field K] [LinearOrder K] [FloorRing K] {pi : K} {cs : K → K} {mx : K → K → K} {sy : K → K}

theorem reduceMod2_ideal (m : K) : reduceMod2 (idealBuild K pi cs mx sy) m = m - 2 * (⌊m / 2⌋ : K) := rfl

variable [IsStrictOrderedRing K]

/-- The reduction lands in `[0, 2)`. -/
theorem reduceMod2_range (m : K) :
    0 ≤ reduceMod2 (idealBuild K pi cs mx sy) m ∧ reduceMod2 (idealBuild K pi cs mx sy) m < 2 := by
  have hlo := Int.floor_le (m / 2)
  have hhi := Int.lt_floor_add_one (m / 2)
  rw [reduceMod2_ideal]
  constructor <;> linarith

/-- The reduction forgets whole multiples of 2. -/
theorem reduceMod2_add_two_mul {p : K} (h0 : 0 ≤ p) (h2 : p < 2) (n : ℤ) :
    reduceMod2 (idealBuild K pi cs mx sy) (p + 2 * n) = p := by
  have hfloor : ⌊(p + 2 * n) / 2⌋ = n := by
    rw [Int.floor_eq_iff]
    constructor <;> linarith
  rw [reduceMod2_ideal, hfloor]
  ring

/-- Settles O57. -/
theorem flipIsItsOwnInverse : Obligations.FlipIsItsOwnInverse := by
  intro K _ _ _ _ pi cs mx sy r h0 h2
  obtain ⟨hlo, hhi⟩ := reduceMod2_range (pi := pi) (cs := cs) (mx := mx) (sy := sy) (3 - r.phase)
  refine ⟨hlo, hhi, ?_⟩
  have hphase : reduceMod2 (idealBuild K pi cs mx sy) (3 - reduceMod2 (idealBuild K pi cs mx sy) (3 - r.phase)) =
      r.phase := by
    have hback : 3 - reduceMod2 (idealBuild K pi cs mx sy) (3 - r.phase) = r.phase + 2 * (⌊(3 - r.phase) / 2⌋ : ℤ) := by
      rw [reduceMod2_ideal]; ring
    rw [hback, reduceMod2_add_two_mul h0 h2]
  have hwarped : (2 : K) - (2 - r.warpedPhase) = r.warpedPhase := sub_sub_cancel ..
  calc flip (idealBuild K pi cs mx sy) (flip (idealBuild K pi cs mx sy) r)
      = { r with
          phase := reduceMod2 (idealBuild K pi cs mx sy) (3 - reduceMod2 (idealBuild K pi cs mx sy) (3 - r.phase))
          warpedPhase := 2 - (2 - r.warpedPhase) } := rfl
    _ = r := by rw [hphase, hwarped]

end Flip

end Sys2Proof.Machine
end

section
/-! PROOFS, exact arithmetic (00_scope.md R12): the operations over an ordered field, what the constants and the operands are
worth there (R34, R111), the geometry of a cycle (R117), the ramp (R152), and O50, O52, O55. -/

namespace Sys2Proof.Machine

open Config Sys2Proof.Safety

/-! ### Quotients by the length of a sweep (R117, R119) -/

section Sweep

variable {K : Type} [Field K] [LinearOrder K] [IsStrictOrderedRing K]

/-- What a sweep of length `len` makes of a stretch `x` of at most one increment (R119, R123): at most `1 / min_sweep`. -/
theorem div_sweep_le {m inc len x : K} (hm : 0 < m) (hlen : inc * m ≤ len) (h0 : 0 ≤ x) (hx : x ≤ inc) :
    0 ≤ x / len ∧ x / len ≤ 1 / m := by
  have hlen0 : 0 ≤ len := (mul_nonneg (h0.trans hx) hm.le).trans hlen
  refine ⟨div_nonneg h0 hlen0, ?_⟩
  rcases hlen0.eq_or_lt with hz | hpos
  · rw [← hz, div_zero]; exact (one_div_pos.2 hm).le
  · rw [div_le_div_iff₀ hpos hm, one_mul]
    exact (mul_le_mul_of_nonneg_right hx hm.le).trans hlen

/-- A sweep's advance covers one increment of its length. -/
theorem div_sweep_mul {m inc len : K} (hm : 0 < m) (hinc : 0 ≤ inc) (hlen : inc * m ≤ len) : inc / len * len = inc := by
  rcases eq_or_ne len 0 with hz | hne
  · have h0 : inc * m ≤ 0 := hz ▸ hlen
    have hinc0 : inc ≤ 0 := by
      by_contra h
      exact absurd (mul_pos (not_le.1 h) hm) h0.not_gt
    rw [hz, mul_zero]
    exact le_antisymm hinc hinc0
  · exact div_mul_cancel₀ inc hne

end Sweep

section Ideal

variable {K : Type} [Field K] [LinearOrder K] [FloorRing K] {pi : K} {cs : K → K} {mx : K → K → K} {sy : K → K}

/-! ### The operations of `idealBuild` -/

@[simp] theorem ideal_negOne : (idealBuild K pi cs mx sy).negOne = -1 := rfl
@[simp] theorem ideal_zero : (idealBuild K pi cs mx sy).zero = 0 := rfl
@[simp] theorem ideal_half : (idealBuild K pi cs mx sy).half = 1 / 2 := rfl
@[simp] theorem ideal_one : (idealBuild K pi cs mx sy).one = 1 := rfl
@[simp] theorem ideal_oneQuarter : (idealBuild K pi cs mx sy).oneQuarter = 5 / 4 := rfl
@[simp] theorem ideal_two : (idealBuild K pi cs mx sy).two = 2 := rfl
@[simp] theorem ideal_four : (idealBuild K pi cs mx sy).four = 4 := rfl
@[simp] theorem ideal_hundred : (idealBuild K pi cs mx sy).hundred = 100 := rfl
@[simp] theorem ideal_pi : (idealBuild K pi cs mx sy).pi = pi := rfl
@[simp] theorem ideal_add (x y : K) : (idealBuild K pi cs mx sy).add x y = x + y := rfl
@[simp] theorem ideal_sub (x y : K) : (idealBuild K pi cs mx sy).sub x y = x - y := rfl
@[simp] theorem ideal_mul (x y : K) : (idealBuild K pi cs mx sy).mul x y = x * y := rfl
@[simp] theorem ideal_div (x y : K) : (idealBuild K pi cs mx sy).div x y = x / y := rfl
@[simp] theorem ideal_lt (x y : K) : (idealBuild K pi cs mx sy).lt x y = decide (x < y) := rfl
@[simp] theorem ideal_le (x y : K) : (idealBuild K pi cs mx sy).le x y = decide (x ≤ y) := rfl
@[simp] theorem ideal_eq (x y : K) : (idealBuild K pi cs mx sy).eq x y = decide (x = y) := rfl
@[simp] theorem ideal_belowInf (x : K) : (idealBuild K pi cs mx sy).belowInf x = true := rfl
@[simp] theorem ideal_cos (x : K) : (idealBuild K pi cs mx sy).cos x = cs x := rfl
@[simp] theorem ideal_freqMax (x : K) : (idealBuild K pi cs mx sy).freqMax x = x / 2 := rfl
@[simp] theorem ideal_maxSyncFreq (x y : K) : (idealBuild K pi cs mx sy).maxSyncFreq x y = mx x y := rfl
@[simp] theorem ideal_syncPhaseInc (x : K) : (idealBuild K pi cs mx sy).syncPhaseInc x = sy x := rfl
@[simp] theorem ideal_tz : (idealBuild K pi cs mx sy).tz = false := rfl

/-! ### The numeric helpers (R13, R14, R17) -/

@[simp] theorem ideal_nmin (x y : K) : nmin (idealBuild K pi cs mx sy).toNumSys x y = min x y := by
  simp only [nmin, ideal_lt, decide_eq_true_eq]
  split
  · rename_i h; rw [min_eq_left h.le]
  · rename_i h; rw [min_eq_right (not_lt.1 h)]

@[simp] theorem ideal_nmax (x y : K) : nmax (idealBuild K pi cs mx sy).toNumSys x y = max x y := by
  simp only [nmax, ideal_lt, decide_eq_true_eq]
  split
  · rename_i h; rw [max_eq_left h.le]
  · rename_i h; rw [max_eq_right (not_lt.1 h)]

/-- The guard of `wdiv` is the field's own division by 0. -/
@[simp] theorem ideal_wdiv (x y : K) : wdiv (idealBuild K pi cs mx sy).toNumSys x y = x / y := by
  simp only [wdiv, ideal_eq, ideal_zero, ideal_div, decide_eq_true_eq]
  split
  · rename_i h; rw [h, div_zero]
  · rfl

theorem ideal_clamp {lo hi : K} (h : lo ≤ hi) (x : K) :
    clamp (idealBuild K pi cs mx sy).toNumSys x lo hi = max lo (min x hi) := by
  simp only [clamp, ideal_le, ideal_lt, Bool.and_eq_true, decide_eq_true_eq]
  split
  · rename_i hx; rw [min_eq_left hx.2, max_eq_right hx.1]
  · rename_i hx
    split
    · rename_i hlo; rw [min_eq_left (hlo.le.trans h), max_eq_left hlo.le]
    · rename_i hlo
      have hge : lo ≤ x := not_lt.1 hlo
      rw [min_eq_right (not_le.1 fun hle => hx ⟨hge, hle⟩).le, max_eq_right h]

theorem ideal_clamp_mem {lo hi : K} (h : lo ≤ hi) (x : K) :
    lo ≤ clamp (idealBuild K pi cs mx sy).toNumSys x lo hi ∧ clamp (idealBuild K pi cs mx sy).toNumSys x lo hi ≤ hi := by
  rw [ideal_clamp h]
  exact ⟨le_max_left .., max_le h (min_le_right ..)⟩

/-! ### The predicates of the model -/

@[simp] theorem ideal_syncActive {r : Regs K} :
    syncActive (idealBuild K pi cs mx sy) r = true ↔ r.hardsyncPhase ≠ 0 := by
  simp [syncActive]

@[simp] theorem ideal_onFastPath {r : Regs K} {f : K} :
    onFastPath (idealBuild K pi cs mx sy) r f = true ↔ r.maxSweepFreq ≤ f := by
  simp [onFastPath]

@[simp] theorem ideal_wrapDue {r : Regs K} :
    wrapDue (idealBuild K pi cs mx sy) r = true ↔ 2 ≤ r.warpedPhase ∧ 2 ≤ r.phase := by
  simp [wrapDue]

theorem ideal_shapeRange {r : Regs K} :
    ShapeRange (idealBuild K pi cs mx sy) r ↔ 0 ≤ r.warpedPhase ∧ r.warpedPhase ≤ 2 ∧ 0 ≤ r.phase := by
  simp [ShapeRange]

/-! ### The constants (R34) -/

/-- What the derived constants are worth in exact arithmetic (R91 to R95). -/
structure IdealConstants (r : Regs K) : Prop where
  four_le : 4 ≤ r.minSweep
  rate_pos : 0 < r.sampleRate
  maxWarpInc : r.maxWarpInc = 1 / r.minSweep
  phaseIncPerHz : r.phaseIncPerHz = 2 / r.sampleRate
  maxSweepFreq : r.maxSweepFreq = r.sampleRate / (2 * r.minSweep)
  freqMax : r.freqMax = r.sampleRate / 2

theorem idealConstants {r : Regs K} (h : ConstantsAgree (idealBuild K pi cs mx sy) r) : IdealConstants r := by
  obtain ⟨h4, _, hlegal, hwi, hpi, hswf, hfm, _⟩ := h
  simp only [sampleRateLegal, ideal_lt, ideal_zero, ideal_belowInf, Bool.and_true, decide_eq_true_eq] at hlegal
  exact ⟨of_decide_eq_true h4, hlegal, hwi, hpi, hswf, hfm⟩

/-- What the constants of the hard sync are worth (R96, R97). -/
structure IdealSync (pi : K) (r : Regs K) : Prop where
  maxSyncFreq_pos : 0 < r.maxSyncFreq
  increment_pos : 0 < r.syncPhaseIncrement
  increment_le : r.syncPhaseIncrement ≤ pi

theorem idealSync (hparams : IdealParams K pi cs mx sy) {r : Regs K}
    (h : ConstantsAgree (idealBuild K pi cs mx sy) r) : IdealSync pi r := by
  obtain ⟨_, _, _, _, _, _, _, hsyf, hspi⟩ := h
  obtain ⟨_, _, _, hmx, hsy⟩ := hparams
  refine ⟨?_, ?_, ?_⟩
  · rw [hsyf]; exact hmx ..
  · rw [hspi]; exact (hsy _).1
  · rw [hspi]; exact (hsy _).2

variable [IsStrictOrderedRing K]

section Constants

variable {r : Regs K} (hc : IdealConstants r)
include hc

theorem IdealConstants.minSweep_pos : 0 < r.minSweep := by linarith [hc.four_le]

theorem IdealConstants.maxWarpInc_range : 0 < r.maxWarpInc ∧ r.maxWarpInc ≤ 1 / 4 := by
  rw [hc.maxWarpInc]
  exact ⟨one_div_pos.2 hc.minSweep_pos, one_div_le_one_div_of_le (by norm_num) hc.four_le⟩

/-- The increment of a frequency that is not negative (R114). -/
theorem IdealConstants.increment_nonneg {f : K} (hf : 0 ≤ f) : 0 ≤ r.phaseIncPerHz * f := by
  rw [hc.phaseIncPerHz]
  exact mul_nonneg (div_pos two_pos hc.rate_pos).le hf

/-- The increment of the largest frequency is 1 (R95, R114). -/
theorem IdealConstants.increment_le_one {f : K} (hf : f ≤ r.freqMax) : r.phaseIncPerHz * f ≤ 1 := by
  rw [hc.freqMax] at hf
  rw [hc.phaseIncPerHz, div_mul_eq_mul_div, div_le_one hc.rate_pos]
  linarith

/-- Below `max_sweep_freq` a sweep of `min_sweep` samples takes less than half a cycle (R115, R117). -/
theorem IdealConstants.msf_lt_one {f : K} (hf : f < r.maxSweepFreq) : r.phaseIncPerHz * f * r.minSweep < 1 := by
  have hM := hc.minSweep_pos
  rw [hc.maxSweepFreq, lt_div_iff₀ (mul_pos two_pos hM)] at hf
  rw [hc.phaseIncPerHz, div_mul_eq_mul_div, div_mul_eq_mul_div, div_lt_one hc.rate_pos]
  linarith

theorem IdealConstants.freqMax_pos : 0 < r.freqMax := by
  rw [hc.freqMax]
  exact div_pos hc.rate_pos two_pos

theorem IdealConstants.maxSweepFreq_pos : 0 < r.maxSweepFreq := by
  rw [hc.maxSweepFreq]
  exact div_pos hc.rate_pos (mul_pos two_pos hc.minSweep_pos)

end Constants

/-! ### The operands (R111, R112) -/

theorem ideal_clipInternal_mem (x : K) :
    0 ≤ clipInternal (idealBuild K pi cs mx sy) x ∧ clipInternal (idealBuild K pi cs mx sy) x ≤ 1 := by
  obtain ⟨hlo, hhi⟩ := ideal_clamp_mem (pi := pi) (cs := cs) (mx := mx) (sy := sy) (zero_le_one (α := K)) x
  simp only [clipInternal, clipOperand, ideal_sub, ideal_one, ideal_zero]
  constructor <;> linarith

theorem ideal_freqOperand_mem {r : Regs K} (hc : IdealConstants r) (x : K) :
    0 ≤ freqOperand (idealBuild K pi cs mx sy) r x ∧ freqOperand (idealBuild K pi cs mx sy) r x ≤ r.freqMax :=
  ideal_clamp_mem hc.freqMax_pos.le _

theorem ideal_seedTarget_mem (x : K) :
    0 ≤ seedTarget (idealBuild K pi cs mx sy) x ∧ seedTarget (idealBuild K pi cs mx sy) x ≤ 2 := by
  unfold seedTarget
  split
  · rw [ideal_oneQuarter]
    constructor <;> norm_num
  · exact ideal_clamp_mem zero_le_two x

/-! ### The geometry of a cycle (R117) -/

/-- What the segments of a cycle keep: `m` is `min_sweep`, so that `inc * m` is the shortest sweep. -/
structure IdealGeometry (m inc : K) (g : Geometry K) : Prop where
  four_le : 4 ≤ m
  inc_nonneg : 0 ≤ inc
  msf : g.msf = inc * m
  msf_lt_one : inc * m < 1
  msf_le_mid : inc * m ≤ g.mid
  mid_le : g.mid ≤ 2 - inc * m
  msf_le_dlen : inc * m ≤ g.dlen
  dlen_le : g.dlen ≤ g.mid
  msf_le_ulen : inc * m ≤ g.ulen
  ulen_le : g.ulen ≤ 2 - g.mid

theorem ideal_geometry {r : Regs K} {inc ci si : K} (h4 : 4 ≤ r.minSweep) (hinc : 0 ≤ inc)
    (hmsf : inc * r.minSweep < 1) (hci : 0 ≤ ci ∧ ci ≤ 1) :
    IdealGeometry r.minSweep inc (geometry (idealBuild K pi cs mx sy) r inc ci si) := by
  obtain ⟨_, hci1⟩ := hci
  have hle : inc * r.minSweep ≤ 2 - inc * r.minSweep := by linarith
  obtain ⟨hlo, hhi⟩ := ideal_clamp_mem (pi := pi) (cs := cs) (mx := mx) (sy := sy) hle si
  have hm0 : 0 ≤ inc * r.minSweep := mul_nonneg hinc (by linarith)
  have hdown : ∀ x : K, 0 ≤ x → ci * x ≤ x := fun x hx => mul_le_of_le_one_left hx hci1
  simp only [geometry, ideal_mul, ideal_sub, ideal_two, ideal_nmax]
  exact
    { four_le := h4
      inc_nonneg := hinc
      msf := rfl
      msf_lt_one := hmsf
      msf_le_mid := hlo
      mid_le := hhi
      msf_le_dlen := le_max_right ..
      dlen_le := max_le (hdown _ (hm0.trans hlo)) hlo
      msf_le_ulen := le_max_right ..
      ulen_le := max_le (hdown _ (by linarith)) (by linarith) }

/-- The geometry of the normal path, with any operands (R112, R115). -/
theorem ideal_geometry_normal {r : Regs K} (hc : IdealConstants r) {f : K} (h0 : 0 ≤ f) (hf : f < r.maxSweepFreq)
    (clip si : K) :
    IdealGeometry r.minSweep (r.phaseIncPerHz * f) (geometry (idealBuild K pi cs mx sy) r (r.phaseIncPerHz * f)
      (clipInternal (idealBuild K pi cs mx sy) clip) si) :=
  ideal_geometry hc.four_le (hc.increment_nonneg h0) (hc.msf_lt_one hf) (ideal_clipInternal_mem clip)

/-! ### The ramp (R152) -/

theorem ideal_rampWeight_mem (hparams : IdealParams K pi cs mx sy) (r : Regs K) :
    0 ≤ rampWeight (idealBuild K pi cs mx sy) r ∧ rampWeight (idealBuild K pi cs mx sy) r ≤ 1 := by
  obtain ⟨_, _, hcos, _⟩ := hparams
  obtain ⟨hlo, hhi⟩ := hcos r.hardsyncPhase
  simp only [rampWeight, ideal_mul, ideal_half, ideal_sub, ideal_one, ideal_cos]
  constructor <;> linarith

/-! ### Seeding (R99, R169) -/

/-- The inversion leaves both clocks in range. -/
theorem ideal_seedAt_shapeRange {m inc p : K} {g : Geometry K} (hg : IdealGeometry m inc g) (hp : 0 ≤ p ∧ p ≤ 2)
    (r : Regs K) : ShapeRange (idealBuild K pi cs mx sy) (seedAt (idealBuild K pi cs mx sy) p g r) := by
  obtain ⟨h0, h2⟩ := hp
  have hm0 : 0 ≤ inc * m := mul_nonneg hg.inc_nonneg (by linarith [hg.four_le])
  have hd := hm0.trans hg.msf_le_dlen
  have hu := hm0.trans hg.msf_le_ulen
  have hmid := hm0.trans hg.msf_le_mid
  rw [ideal_shapeRange]
  simp only [seedAt, ideal_lt, ideal_eq, ideal_one, ideal_two, decide_eq_true_eq]
  split
  · exact ⟨h0, h2, mul_nonneg h0 hd⟩
  split
  · exact ⟨zero_le_one, one_le_two, hd⟩
  split
  · rename_i hlt _ _
    exact ⟨h0, h2, add_nonneg hmid (mul_nonneg (sub_nonneg.2 (not_lt.1 hlt)) hu)⟩
  · exact ⟨zero_le_two, le_rfl, add_nonneg hmid hu⟩

theorem ideal_seed_shapeRange {r : Regs K} (hc : IdealConstants r) (ph f c k : K) :
    ShapeRange (idealBuild K pi cs mx sy) (seed (idealBuild K pi cs mx sy) ph f c k r) := by
  have hp := ideal_seedTarget_mem (pi := pi) (cs := cs) (mx := mx) (sy := sy) ph
  obtain ⟨hf0, _⟩ := ideal_freqOperand_mem (pi := pi) (cs := cs) (mx := mx) (sy := sy) hc f
  unfold seed
  simp only
  split
  · rw [ideal_shapeRange]
    exact ⟨hp.1, hp.2, hp.1⟩
  · rename_i hpath
    rw [ideal_onFastPath, not_le] at hpath
    exact ideal_seedAt_shapeRange (ideal_geometry_normal hc hf0 hpath c _) hp r

end Ideal

/-! ### The statements -/

/-- Settles O52. -/
theorem segmentsAreInOrder : Obligations.SegmentsAreInOrder := by
  rintro K _ _ _ _ pi cs mx sy r f clip skew _ _ hagree h0 hf rfl rfl
  have hc := idealConstants hagree
  have hg := ideal_geometry_normal (pi := pi) (cs := cs) (mx := mx) (sy := sy) hc h0 hf clip
    (skewInternal (idealBuild K pi cs mx sy) r skew)
  rw [hg.msf]
  refine ⟨hg.msf_le_mid, hg.mid_le, hg.msf_le_dlen, hg.dlen_le, hg.msf_le_ulen, hg.ulen_le, fun hinc => ?_⟩
  have hpos := mul_pos hinc hc.minSweep_pos
  rw [hc.maxWarpInc]
  exact ⟨hpos.trans_le hg.msf_le_dlen, hpos.trans_le hg.msf_le_ulen,
    (div_sweep_le hc.minSweep_pos hg.msf_le_dlen hinc.le le_rfl).2,
    (div_sweep_le hc.minSweep_pos hg.msf_le_ulen hinc.le le_rfl).2⟩

/-- Settles O55: a weight in `[0, 1]` interpolates. -/
theorem rampInterpolates : Obligations.RampInterpolates := by
  intro K _ _ _ _ pi cs mx sy hparams r f
  obtain ⟨hk0, hk1⟩ := ideal_rampWeight_mem hparams r
  unfold rampFreq
  split
  · simp only [ideal_add, ideal_mul, ideal_sub]
    generalize rampWeight (idealBuild K pi cs mx sy) r = k at *
    constructor
    · rcases le_total f r.maxSyncFreq with h | h
      · rw [min_eq_left h]; nlinarith
      · rw [min_eq_right h]; nlinarith
    · rcases le_total f r.maxSyncFreq with h | h
      · rw [max_eq_right h]; nlinarith
      · rw [max_eq_left h]; nlinarith
  · exact ⟨min_le_left .., le_max_left ..⟩

/-- Settles O50: CONFIG writes the constants and clears the sync before it seeds, and seeding writes the clocks only. -/
theorem seedingKeepsClocksInRange : Obligations.SeedingKeepsClocksInRange := by
  intro K _ _ _ _ pi cs mx sy hparams
  refine ⟨fun r ms sr ph hlegal => ?config, fun r ph f c k h => ?setphase⟩
  case config =>
    obtain ⟨hpi, _⟩ := hparams
    obtain ⟨h4, h100⟩ := ideal_clamp_mem (pi := pi) (cs := cs) (mx := mx) (sy := sy)
      (show (4 : K) ≤ 100 by norm_num) ms
    have hagree : ConstantsAgree (idealBuild K pi cs mx sy) (constants (idealBuild K pi cs mx sy) ms sr r) :=
      ⟨decide_eq_true h4, decide_eq_true h100, hlegal, rfl, rfl, rfl, rfl, rfl, rfl⟩
    have hsync : SyncRange (idealBuild K pi cs mx sy) (constants (idealBuild K pi cs mx sy) ms sr r) :=
      ⟨decide_eq_true le_rfl, decide_eq_true hpi.le, .inl rfl, fun _ => rfl, fun _ => .inl rfl⟩
    have hframe := configure_sameButClocks (idealBuild K pi cs mx sy) ms sr ph r
    exact ⟨configure_configured .., constantsAgree_of_sameConfig hframe.1 hagree,
      syncRange_of_sameButClocks hframe hsync, ideal_seed_shapeRange (idealConstants hagree) ph _ _ _,
      fun _ => hframe.2.2⟩
  case setphase =>
    obtain ⟨hconfigured, hagree, hsync, _, hinc⟩ := h
    have hframe := seed_frame (idealBuild K pi cs mx sy) ph f c k r
    refine ⟨(configured_of_sameConfig hframe.1).trans hconfigured, constantsAgree_of_sameConfig hframe.1 hagree,
      syncRange_of_sameButClocks hframe hsync, ideal_seed_shapeRange (idealConstants hagree) ph f c k, ?_⟩
    rw [hframe.2.1, hframe.2.2]
    exact hinc

end Sys2Proof.Machine
end

section
/-! PROOFS, STEP in exact arithmetic (41_step_phase_shaping.md R137, R138; 42_hardsync.md R153, R154; 10_state.md R25):
what a STEP does to the two clocks before and at the wrap, the hard-sync registers, and O51, O60. -/

namespace Sys2Proof.Machine

open Config Sys2Proof.Safety

/-! ### The invariant by the values of the registers (R24, R137) -/

section SyncRegs

variable {K : Type} [Field K] [LinearOrder K] {pi : K}

/-- The ranges of `IdealInv`: no corner, since half of a positive increment is positive (R24). -/
structure IdealSyncRegs (pi : K) (r : Regs K) : Prop where
  phase_nonneg : 0 ≤ r.hardsyncPhase
  phase_le : r.hardsyncPhase ≤ pi
  increment : r.hardsyncIncrement = 0 ∨ r.hardsyncIncrement = r.syncPhaseIncrement
  held : r.hardsyncPhase = pi → r.hardsyncIncrement = 0
  idle : r.hardsyncPhase = 0 → r.hardsyncIncrement = 0

theorem idealSyncRegs_of_sameButClocks {r r' : Regs K} (h : SameButClocks r r') (hs : IdealSyncRegs pi r) :
    IdealSyncRegs pi r' := by
  obtain ⟨⟨_, _, _, _, _, _, hspi, _⟩, hphase, hinc⟩ := h
  obtain ⟨h1, h2, h3, h4, h5⟩ := hs
  rw [← hphase] at h1 h2 h4 h5
  rw [← hinc] at h3 h4 h5
  rw [← hspi] at h3
  exact ⟨h1, h2, h3, h4, h5⟩

end SyncRegs

section Ideal

variable {K : Type} [Field K] [LinearOrder K] [FloorRing K] {pi : K} {cs : K → K} {mx : K → K → K} {sy : K → K}

/-- The fast path makes the clocks equal and advances both (R116, R129). -/
theorem ideal_beforeWrap_fast {r : Regs K} {x : K} (clip si : K) (h : r.maxSweepFreq ≤ x) :
    beforeWrap (idealBuild K pi cs mx sy) x (clipInternal (idealBuild K pi cs mx sy) clip) si r =
      { r with
        phase := r.warpedPhase + r.phaseIncPerHz * x
        warpedPhase := r.warpedPhase + r.phaseIncPerHz * x } := by
  rw [beforeWrap, pathOf_fast (ideal_onFastPath.2 h)]
  rfl

theorem idealSyncRegs_iff {r : Regs K} :
    (SyncRange (idealBuild K pi cs mx sy) r ∧
      ((idealBuild K pi cs mx sy).eq r.hardsyncPhase (idealBuild K pi cs mx sy).zero = true →
        r.hardsyncIncrement = (idealBuild K pi cs mx sy).zero)) ↔ IdealSyncRegs pi r := by
  simp only [SyncRange, ideal_le, ideal_eq, ideal_zero, ideal_pi, decide_eq_true_eq]
  exact ⟨fun ⟨⟨h1, h2, h3, h4, _⟩, h5⟩ => ⟨h1, h2, h3, h4, h5⟩,
    fun ⟨h1, h2, h3, h4, h5⟩ => ⟨⟨h1, h2, h3, h4, fun h => .inl (h5 h)⟩, h5⟩⟩

/-- `IdealInv` by the values of the registers. -/
theorem idealInv_iff {r : Regs K} :
    IdealInv (idealBuild K pi cs mx sy) r ↔ r.configured = true ∧ ConstantsAgree (idealBuild K pi cs mx sy) r ∧
      ShapeRange (idealBuild K pi cs mx sy) r ∧ IdealSyncRegs pi r := by
  rw [← idealSyncRegs_iff (cs := cs) (mx := mx) (sy := sy), IdealInv]
  exact ⟨fun ⟨h1, h2, h3, h4, h5⟩ => ⟨h1, h2, h4, h3, h5⟩, fun ⟨h1, h2, h4, h3, h5⟩ => ⟨h1, h2, h3, h4, h5⟩⟩

theorem ideal_syncActive_of_idle {r : Regs K} (h : r.hardsyncPhase = 0) :
    syncActive (idealBuild K pi cs mx sy) r = false := by
  rw [← Bool.not_eq_true, ideal_syncActive, not_not]
  exact h

/-- What a STEP with no trigger starts from where no sync is active: the registers and the operand as they are. -/
theorem effFreq_of_idle {r : Regs K} (h : r.hardsyncPhase = 0) (f c k : K) :
    effFreq (idealBuild K pi cs mx sy) ⟨f, c, k, false⟩ r = freqOperand (idealBuild K pi cs mx sy) r f := by
  rw [effFreq_eq ideal_tz, arm_no_trigger]
  simp only [rampFreq, ideal_syncActive_of_idle h, Bool.false_eq_true, if_false]

/-- The end of a STEP keeps the hard-sync registers, or clears them at a wrap (R154). -/
theorem advance_idealSyncRegs {r : Regs K} (hpi : 0 < pi) (hs : IdealSyncRegs pi r) (x ci si : K) :
    IdealSyncRegs pi (advance (idealBuild K pi cs mx sy) x ci si r).regs := by
  cases ha : syncActive (idealBuild K pi cs mx sy) r with
  | false => exact idealSyncRegs_of_sameButClocks (advance_sameButClocks ha) hs
  | true =>
    cases hd : (advance (idealBuild K pi cs mx sy) x ci si r).syncOut with
    | false =>
      rw [advance_regs_of_not_due hd]
      exact idealSyncRegs_of_sameButClocks (beforeWrap_sameButClocks ..) hs
    | true =>
      rw [advance_regs_of_due_sync hd ha]
      exact ⟨le_rfl, hpi.le, .inl rfl, fun _ => rfl, fun _ => rfl⟩

variable [IsStrictOrderedRing K]

/-! ### A sweep (R119 to R121, R124 to R126) -/

section Sweep

variable {m inc : K} {r : Regs K}

/-- The cap of R119 does not bind. -/
theorem ideal_warpAdvance {len : K} (hm : 0 < m) (hcap : r.maxWarpInc = 1 / m) (hinc : 0 ≤ inc) (hlen : inc * m ≤ len)
    (w : K) : warpAdvance (idealBuild K pi cs mx sy) inc len r w = w + inc / len := by
  simp only [warpAdvance, ideal_add, ideal_nmin, ideal_wdiv]
  rw [hcap, min_eq_left (div_sweep_le hm hlen hinc le_rfl).2]

/-- The overshoot of a sweep, in phase-space units, is at most one increment. -/
theorem ideal_excess_range {len w0 b : K} (hm : 0 < m) (hinc : 0 ≤ inc) (hlen : inc * m ≤ len) (h0 : w0 ≤ b)
    (hpast : b < w0 + inc / len) :
    0 ≤ (w0 + inc / len - b) * len ∧ (w0 + inc / len - b) * len ≤ inc := by
  have hlen0 : 0 ≤ len := (mul_nonneg hinc hm.le).trans hlen
  refine ⟨mul_nonneg (by linarith) hlen0, ?_⟩
  calc (w0 + inc / len - b) * len ≤ inc / len * len := mul_le_mul_of_nonneg_right (by linarith) hlen0
    _ = inc := div_sweep_mul hm hinc hlen

/-- A sweep that has passed its boundary `b` is pinned there, or carried by at most one sample of the next sweep; it is
carried only past the whole flat. -/
theorem ideal_reconcile {b len e flat next w : K} (hm : 0 < m) (hx : (w - b) * len ≤ inc) (hflat : 0 ≤ flat)
    (hnext : inc * m ≤ next) {r' : Regs K}
    (hr : r' = reconcile (idealBuild K pi cs mx sy) inc b len e flat next w r) :
    b ≤ r'.warpedPhase ∧ r'.warpedPhase ≤ b + 1 / m ∧ (b < r'.warpedPhase → flat < (w - b) * len) ∧
      r'.phase = e + (w - b) * len - inc := by
  subst hr
  simp only [reconcile, ideal_sub, ideal_mul, ideal_add, ideal_le, ideal_wdiv, decide_eq_true_eq]
  split
  · have hpos := one_div_pos.2 hm
    exact ⟨le_rfl, by linarith, fun h => absurd h (lt_irrefl b), trivial⟩
  · rename_i hcarry
    have hcarry := not_le.1 hcarry
    obtain ⟨hlo, hhi⟩ := div_sweep_le hm hnext (sub_nonneg.2 hcarry.le) (show (w - b) * len - flat ≤ inc by linarith)
    exact ⟨by linarith, by linarith, fun _ => hcarry, trivial⟩

end Sweep

/-! ### Before the wrap, on the normal path (R118 to R129) -/

/-- What the segments and the phase advance make of the clocks, for `m` the `min_sweep`: the shape clock never goes back,
it passes 2 only with the linear clock, and while it stays within its sweep it moves by at most `1 / m` (twice that from
1, where the carry of R123 adds up to one sample). -/
structure NormalStep (m inc : K) (g : Geometry K) (r r' : Regs K) : Prop where
  wp_le : r.warpedPhase ≤ r'.warpedPhase
  phase_nonneg : 0 ≤ r'.phase
  phase_of_past : 2 < r'.warpedPhase → 2 ≤ r'.phase
  down : r.warpedPhase + 1 / m ≤ 1 → r'.warpedPhase ≤ r.warpedPhase + 1 / m
  up : 1 < r.warpedPhase → r.warpedPhase + 1 / m ≤ 2 → r'.warpedPhase ≤ r.warpedPhase + 1 / m
  entry : r.warpedPhase = 1 → r'.warpedPhase ≤ 1 + 2 / m
  entry_at_mid : r.warpedPhase = 1 → r.phase ≤ g.mid → r'.warpedPhase ≤ 1 + 1 / m

section NormalPath

variable {m inc : K} {g : Geometry K} {r : Regs K}

/-- A flat moves the linear clock only (R122, R128). -/
theorem normalStep_of_flat (hg : IdealGeometry m inc g) (hphase : 0 ≤ r.phase) (hwp : r.warpedPhase ≤ 2) :
    NormalStep m inc g r (advancePhase (idealBuild K pi cs mx sy) inc r) := by
  have hm : 0 < m := by linarith [hg.four_le]
  have h1 := one_div_pos.2 hm
  have h2 : 0 < 2 / m := div_pos two_pos hm
  exact
    { wp_le := le_rfl
      phase_nonneg := add_nonneg hphase hg.inc_nonneg
      phase_of_past := fun h => absurd hwp h.not_ge
      down := fun _ => (lt_add_of_pos_right _ h1).le
      up := fun _ _ => (lt_add_of_pos_right _ h1).le
      entry := fun h => h.le.trans (lt_add_of_pos_right _ h2).le
      entry_at_mid := fun h _ => h.le.trans (lt_add_of_pos_right _ h1).le }

/-- The sweep-down (R119 to R121). -/
theorem normalStep_of_sweepDown (hg : IdealGeometry m inc g) (hcap : r.maxWarpInc = 1 / m) (hphase : 0 ≤ r.phase)
    (hlt : r.warpedPhase < 1) :
    NormalStep m inc g r
      (advancePhase (idealBuild K pi cs mx sy) inc (sweepDown (idealBuild K pi cs mx sy) inc g r).regs) := by
  have hm : 0 < m := by linarith [hg.four_le]
  have hm4 : 1 / m ≤ 1 / 4 := one_div_le_one_div_of_le (by norm_num) hg.four_le
  have hinc := hg.inc_nonneg
  have hm0 : 0 ≤ inc * m := mul_nonneg hinc hm.le
  obtain ⟨ha0, ha1⟩ := div_sweep_le hm hg.msf_le_dlen hinc le_rfl
  have hw := ideal_warpAdvance (pi := pi) (cs := cs) (mx := mx) (sy := sy) hm hcap hinc hg.msf_le_dlen r.warpedPhase
  by_cases hpast : 1 < r.warpedPhase + inc / g.dlen
  · obtain ⟨hx0, hx1⟩ := ideal_excess_range hm hinc hg.msf_le_dlen hlt.le hpast
    rw [sweepDown_past hw.symm (decide_eq_true hpast)]
    obtain ⟨hlo, hhi, _, hp⟩ := ideal_reconcile (pi := pi) (cs := cs) (mx := mx) (sy := sy) (r := r) (e := g.dlen)
      hm hx1 (sub_nonneg.2 hg.dlen_le) hg.msf_le_ulen rfl
    have hd := hm0.trans hg.msf_le_dlen
    exact
      { wp_le := hlt.le.trans hlo
        phase_nonneg := by
          refine (add_nonneg hd hx0).trans_eq ?_
          exact (sub_add_cancel (g.dlen + (r.warpedPhase + inc / g.dlen - 1) * g.dlen) inc).symm.trans
            (congrArg (· + inc) hp.symm)
        phase_of_past := fun h => absurd (hhi.trans (by linarith)) h.not_ge
        down := fun h => absurd (by linarith : r.warpedPhase + inc / g.dlen ≤ 1) hpast.not_ge
        up := fun h => absurd h hlt.not_gt
        entry := fun h => absurd h hlt.ne
        entry_at_mid := fun h => absurd h hlt.ne }
  · have hin := not_lt.1 hpast
    rw [sweepDown_inside hw.symm (decide_eq_false hpast)]
    exact
      { wp_le := le_add_of_nonneg_right ha0
        phase_nonneg := add_nonneg hphase hinc
        phase_of_past := fun h => absurd (hin.trans one_le_two) h.not_ge
        down := fun _ => add_le_add_right ha1 _
        up := fun h => absurd h hlt.not_gt
        entry := fun h => absurd h hlt.ne
        entry_at_mid := fun h => absurd h hlt.ne }

/-- The sweep-up starts at the shape clock, or, at 1, at most one sample later (R123). -/
theorem ideal_sweepUpEntry (hg : IdealGeometry m inc g) (hge : r.warpedPhase = 1 → g.mid ≤ r.phase) {w0 : K}
    (hw0 : w0 = sweepUpEntry (idealBuild K pi cs mx sy) inc g r) :
    r.warpedPhase ≤ w0 ∧ (r.warpedPhase ≠ 1 → w0 = r.warpedPhase) ∧ (r.warpedPhase = 1 → w0 ≤ 1 + 1 / m) ∧
      (r.warpedPhase = 1 → r.phase ≤ g.mid → w0 = 1) := by
  subst hw0
  have hm : 0 < m := by linarith [hg.four_le]
  simp only [sweepUpEntry, ideal_eq, ideal_one, ideal_add, ideal_wdiv, ideal_nmin, ideal_sub, decide_eq_true_eq]
  split
  · rename_i hone
    obtain ⟨h0, h1⟩ := div_sweep_le hm hg.msf_le_ulen (le_min (sub_nonneg.2 (hge hone)) hg.inc_nonneg)
      (min_le_right (r.phase - g.mid) inc)
    refine ⟨by linarith, fun hne => absurd hone hne, fun _ => by linarith, fun _ hle => ?_⟩
    rw [le_antisymm hle (hge hone), sub_self, min_eq_left hg.inc_nonneg, zero_div, add_zero]
  · rename_i hne
    exact ⟨le_rfl, fun _ => rfl, fun h => absurd h hne, fun h => absurd h hne⟩

/-- The sweep-up (R123 to R126). -/
theorem normalStep_of_sweepUp (hg : IdealGeometry m inc g) (hcap : r.maxWarpInc = 1 / m) (hphase : 0 ≤ r.phase)
    (hge : 1 ≤ r.warpedPhase) (hlt : r.warpedPhase < 2) (hmid : r.warpedPhase = 1 → g.mid ≤ r.phase) :
    NormalStep m inc g r
      (advancePhase (idealBuild K pi cs mx sy) inc (sweepUp (idealBuild K pi cs mx sy) inc g r).regs) := by
  have hm : 0 < m := by linarith [hg.four_le]
  have hm4 : 1 / m ≤ 1 / 4 := one_div_le_one_div_of_le (by norm_num) hg.four_le
  have hm2 : 2 / m = 1 / m + 1 / m := by rw [← add_div]; norm_num
  have hinc := hg.inc_nonneg
  have hm0 : 0 ≤ inc * m := mul_nonneg hinc hm.le
  obtain ⟨ha0, ha1⟩ := div_sweep_le hm hg.msf_le_ulen hinc le_rfl
  obtain ⟨w0, hw0⟩ : ∃ w0, w0 = sweepUpEntry (idealBuild K pi cs mx sy) inc g r := ⟨_, rfl⟩
  obtain ⟨hle0, hother, hone, honemid⟩ := ideal_sweepUpEntry hg hmid hw0
  have hw0two : w0 ≤ 2 := by
    by_cases h : r.warpedPhase = 1
    · linarith [hone h]
    · rw [hother h]; exact hlt.le
  have hw := ideal_warpAdvance (pi := pi) (cs := cs) (mx := mx) (sy := sy) hm hcap hinc hg.msf_le_ulen w0
  by_cases hpast : 2 < w0 + inc / g.ulen
  · obtain ⟨hx0, hx1⟩ := ideal_excess_range hm hinc hg.msf_le_ulen hw0two hpast
    rw [sweepUp_past hw0 hw.symm (decide_eq_true hpast)]
    have hflat : 0 ≤ 2 - (g.mid + g.ulen) := by linarith [hg.ulen_le]
    obtain ⟨hlo, hhi, hcarry, hp⟩ := ideal_reconcile (pi := pi) (cs := cs) (mx := mx) (sy := sy) (r := r)
      (e := g.mid + g.ulen) hm hx1 hflat hg.msf_le_dlen rfl
    have hend : g.mid + g.ulen + (w0 + inc / g.ulen - 2) * g.ulen =
        (advancePhase (idealBuild K pi cs mx sy) inc (reconcile (idealBuild K pi cs mx sy) inc 2 g.ulen
          (g.mid + g.ulen) (2 - (g.mid + g.ulen)) g.dlen (w0 + inc / g.ulen) r)).phase :=
      (sub_add_cancel (g.mid + g.ulen + (w0 + inc / g.ulen - 2) * g.ulen) inc).symm.trans (congrArg (· + inc) hp.symm)
    exact
      { wp_le := hlt.le.trans hlo
        phase_nonneg := by
          refine (add_nonneg (add_nonneg ?_ ?_) hx0).trans_eq hend
          · exact hm0.trans hg.msf_le_mid
          · exact hm0.trans hg.msf_le_ulen
        phase_of_past := fun h => by
          refine le_of_le_of_eq ?_ hend
          linarith [hcarry h]
        down := fun h => absurd h (by linarith [one_div_pos.2 hm])
        up := fun h h2 => by
          rw [hother h.ne'] at hpast
          exact absurd hpast (by linarith)
        entry := fun h => absurd hpast (by linarith [hone h])
        entry_at_mid := fun h _ => absurd hpast (by linarith [hone h]) }
  · have hin := not_lt.1 hpast
    rw [sweepUp_inside hw0 hw.symm (decide_eq_false hpast)]
    exact
      { wp_le := hle0.trans (le_add_of_nonneg_right ha0)
        phase_nonneg := add_nonneg hphase hinc
        phase_of_past := fun h => absurd hin h.not_ge
        down := fun h => absurd h (by linarith [one_div_pos.2 hm])
        up := fun h _ => by
          rw [hother h.ne']
          exact add_le_add_right ha1 _
        entry := fun h => by
          rw [hm2, ← add_assoc]
          exact add_le_add (hone h) ha1
        entry_at_mid := fun h hle => by
          rw [honemid h hle]
          exact add_le_add_right ha1 _ }

/-- The normal path, whatever the segment. -/
theorem normalStep_normalPath (hg : IdealGeometry m inc g) (hcap : r.maxWarpInc = 1 / m) (hphase : 0 ≤ r.phase)
    (hwp : r.warpedPhase ≤ 2) :
    NormalStep m inc g r
      (advancePhase (idealBuild K pi cs mx sy) inc (normalPath (idealBuild K pi cs mx sy) inc g r).regs) := by
  rcases lt_or_ge r.warpedPhase 1 with hdown | hge
  · rw [normalPath_of_sweepDown (decide_eq_true hdown)]
    exact normalStep_of_sweepDown hg hcap hphase hdown
  have hge' : (idealBuild K pi cs mx sy).lt r.warpedPhase (idealBuild K pi cs mx sy).one = false :=
    decide_eq_false hge.not_gt
  by_cases hflat : r.warpedPhase = 1 ∧ r.phase < g.mid
  · rw [normalPath_of_flatLow hge' (decide_eq_true hflat.1) (decide_eq_true hflat.2)]
    exact normalStep_of_flat hg hphase hwp
  have hmid : r.warpedPhase = 1 → g.mid ≤ r.phase := fun h => not_lt.1 fun h' => hflat ⟨h, h'⟩
  rcases lt_or_ge r.warpedPhase 2 with hup | hhigh
  · rw [normalPath_of_sweepUp hge' (fun h => decide_eq_false (hmid (of_decide_eq_true h)).not_gt) (decide_eq_true hup)]
    exact normalStep_of_sweepUp hg hcap hphase hge hup hmid
  · have hne : r.warpedPhase ≠ 1 := (one_lt_two.trans_le hhigh).ne'
    rw [normalPath_of_flatHigh hge' (decide_eq_false hne) (decide_eq_false hhigh.not_gt)]
    exact normalStep_of_flat hg hphase hwp

end NormalPath

/-! ### Before the wrap, on either path -/

section BeforeWrap

variable {r : Regs K} {x : K} (clip si : K)

theorem normalStep_beforeWrap (hc : IdealConstants r) (hx : 0 ≤ x) (h : x < r.maxSweepFreq) (hphase : 0 ≤ r.phase)
    (hwp : r.warpedPhase ≤ 2) :
    NormalStep r.minSweep (r.phaseIncPerHz * x)
      (geometry (idealBuild K pi cs mx sy) r (r.phaseIncPerHz * x) (clipInternal (idealBuild K pi cs mx sy) clip) si) r
      (beforeWrap (idealBuild K pi cs mx sy) x (clipInternal (idealBuild K pi cs mx sy) clip) si r) := by
  have hpath : onFastPath (idealBuild K pi cs mx sy) r x = false := decide_eq_false h.not_ge
  rw [beforeWrap, pathOf_normal hpath]
  exact normalStep_normalPath (ideal_geometry_normal hc hx h clip si) hc.maxWarpInc hphase hwp

/-- On either path the shape clock does not go back, and it passes 2 only with the linear clock. -/
theorem ideal_beforeWrap (hc : IdealConstants r) (hx : 0 ≤ x) (hwp0 : 0 ≤ r.warpedPhase) (hwp : r.warpedPhase ≤ 2)
    (hphase : 0 ≤ r.phase) {r' : Regs K}
    (hr : r' = beforeWrap (idealBuild K pi cs mx sy) x (clipInternal (idealBuild K pi cs mx sy) clip) si r) :
    r.warpedPhase ≤ r'.warpedPhase ∧ 0 ≤ r'.phase ∧ (2 < r'.warpedPhase → 2 ≤ r'.phase) := by
  subst hr
  rcases le_or_gt r.maxSweepFreq x with h | h
  · have hinc := hc.increment_nonneg hx
    rw [ideal_beforeWrap_fast clip si h]
    exact ⟨le_add_of_nonneg_right hinc, add_nonneg hwp0 hinc, fun h => h.le⟩
  · have hstep := normalStep_beforeWrap (pi := pi) (cs := cs) (mx := mx) (sy := sy) clip si hc hx h hphase hwp
    exact ⟨hstep.wp_le, hstep.phase_nonneg, hstep.phase_of_past⟩

end BeforeWrap

/-! ### The end of a STEP (R130 to R133) -/

/-- The remainder of a wrap is at most one increment (R131). -/
theorem ideal_wrapRemainder_mem {inc p : K} (hinc : 0 ≤ inc) (hp : 2 ≤ p) :
    0 ≤ wrapRemainder (idealBuild K pi cs mx sy) inc p ∧ wrapRemainder (idealBuild K pi cs mx sy) inc p ≤ inc := by
  simp only [wrapRemainder, ideal_lt, ideal_sub, ideal_two, ideal_div, decide_eq_true_eq]
  split
  · constructor <;> linarith
  · constructor <;> linarith

section Advance

variable {r : Regs K} {x : K} {clip si : K} {o : Stepped K}

/-- The STEP that does not signal. -/
theorem ideal_advance_not_due (hc : IdealConstants r) (hx : 0 ≤ x)
    (hshape : ShapeRange (idealBuild K pi cs mx sy) r)
    (ho : o = advance (idealBuild K pi cs mx sy) x (clipInternal (idealBuild K pi cs mx sy) clip) si r)
    (hd : o.syncOut = false) :
    r.warpedPhase ≤ o.regs.warpedPhase ∧ ShapeRange (idealBuild K pi cs mx sy) o.regs := by
  subst ho
  obtain ⟨hwp0, hwp2, hphase⟩ := ideal_shapeRange.1 hshape
  obtain ⟨hle, hphase', hpast⟩ := ideal_beforeWrap (pi := pi) (cs := cs) (mx := mx) (sy := sy) clip si hc hx hwp0 hwp2
    hphase rfl
  have hnot := wrapDue_advance_of_not_due hd
  rw [← Bool.not_eq_true, ideal_wrapDue] at hnot
  rw [ideal_shapeRange]
  rw [advance_regs_of_not_due hd] at hnot ⊢
  exact ⟨hle, hwp0.trans hle, not_lt.1 fun h => hnot ⟨h.le, hpast h⟩, hphase'⟩

/-- The STEP that signals with no sync active: the remainder is at most one increment, and in the new sweep-down at most one
sample. -/
theorem ideal_advance_due (hc : IdealConstants r) (hx : 0 ≤ x)
    (ho : o = advance (idealBuild K pi cs mx sy) x (clipInternal (idealBuild K pi cs mx sy) clip) si r)
    (hd : o.syncOut = true) (hs : syncActive (idealBuild K pi cs mx sy) r = false) :
    0 ≤ o.regs.phase ∧ o.regs.phase ≤ r.phaseIncPerHz * x ∧
      (x < r.maxSweepFreq → 0 ≤ o.regs.warpedPhase ∧ o.regs.warpedPhase ≤ r.maxWarpInc) ∧
      (r.maxSweepFreq ≤ x → o.regs.warpedPhase = o.regs.phase) := by
  subst ho
  have hdue : wrapDue (idealBuild K pi cs mx sy)
      (beforeWrap (idealBuild K pi cs mx sy) x (clipInternal (idealBuild K pi cs mx sy) clip) si r) = true := hd
  obtain ⟨_, hphase⟩ := ideal_wrapDue.1 hdue
  obtain ⟨h0, h1⟩ := ideal_wrapRemainder_mem (pi := pi) (cs := cs) (mx := mx) (sy := sy) (hc.increment_nonneg hx) hphase
  refine ⟨?_, ?_, fun hnormal => ?_, fun hfast => (advance_clocks_eq_of_fast (ideal_onFastPath.2 hfast)).symm⟩
  · rw [advance_regs_of_due_plain hd hs]; exact h0
  · rw [advance_regs_of_due_plain hd hs]; exact h1
  · have hg := ideal_geometry_normal (pi := pi) (cs := cs) (mx := mx) (sy := sy) hc hx hnormal clip si
    have hpath : onFastPath (idealBuild K pi cs mx sy)
        (beforeWrap (idealBuild K pi cs mx sy) x (clipInternal (idealBuild K pi cs mx sy) clip) si r) x = false :=
      (onFastPath_of_sameConfig _ x (beforeWrap_sameButClocks ..).1).trans (decide_eq_false hnormal.not_ge)
    rw [advance_regs_of_due_plain hd hs, hc.maxWarpInc]
    simp only [wrapPlain, hpath, Bool.false_eq_true, if_false, ideal_wdiv]
    exact div_sweep_le hc.minSweep_pos hg.msf_le_dlen h0 h1

/-- Every STEP keeps the clocks in range: without a sync the frequency is at most `freq_max`, and a wrap with a sync leaves
both clocks at 0. -/
theorem ideal_advance_shapeRange (hc : IdealConstants r) (hx : 0 ≤ x)
    (hmax : syncActive (idealBuild K pi cs mx sy) r = false → x ≤ r.freqMax)
    (hshape : ShapeRange (idealBuild K pi cs mx sy) r)
    (ho : o = advance (idealBuild K pi cs mx sy) x (clipInternal (idealBuild K pi cs mx sy) clip) si r) :
    ShapeRange (idealBuild K pi cs mx sy) o.regs := by
  cases hd : o.syncOut with
  | false => exact (ideal_advance_not_due hc hx hshape ho hd).2
  | true =>
    cases hs : syncActive (idealBuild K pi cs mx sy) r with
    | true =>
      subst ho
      rw [advance_regs_of_due_sync hd hs, ideal_shapeRange]
      exact ⟨le_rfl, zero_le_two, le_rfl⟩
    | false =>
      obtain ⟨h0, h1, hnormal, hfast⟩ := ideal_advance_due hc hx ho hd hs
      have hle1 := h1.trans (hc.increment_le_one (hmax hs))
      rw [ideal_shapeRange]
      rcases le_or_gt r.maxSweepFreq x with h | h
      · rw [hfast h]
        exact ⟨h0, hle1.trans one_le_two, h0⟩
      · obtain ⟨hw0, hw1⟩ := hnormal h
        exact ⟨hw0, by linarith [hc.maxWarpInc_range.2], h0⟩

end Advance

/-! ### The hard-sync registers (R151 to R154) -/

section Sync

variable {r : Regs K}

/-- Arming starts the ramp strictly between its ends (R151). -/
theorem arm_idealSyncRegs (hy : IdealSync pi r) (hs : IdealSyncRegs pi r) (t : Bool) (x : K) :
    IdealSyncRegs pi (arm (idealBuild K pi cs mx sy) t x r) := by
  rcases arm_cases (idealBuild K pi cs mx sy) t x r with h | ⟨_, _, _, h⟩ | ⟨_, _, _, _, h⟩ <;> rw [h]
  · exact hs
  · exact ⟨hs.phase_nonneg, hs.phase_le, hs.increment, hs.held, hs.idle⟩
  · have hpos := half_pos hy.increment_pos
    have hlt : r.syncPhaseIncrement / 2 < pi := (half_lt_self hy.increment_pos).trans_le hy.increment_le
    exact ⟨hpos.le, hlt.le, .inr rfl, fun h => absurd h hlt.ne, fun h => absurd h hpos.ne'⟩

/-- The advance of the ramp keeps it between its ends, and a sync stays active (R153). -/
theorem rampAdvance_idealSyncRegs (hpi : 0 < pi) (hy : IdealSync pi r) (hs : IdealSyncRegs pi r) :
    IdealSyncRegs pi (rampAdvance (idealBuild K pi cs mx sy) r) ∧
      (r.hardsyncPhase ≠ 0 → (rampAdvance (idealBuild K pi cs mx sy) r).hardsyncPhase ≠ 0) := by
  rcases rampAdvance_cases (idealBuild K pi cs mx sy) r with ⟨_, h⟩ | ⟨_, _, h⟩ | ⟨ha, hle, h⟩ <;> rw [h]
  · exact ⟨hs, id⟩
  · exact ⟨⟨hpi.le, le_rfl, .inl rfl, fun _ => rfl, fun h => absurd h hpi.ne'⟩, fun _ => hpi.ne'⟩
  · have hpos : 0 < r.hardsyncPhase := lt_of_le_of_ne hs.phase_nonneg (ideal_syncActive.1 ha).symm
    have hinc : 0 ≤ r.hardsyncIncrement := hs.increment.elim (fun h => h.ge) fun h => h.symm ▸ hy.increment_pos.le
    have hlt : r.hardsyncPhase + r.hardsyncIncrement < pi := not_le.1 (of_decide_eq_false hle)
    have hne : 0 < r.hardsyncPhase + r.hardsyncIncrement := add_pos_of_pos_of_nonneg hpos hinc
    exact ⟨⟨hne.le, hlt.le, hs.increment, fun h => absurd h hlt.ne, fun h => absurd h hne.ne'⟩, fun _ => hne.ne'⟩

end Sync

/-! ### The registers and the frequency that a STEP starts from (R110, R113) -/

/-- What `advance` needs of the armed registers `r0` and the effective frequency `x` of a STEP from `r`. -/
structure IdealStart (B : Build K) (pi : K) (r r0 : Regs K) (x : K) : Prop where
  sameConfig : SameConfig r r0
  constants : IdealConstants r0
  sync : IdealSyncRegs pi r0
  shape : ShapeRange B r0
  warpedPhase : r0.warpedPhase = r.warpedPhase
  active : r.hardsyncPhase ≠ 0 → r0.hardsyncPhase ≠ 0
  freq_nonneg : 0 ≤ x
  freq_le : syncActive B r0 = false → x ≤ r0.freqMax

/-- The interpolated frequency is not negative (R152). -/
theorem ideal_rampFreq_nonneg (hparams : IdealParams K pi cs mx sy) {r : Regs K} (hy : IdealSync pi r) {x : K}
    (hx : 0 ≤ x) : 0 ≤ rampFreq (idealBuild K pi cs mx sy) x r :=
  (le_min hx hy.maxSyncFreq_pos.le).trans (rampInterpolates K pi cs mx sy hparams r x).1

theorem idealStart (hparams : IdealParams K pi cs mx sy) {r : Regs K} (h : IdealInv (idealBuild K pi cs mx sy) r)
    (f c k : K) (t : Bool) :
    IdealStart (idealBuild K pi cs mx sy) pi r (rampedRegs (idealBuild K pi cs mx sy) t f r)
      (effFreq (idealBuild K pi cs mx sy) ⟨f, c, k, t⟩ r) := by
  obtain ⟨_, hagree, hshape, hs⟩ := idealInv_iff.1 h
  have hsame := rampedRegs_sameConfig (idealBuild K pi cs mx sy) t f r
  have hc := idealConstants hagree
  obtain ⟨hf0, hf1⟩ := ideal_freqOperand_mem (pi := pi) (cs := cs) (mx := mx) (sy := sy) hc f
  rw [effFreq_eq ideal_tz]
  unfold rampedRegs at hsame ⊢
  have harmed : SameConfig r (arm (idealBuild K pi cs mx sy) t (freqOperand (idealBuild K pi cs mx sy) r f) r) :=
    arm_sameConfig ..
  have hy1 := idealSync hparams (constantsAgree_of_sameConfig harmed hagree)
  have hs1 := arm_idealSyncRegs (cs := cs) (mx := mx) (sy := sy) (idealSync hparams hagree) hs t
    (freqOperand (idealBuild K pi cs mx sy) r f)
  have hwp := rampedRegs_warpedPhase (idealBuild K pi cs mx sy) t f r
  have hphase : 0 ≤ (arm (idealBuild K pi cs mx sy) t (freqOperand (idealBuild K pi cs mx sy) r f) r).phase := by
    obtain ⟨_, _, hp⟩ := ideal_shapeRange.1 hshape
    rcases arm_cases (idealBuild K pi cs mx sy) t (freqOperand (idealBuild K pi cs mx sy) r f) r with
      h | ⟨_, _, _, h⟩ | ⟨_, _, _, _, h⟩ <;> rw [h]
    · exact hp
    · exact zero_le_two
    · exact hp
  have hactive : r.hardsyncPhase ≠ 0 →
      (arm (idealBuild K pi cs mx sy) t (freqOperand (idealBuild K pi cs mx sy) r f) r).hardsyncPhase ≠ 0 := fun hne => by
    rwa [arm_of_active (ideal_syncActive.2 hne)]
  have hmax := arm_freqMax (idealBuild K pi cs mx sy) (freqOperand (idealBuild K pi cs mx sy) r f) r t
  unfold rampedRegs at hwp
  generalize arm (idealBuild K pi cs mx sy) t (freqOperand (idealBuild K pi cs mx sy) r f) r = r1 at *
  obtain ⟨hs2, hactive2⟩ := rampAdvance_idealSyncRegs (cs := cs) (mx := mx) (sy := sy) hparams.1 hy1 hs1
  obtain ⟨hsame2, hphase2, _⟩ := rampAdvance_frame (idealBuild K pi cs mx sy) r1
  refine
    { sameConfig := hsame
      constants := idealConstants (constantsAgree_of_sameConfig hsame hagree)
      sync := hs2
      shape := ?shape
      warpedPhase := hwp
      active := fun hne => hactive2 (hactive hne)
      freq_nonneg := ideal_rampFreq_nonneg hparams hy1 hf0
      freq_le := fun hoff => ?freq_le }
  case shape =>
    obtain ⟨h0, h2, _⟩ := ideal_shapeRange.1 hshape
    rw [ideal_shapeRange, hwp, hphase2]
    exact ⟨h0, h2, hphase⟩
  case freq_le =>
    have hoff1 : syncActive (idealBuild K pi cs mx sy) r1 = false := by
      rw [← Bool.not_eq_true, ideal_syncActive] at hoff ⊢
      exact fun hne => hoff (hactive2 hne)
    obtain ⟨_, _, _, _, _, _, _, hmax2, _⟩ := hsame2
    simp only [rampFreq, hoff1, Bool.false_eq_true, if_false]
    rw [hmax2, hmax]
    exact hf1

end Ideal

/-! ### The statements -/

/-- Settles O51. The constants are not written; arming, ramp and wrap keep the hard-sync registers; and whatever the path
and the wrap, the clocks stay in range. -/
theorem stepKeepsClocksInRange : Obligations.StepKeepsClocksInRange := by
  intro K _ _ _ _ pi cs mx sy hparams r f c k t h
  have hstart := idealStart hparams h f c k t
  obtain ⟨hconfigured, hagree, _, _⟩ := idealInv_iff.1 h
  have hsame := oscStep_sameConfig (B := idealBuild K pi cs mx sy) ideal_tz f c k t r
  rw [idealInv_iff]
  refine ⟨(configured_of_sameConfig hsame).trans hconfigured, constantsAgree_of_sameConfig hsame hagree, ?_, ?_⟩
  · rw [oscStep_eq_advance ideal_tz]
    exact ideal_advance_shapeRange hstart.constants hstart.freq_nonneg hstart.freq_le hstart.shape rfl
  · rw [oscStep_eq_advance ideal_tz]
    exact advance_idealSyncRegs hparams.1 hstart.sync ..

/-- Settles O60. -/
theorem warpedPhaseFallsOnlyAtAWrap : Obligations.WarpedPhaseFallsOnlyAtAWrap := by
  rintro K _ _ _ _ pi cs mx sy hparams r f c k t o h rfl
  have hstart := idealStart hparams h f c k t
  obtain ⟨_, _, hwi, hpi, hmsf, _⟩ := hstart.sameConfig
  have hinc : (rampedRegs (idealBuild K pi cs mx sy) t f r).phaseIncPerHz *
      effFreq (idealBuild K pi cs mx sy) ⟨f, c, k, t⟩ r = effInc (idealBuild K pi cs mx sy) ⟨f, c, k, t⟩ r := by
    rw [hpi]; rfl
  have hinc0 := hinc ▸ hstart.constants.increment_nonneg hstart.freq_nonneg
  have hfast : onFastPath (idealBuild K pi cs mx sy) r (effFreq (idealBuild K pi cs mx sy) ⟨f, c, k, t⟩ r) = true ↔
      (rampedRegs (idealBuild K pi cs mx sy) t f r).maxSweepFreq ≤
        effFreq (idealBuild K pi cs mx sy) ⟨f, c, k, t⟩ r := by
    rw [ideal_onFastPath, hmsf]
  rw [oscStep_eq_advance ideal_tz]
  refine ⟨fun hd => ?notDue, fun hd => ?due⟩
  case notDue =>
    rw [← hstart.warpedPhase]
    exact (ideal_advance_not_due hstart.constants hstart.freq_nonneg hstart.shape rfl hd).1
  case due =>
    cases hs : syncActive (idealBuild K pi cs mx sy) (rampedRegs (idealBuild K pi cs mx sy) t f r) with
    | true =>
      rw [advance_regs_of_due_sync hd hs]
      have hwi0 : 0 ≤ r.maxWarpInc := by
        rw [← hwi]; exact hstart.constants.maxWarpInc_range.1.le
      exact ⟨le_rfl, hinc0, fun _ => ⟨le_rfl, hwi0⟩, fun _ => rfl, fun _ => ⟨rfl, rfl⟩⟩
    | false =>
      obtain ⟨h0, h1, hnormal, heq⟩ := ideal_advance_due hstart.constants hstart.freq_nonneg rfl hd hs
      refine ⟨h0, h1.trans_eq hinc, fun hpath => ?_, fun hpath => heq (hfast.1 hpath), fun hne => ?_⟩
      · rw [← hwi]
        exact hnormal (not_le.1 fun hle => Bool.false_ne_true (hpath.symm.trans (hfast.2 hle)))
      · exact absurd (ideal_syncActive.2 (hstart.active hne)) (Bool.eq_false_iff.1 hs)

end Sys2Proof.Machine
end

section
/-! PROOFS, runs and rest in exact arithmetic (41_step_phase_shaping.md R136, R138; 42_hardsync.md R151): a STEP at frequency
0, a trigger on the terminal flat, runs of STEPs on the normal path, and O53, O54, O56. -/

namespace Sys2Proof.Machine

open Config Sys2Proof.Safety

section Ideal

variable {K : Type} [Field K] [LinearOrder K] [FloorRing K] {pi : K} {cs : K → K} {mx : K → K → K} {sy : K → K}

/-! ### A trigger on the terminal flat (R151) -/

/-- The snap of `phase` to 2 is all that arming does on the terminal flat. -/
theorem ideal_rampedRegs_terminal {r : Regs K} (hs : r.hardsyncPhase = 0) (hwp : r.warpedPhase = 2) (f : K) :
    rampedRegs (idealBuild K pi cs mx sy) true f r = { r with phase := 2 } := by
  have hoff := ideal_syncActive_of_idle (pi := pi) (cs := cs) (mx := mx) (sy := sy) hs
  have hoff' : syncActive (idealBuild K pi cs mx sy) { r with phase := 2 } = false := hoff
  rw [rampedRegs, arm_of_warpedPhase_eq_two hoff (decide_eq_true hwp), ideal_two]
  simp only [rampAdvance, hoff', Bool.false_eq_true, if_false]

theorem ideal_effFreq_terminal {r : Regs K} (hs : r.hardsyncPhase = 0) (hwp : r.warpedPhase = 2) (f c k : K) :
    effFreq (idealBuild K pi cs mx sy) ⟨f, c, k, true⟩ r = freqOperand (idealBuild K pi cs mx sy) r f := by
  have hoff := ideal_syncActive_of_idle (pi := pi) (cs := cs) (mx := mx) (sy := sy) hs
  have hoff' : syncActive (idealBuild K pi cs mx sy) { r with phase := 2 } = false := hoff
  rw [effFreq_eq ideal_tz, arm_of_warpedPhase_eq_two hoff (decide_eq_true hwp), ideal_two]
  simp only [rampFreq, hoff', Bool.false_eq_true, if_false]

variable [IsStrictOrderedRing K]

/-- From both clocks at 2 the linear clock passes 2 by one increment, on either path, and the wrap is due. -/
theorem ideal_beforeWrap_terminal {r : Regs K} (hc : IdealConstants r) {x : K} (hx : 0 ≤ x) (hwp : r.warpedPhase = 2)
    (hphase : r.phase = 2) (ci si : K) :
    (beforeWrap (idealBuild K pi cs mx sy) x ci si r).phase = 2 + r.phaseIncPerHz * x ∧
      wrapDue (idealBuild K pi cs mx sy) (beforeWrap (idealBuild K pi cs mx sy) x ci si r) = true := by
  have hinc := hc.increment_nonneg hx
  cases hpath : onFastPath (idealBuild K pi cs mx sy) r x with
  | true =>
    have hb : beforeWrap (idealBuild K pi cs mx sy) x ci si r =
        { r with phase := 2 + r.phaseIncPerHz * x, warpedPhase := 2 + r.phaseIncPerHz * x } := by
      rw [beforeWrap, pathOf_fast hpath, ← hwp]; rfl
    rw [hb, ideal_wrapDue]
    exact ⟨rfl, le_add_of_nonneg_right hinc, le_add_of_nonneg_right hinc⟩
  | false =>
    have hb : beforeWrap (idealBuild K pi cs mx sy) x ci si r = { r with phase := 2 + r.phaseIncPerHz * x } := by
      rw [beforeWrap, pathOf_normal hpath, normalPath_of_flatHigh, ← hphase]
      · rfl
      · exact decide_eq_false (hwp ▸ one_lt_two.not_gt)
      · exact decide_eq_false (hwp ▸ one_lt_two.ne')
      · exact decide_eq_false (hwp ▸ lt_irrefl _)
    rw [hb, ideal_wrapDue]
    exact ⟨rfl, hwp.ge, le_add_of_nonneg_right hinc⟩

/-! ### Frequency 0 (R138) -/

/-- With no increment no segment moves a clock. -/
theorem normalPath_regs_of_zero {g : Geometry K} {r : Regs K} (hcap : 0 ≤ r.maxWarpInc) :
    (normalPath (idealBuild K pi cs mx sy) 0 g r).regs = r := by
  have hadvance : ∀ len w, warpAdvance (idealBuild K pi cs mx sy) 0 len r w = w := fun len w => by
    simp only [warpAdvance, ideal_add, ideal_nmin, ideal_wdiv, zero_div, min_eq_left hcap, add_zero]
  rcases lt_or_ge r.warpedPhase 1 with hdown | hge
  · rw [normalPath_of_sweepDown (decide_eq_true hdown),
      sweepDown_inside (hadvance ..).symm (decide_eq_false hdown.not_gt)]
  have hge' : (idealBuild K pi cs mx sy).lt r.warpedPhase (idealBuild K pi cs mx sy).one = false :=
    decide_eq_false hge.not_gt
  by_cases hflat : r.warpedPhase = 1 ∧ r.phase < g.mid
  · rw [normalPath_of_flatLow hge' (decide_eq_true hflat.1) (decide_eq_true hflat.2)]
  have hmid : r.warpedPhase = 1 → g.mid ≤ r.phase := fun h => not_lt.1 fun h' => hflat ⟨h, h'⟩
  by_cases hup : r.warpedPhase < 2
  · have hentry : sweepUpEntry (idealBuild K pi cs mx sy) 0 g r = r.warpedPhase := by
      rcases sweepUpEntry_cases (idealBuild K pi cs mx sy) 0 g r with ⟨_, he⟩ | ⟨hone, he⟩
      · exact he
      · have hone' : r.warpedPhase = 1 := of_decide_eq_true hone
        rw [he, hone', ideal_wdiv, ideal_nmin, ideal_sub, min_eq_right, zero_div, ideal_add, ideal_one, add_zero]
        rw [← sub_self g.mid]
        exact sub_le_sub_right (hmid hone') _
    rw [normalPath_of_sweepUp hge' (fun h => decide_eq_false (hmid (of_decide_eq_true h)).not_gt) (decide_eq_true hup),
      sweepUp_inside hentry.symm (hadvance ..).symm (decide_eq_false hup.not_gt)]
  · by_cases hone : r.warpedPhase = 1
    · exact absurd (hone.trans_lt one_lt_two) hup
    · rw [normalPath_of_flatHigh hge' (decide_eq_false hone) (decide_eq_false hup)]

/-- At frequency 0 a STEP reaches its wrap check with the registers it found. -/
theorem ideal_beforeWrap_of_zero {r : Regs K} (hc : IdealConstants r) (ci si : K) :
    beforeWrap (idealBuild K pi cs mx sy) 0 ci si r = r := by
  have hpath : onFastPath (idealBuild K pi cs mx sy) r 0 = false := decide_eq_false hc.maxSweepFreq_pos.not_ge
  have hinc : phaseIncrement (idealBuild K pi cs mx sy) r 0 = 0 := mul_zero r.phaseIncPerHz
  rw [beforeWrap, pathOf_normal hpath, hinc, normalPath_regs_of_zero hc.maxWarpInc_range.1.le]
  simp only [advancePhase, ideal_add, add_zero]

theorem ideal_freqOperand_of_nonpos {r : Regs K} (hc : IdealConstants r) {f : K} (hf : f ≤ 0) :
    freqOperand (idealBuild K pi cs mx sy) r f = 0 := by
  simp only [freqOperand, freqMagnitude, ideal_tz, Bool.false_eq_true, if_false, ideal_zero]
  rw [ideal_clamp hc.freqMax_pos.le, min_eq_left (hf.trans hc.freqMax_pos.le), max_eq_left hf]

/-! ### One STEP of a run on the normal path (R25, R136) -/

/-- One STEP on the normal path, past its wrap check: it keeps the invariant and `min_sweep`; it advances a sweep by at
most `1 / min_sweep` while that stays within it, and a wrap ends the sweep-up only where `1 / min_sweep` reaches its end. -/
structure RunStep (B : Build K) (o : StepOps K) (r r' : Regs K) : Prop where
  inv : IdealInv B r'
  minSweep : r'.minSweep = r.minSweep
  four_le : 4 ≤ r.minSweep
  down : r.warpedPhase + 1 / r.minSweep ≤ 1 → r'.warpedPhase ≤ r.warpedPhase + 1 / r.minSweep
  up : 1 < r.warpedPhase → r.warpedPhase + 1 / r.minSweep ≤ 2 → r'.warpedPhase ≤ r.warpedPhase + 1 / r.minSweep
  up_stays : 1 < r.warpedPhase → r.warpedPhase + 1 / r.minSweep < 2 → r.warpedPhase ≤ r'.warpedPhase
  entry : r.warpedPhase = 1 → 1 ≤ r'.warpedPhase ∧ r'.warpedPhase ≤ 1 + 2 / r.minSweep
  entry_at_mid : r.warpedPhase = 1 → r.phase ≤ (effGeometry B o r).mid → r'.warpedPhase ≤ 1 + 1 / r.minSweep

/-- The clocks of a STEP on the normal path, before its wrap check, from the registers the STEP finds. -/
theorem normalStep_stepRegs (hparams : IdealParams K pi cs mx sy) {r : Regs K}
    (h : IdealInv (idealBuild K pi cs mx sy) r) (o : StepOps K)
    (hnormal : onFastPath (idealBuild K pi cs mx sy) r (effFreq (idealBuild K pi cs mx sy) o r) = false) :
    ∃ (r0 r' : Regs K), r0.warpedPhase = r.warpedPhase ∧ (r.warpedPhase = 1 → r0.phase = r.phase) ∧
      NormalStep r.minSweep (effInc (idealBuild K pi cs mx sy) o r) (effGeometry (idealBuild K pi cs mx sy) o r) r0 r' ∧
      (r'.warpedPhase < 2 → stepRegs (idealBuild K pi cs mx sy) r o = r') := by
  obtain ⟨f, c, k, t⟩ := o
  have hstart := idealStart hparams h f c k t
  obtain ⟨hms, _, _, _, hmsf, _⟩ := hstart.sameConfig
  have hlt : effFreq (idealBuild K pi cs mx sy) ⟨f, c, k, t⟩ r <
      (rampedRegs (idealBuild K pi cs mx sy) t f r).maxSweepFreq := by
    rw [hmsf]
    exact not_le.1 (of_decide_eq_false hnormal)
  obtain ⟨_, hwp2, hphase⟩ := ideal_shapeRange.1 hstart.shape
  have hstep := normalStep_beforeWrap (pi := pi) (cs := cs) (mx := mx) (sy := sy) c
    (skewInternal (idealBuild K pi cs mx sy) r k) hstart.constants hstart.freq_nonneg hlt hphase hwp2
  have hinc := phaseIncrement_rampedRegs (B := idealBuild K pi cs mx sy) (r := r) t f c k
  have hgeometry := geometry_rampedRegs (B := idealBuild K pi cs mx sy) (r := r) t f ideal_tz c k
  rw [show (rampedRegs (idealBuild K pi cs mx sy) t f r).phaseIncPerHz *
    effFreq (idealBuild K pi cs mx sy) ⟨f, c, k, t⟩ r = effInc (idealBuild K pi cs mx sy) ⟨f, c, k, t⟩ r from hinc,
    hgeometry, hms] at hstep
  refine ⟨_, _, hstart.warpedPhase, fun hone => ?_, hstep, fun hlt2 => ?_⟩
  · refine rampedRegs_phase t f (decide_eq_false ?_)
    rw [hone]
    exact one_lt_two.ne
  · rw [stepRegs, oscStep_eq_advance ideal_tz]
    refine advance_regs_of_not_due ?_
    rw [advance_eq, ← Bool.not_eq_true]
    exact fun hdue => hlt2.not_ge (ideal_wrapDue.1 hdue).1

theorem runStep (hparams : IdealParams K pi cs mx sy) {r : Regs K} (h : IdealInv (idealBuild K pi cs mx sy) r)
    (o : StepOps K)
    (hnormal : onFastPath (idealBuild K pi cs mx sy) r (effFreq (idealBuild K pi cs mx sy) o r) = false) :
    RunStep (idealBuild K pi cs mx sy) o r (stepRegs (idealBuild K pi cs mx sy) r o) := by
  obtain ⟨_, hagree, _, _⟩ := idealInv_iff.1 h
  have h4 := (idealConstants hagree).four_le
  have hm4 : 1 / r.minSweep ≤ 1 / 4 := one_div_le_one_div_of_le (by norm_num) h4
  have hm2 : 2 / r.minSweep = 1 / r.minSweep + 1 / r.minSweep := by rw [← add_div]; norm_num
  have hinv := stepKeepsClocksInRange K pi cs mx sy hparams r o.freq o.clip o.skew o.trigger h
  obtain ⟨_, _, hshape, _⟩ := idealInv_iff.1 hinv
  obtain ⟨_, hwp2, _⟩ := ideal_shapeRange.1 hshape
  obtain ⟨r0, r', hwp, hphase, hstep, hstays⟩ := normalStep_stepRegs hparams h o hnormal
  have hle := hstep.wp_le
  have hdown := hstep.down
  have hup := hstep.up
  have hentry := hstep.entry
  have hmid := hstep.entry_at_mid
  rw [hwp] at hle hdown hup hentry hmid
  refine
    { inv := hinv
      minSweep := (oscStep_sameConfig (B := idealBuild K pi cs mx sy) ideal_tz ..).1
      four_le := h4
      down := fun hend => ?down
      up := fun hlow hend => ?up
      up_stays := fun hlow hend => ?up_stays
      entry := fun hone => ?entry
      entry_at_mid := fun hone hp => ?entry_at_mid }
  case down =>
    have hd := hdown hend
    rwa [hstays (by linarith)]
  case up =>
    have hu := hup hlow hend
    rcases lt_or_ge r'.warpedPhase 2 with hlt | hge
    · rwa [hstays hlt]
    · exact hwp2.trans (hge.trans hu)
  case up_stays =>
    have hu := hup hlow hend.le
    rwa [hstays (by linarith)]
  case entry =>
    have he := hentry hone
    rw [hstays (by linarith)]
    exact ⟨hone ▸ hle, he⟩
  case entry_at_mid =>
    have he := hmid hone ((hphase hone).trans_le hp)
    rwa [hstays (by linarith)]

/-! ### Runs (R25, R136) -/

section Run

variable (hparams : IdealParams K pi cs mx sy)
include hparams

/-- `n` STEPs of a sweep-down. -/
theorem run_down (os : List (StepOps K)) : ∀ {r : Regs K}, IdealInv (idealBuild K pi cs mx sy) r →
    AllNormal (idealBuild K pi cs mx sy) r os → (os.length : K) ≤ (1 - r.warpedPhase) * r.minSweep →
    (runRegs (idealBuild K pi cs mx sy) r os).warpedPhase ≤ r.warpedPhase + os.length / r.minSweep := by
  induction os with
  | nil => intro r _ _ _; simp [runRegs]
  | cons o os ih =>
    rintro r h ⟨hnormal, hrest⟩ hlen
    have hstep := runStep hparams h o hnormal
    have hm : 0 < r.minSweep := by linarith [hstep.four_le]
    have h1 : 1 / r.minSweep * r.minSweep = 1 := one_div_mul_cancel hm.ne'
    rw [List.length_cons, Nat.cast_add, Nat.cast_one] at hlen ⊢
    have hn : (0 : K) ≤ os.length := Nat.cast_nonneg _
    have hend : r.warpedPhase + 1 / r.minSweep ≤ 1 := by
      refine le_of_mul_le_mul_right (a := r.minSweep) ?_ hm
      linarith
    have hd := hstep.down hend
    have htail := ih hstep.inv hrest (by
      rw [hstep.minSweep]
      linarith [mul_le_mul_of_nonneg_right hd hm.le])
    rw [hstep.minSweep] at htail
    calc _ ≤ (stepRegs (idealBuild K pi cs mx sy) r o).warpedPhase + os.length / r.minSweep := htail
      _ ≤ r.warpedPhase + (os.length + 1) / r.minSweep := by rw [add_div]; linarith

/-- `n` STEPs of a sweep-up. -/
theorem run_up (os : List (StepOps K)) : ∀ {r : Regs K}, IdealInv (idealBuild K pi cs mx sy) r →
    AllNormal (idealBuild K pi cs mx sy) r os → 1 < r.warpedPhase →
    (os.length : K) ≤ (2 - r.warpedPhase) * r.minSweep →
    (runRegs (idealBuild K pi cs mx sy) r os).warpedPhase ≤ r.warpedPhase + os.length / r.minSweep := by
  induction os with
  | nil => intro r _ _ _ _; simp [runRegs]
  | cons o os ih =>
    rintro r h ⟨hnormal, hrest⟩ hlow hlen
    have hstep := runStep hparams h o hnormal
    have hm : 0 < r.minSweep := by linarith [hstep.four_le]
    have h1 : 1 / r.minSweep * r.minSweep = 1 := one_div_mul_cancel hm.ne'
    rw [List.length_cons, Nat.cast_add, Nat.cast_one] at hlen ⊢
    have hn : (0 : K) ≤ os.length := Nat.cast_nonneg _
    have hend : r.warpedPhase + 1 / r.minSweep ≤ 2 := by
      refine le_of_mul_le_mul_right (a := r.minSweep) ?_ hm
      linarith
    have hu := hstep.up hlow hend
    rcases hend.lt_or_eq with hin | hlast
    · have htail := ih hstep.inv hrest (hlow.trans_le (hstep.up_stays hlow hin)) (by
        rw [hstep.minSweep]
        linarith [mul_le_mul_of_nonneg_right hu hm.le])
      rw [hstep.minSweep] at htail
      calc _ ≤ (stepRegs (idealBuild K pi cs mx sy) r o).warpedPhase + os.length / r.minSweep := htail
        _ ≤ r.warpedPhase + (os.length + 1) / r.minSweep := by rw [add_div]; linarith
    · -- this STEP reaches the end of the sweep, so it is the last
      have hzero : (os.length : K) ≤ 0 := by
        have hone : (2 - r.warpedPhase) * r.minSweep = 1 := by
          rw [← hlast, add_sub_cancel_left, h1]
        linarith
      obtain rfl : os = [] := List.eq_nil_of_length_eq_zero (by exact_mod_cast le_antisymm hzero hn)
      refine hu.trans (add_le_add_right ?_ _)
      simp

/-- `n` STEPs from 1: the carry on entry adds less than one. -/
theorem run_from_one (os : List (StepOps K)) : ∀ {r : Regs K}, IdealInv (idealBuild K pi cs mx sy) r →
    AllNormal (idealBuild K pi cs mx sy) r os → r.warpedPhase = 1 → (os.length : K) + 1 ≤ r.minSweep →
    (runRegs (idealBuild K pi cs mx sy) r os).warpedPhase ≤ 1 + (os.length + 1) / r.minSweep := by
  induction os with
  | nil =>
    intro r h _ hone hlen
    obtain ⟨_, hagree, _, _⟩ := idealInv_iff.1 h
    have hpos := one_div_pos.2 (idealConstants hagree).minSweep_pos
    simp only [runRegs, List.foldl_nil, List.length_nil, Nat.cast_zero, zero_add, hone]
    linarith
  | cons o os ih =>
    rintro r h ⟨hnormal, hrest⟩ hone hlen
    have hstep := runStep hparams h o hnormal
    have hm : 0 < r.minSweep := by linarith [hstep.four_le]
    have h1 : 1 / r.minSweep * r.minSweep = 1 := one_div_mul_cancel hm.ne'
    have h2 : 2 / r.minSweep = 1 / r.minSweep + 1 / r.minSweep := by rw [← add_div]; norm_num
    have hpos := one_div_pos.2 hm
    rw [List.length_cons, Nat.cast_add, Nat.cast_one] at hlen ⊢
    obtain ⟨hlo, hhi⟩ := hstep.entry hone
    rw [add_div, add_div]
    rcases hlo.eq_or_lt with hstill | hmoved
    · have htail := ih hstep.inv hrest hstill.symm (by rw [hstep.minSweep]; linarith)
      rw [hstep.minSweep, add_div] at htail
      exact htail.trans (by linarith)
    · have htail := run_up hparams os hstep.inv hrest hmoved (by
        rw [hstep.minSweep]
        linarith [mul_le_mul_of_nonneg_right (hhi.trans_eq (congrArg (1 + ·) h2)) hm.le])
      rw [hstep.minSweep] at htail
      exact htail.trans (by linarith)

/-- `n` STEPs from 1, of which the first finds `phase` not past `mid`: nothing is carried. -/
theorem run_from_one_at_mid (os : List (StepOps K)) {r : Regs K} (h : IdealInv (idealBuild K pi cs mx sy) r)
    (hall : AllNormal (idealBuild K pi cs mx sy) r os) (hone : r.warpedPhase = 1)
    (hmid : ∀ o ∈ os.head?, r.phase ≤ (effGeometry (idealBuild K pi cs mx sy) o r).mid)
    (hlen : (os.length : K) ≤ r.minSweep) :
    (runRegs (idealBuild K pi cs mx sy) r os).warpedPhase ≤ 1 + os.length / r.minSweep := by
  cases os with
  | nil => simp [runRegs, hone]
  | cons o os =>
    obtain ⟨hnormal, hrest⟩ := hall
    have hstep := runStep hparams h o hnormal
    have hm : 0 < r.minSweep := by linarith [hstep.four_le]
    have h1 : 1 / r.minSweep * r.minSweep = 1 := one_div_mul_cancel hm.ne'
    rw [List.length_cons, Nat.cast_add, Nat.cast_one] at hlen ⊢
    obtain ⟨hlo, _⟩ := hstep.entry hone
    have hhi := hstep.entry_at_mid hone (hmid o rfl)
    rcases hlo.eq_or_lt with hstill | hmoved
    · have htail := run_from_one hparams os hstep.inv hrest hstill.symm (by rw [hstep.minSweep]; exact hlen)
      rwa [hstep.minSweep] at htail
    · have htail := run_up hparams os hstep.inv hrest hmoved (by
        rw [hstep.minSweep]
        linarith [mul_le_mul_of_nonneg_right hhi hm.le])
      rw [hstep.minSweep] at htail
      rw [add_div]
      exact htail.trans (by linarith)

end Run

end Ideal

/-! ### The statements -/

/-- Settles O53. -/
theorem noSweepIsShorterThanMinSweep : Obligations.NoSweepIsShorterThanMinSweep := by
  intro K _ _ _ _ pi cs mx sy hparams os r h hall
  exact ⟨fun _ => run_down hparams os h hall, run_up hparams os h hall,
    run_from_one_at_mid hparams os h hall, run_from_one hparams os h hall⟩

/-- Settles O54: no segment moves, and the wrap is not due. -/
theorem zeroFrequencyHolds : Obligations.ZeroFrequencyHolds := by
  intro K _ _ _ _ pi cs mx sy _ r f c k h hs hf hdue
  obtain ⟨_, hagree, _, _⟩ := idealInv_iff.1 h
  have hc := idealConstants hagree
  rw [oscStep_eq_advance ideal_tz, rampedRegs_ready f (ideal_syncActive_of_idle hs), effFreq_of_idle hs,
    ideal_freqOperand_of_nonpos hc hf, advance_eq, ideal_beforeWrap_of_zero hc]
  exact wrap_not_due (Bool.eq_false_iff.2 fun hd => hdue (ideal_wrapDue.1 hd))

/-- Settles O56: both clocks are at 2, so one increment later the wrap is due and leaves that increment. -/
theorem triggerOnTerminalFlatEndsCycle : Obligations.TriggerOnTerminalFlatEndsCycle := by
  rintro K _ _ _ _ pi cs mx sy hparams r f c k inc h hs hwp rfl
  obtain ⟨_, hagree, _, hsync⟩ := idealInv_iff.1 h
  have hc := idealConstants hagree
  obtain ⟨hf0, _⟩ := ideal_freqOperand_mem (pi := pi) (cs := cs) (mx := mx) (sy := sy) hc f
  have hc2 : IdealConstants { r with phase := (2 : K) } := ⟨hc.1, hc.2, hc.3, hc.4, hc.5, hc.6⟩
  rw [oscStep_eq_advance ideal_tz, ideal_rampedRegs_terminal hs hwp, ideal_effFreq_terminal hs hwp]
  obtain ⟨hphase, hdue⟩ := ideal_beforeWrap_terminal (pi := pi) (cs := cs) (mx := mx) (sy := sy) hc2 hf0 hwp rfl
    (clipInternal (idealBuild K pi cs mx sy) c) (skewInternal (idealBuild K pi cs mx sy) r k)
  have hoff : syncActive (idealBuild K pi cs mx sy) { r with phase := (2 : K) } = false := ideal_syncActive_of_idle hs
  obtain ⟨_, hsp, hsi⟩ := advance_sameButClocks (B := idealBuild K pi cs mx sy)
    (f := freqOperand (idealBuild K pi cs mx sy) r f) (ci := clipInternal (idealBuild K pi cs mx sy) c)
    (si := skewInternal (idealBuild K pi cs mx sy) r k) hoff
  refine ⟨hdue, ?_, hsp.trans hs, hsi.trans (hsync.idle hs)⟩
  rw [advance_regs_of_due_plain hdue hoff]
  simp only [wrapPlain, hphase]
  have hrem : (2 + r.phaseIncPerHz * freqOperand (idealBuild K pi cs mx sy) r f) - 2 =
      r.phaseIncPerHz * freqOperand (idealBuild K pi cs mx sy) r f := add_sub_cancel_left ..
  simp only [wrapRemainder, phaseIncrement, ideal_mul, ideal_sub, ideal_two, ideal_lt, hrem, lt_irrefl, decide_false,
    Bool.false_eq_true, if_false]

end Sys2Proof.Machine
end
